-- ==== Sys2Proof/Word.lean ====
section
/-! DEFINITION. The word types of the block: bytes, ASCII characters and the 32-bit value of the host port. -/

namespace Sys2Proof

/-- An unsigned 8-bit value, bit 7 most significant (00_scope.md R8). -/
abbrev Byte := BitVec 8

/-- One character of an ASCII string (10_state.md R36, `text`). -/
abbrev Ascii := BitVec 7

/-- The 32-bit unsigned value `v` of the host port (10_state.md R36). -/
abbrev Word32 := BitVec 32

end Sys2Proof
end

