-- ==== Sys2Proof/Config.lean ====
section
/-! DEFINITION. The implementation parameters (00_scope.md R5 to R7): the fixed numbers, the open parameters and when
they are well formed, the test configuration TC, the setting fields they place, and the free values of the model. -/

namespace Sys2Proof

/-! The values a source fixes or a decision chose (00_scope.md R5). -/

/-- Bytes in a frame. -/
abbrev Config.frameLen : Nat := 17
/-- Data bytes in a frame, positions 2..15. -/
abbrev Config.dataLen : Nat := 14
/-- The seed of the checksum. -/
abbrev Config.cksumSeed : Nat := 0x55
/-- Addresses of the register map. -/
abbrev Config.mapSize : Nat := 256
/-- The last address populated in practice. -/
abbrev Config.nominalLastAddr : Nat := 0xC1
/-- Bytes in one window of the bulk read. -/
abbrev Config.window : Nat := 10
/-- Windows of the bulk read (90_conflicts.md C3). -/
abbrev Config.numWindows : Nat := 20
/-- The most addresses one write may name. -/
abbrev Config.maxWrite : Nat := 10
/-- DPI mode slots. -/
abbrev Config.numDpiModes : Nat := 4
abbrev Config.dpiMin : Nat := 50
abbrev Config.dpiMax : Nat := 26000
abbrev Config.dpiStep : Nat := 50
/-- Frame position of the event selector (D7). -/
abbrev Config.evtSelPos : Nat := 6
/-- Frame position of a memory request's start address (D6). -/
abbrev Config.memAddrPos : Nat := 4
/-- Frame position of a memory request's count (D6). -/
abbrev Config.memLenPos : Nat := 5
/-- Frame position of a memory request's first value (D6). -/
abbrev Config.memDataPos : Nat := 6

/-- The LED effects, the closed set of 43_value_codecs.md R257. -/
inductive Effect
  | off | steady | breathe
  deriving DecidableEq, Repr

/-- The polling rates, the closed set of 43_value_codecs.md R258. -/
inductive PollRate
  | hz125 | hz250 | hz500 | hz1000
  deriving DecidableEq, Repr

/-- The setting fields of the control register file, in the order of the table of 10_state.md R29. -/
inductive SettingField
  | poll | dpiIdx | lodMm | lodRipple | debounce | motionSync | angleSnap | ledEffect | ledBright | ledEnabled
  | breatheSpeed | autosleep
  | dpi (m : Fin 4)
  | color (m : Fin 4)
  deriving DecidableEq, Repr

/-- The group size n_f of a field: its value bytes (10_state.md R29). -/
def SettingField.size : SettingField → Nat
  | .dpi _ => 3
  | .color _ => 3
  | _ => 1

/-- Every setting field, each mode slot with a DPI and a colour group of its own (10_state.md R30). -/
def SettingField.all : List SettingField :=
  [.poll, .dpiIdx, .lodMm, .lodRipple, .debounce, .motionSync, .angleSnap, .ledEffect, .ledBright, .ledEnabled,
   .breatheSpeed, .autosleep, .dpi 0, .dpi 1, .dpi 2, .dpi 3, .color 0, .color 1, .color 2, .color 3]

/-- The OPEN parameters of 00_scope.md R5, as plain data, not yet checked. -/
structure Params where
  header : Byte
  cmdPower : Byte
  cmdRestore : Byte
  cmdStatus : Byte
  cmdEvent : Byte
  cmdMemwrite : Byte
  cmdMemread : Byte
  cmdProfget : Byte
  cmdProfset : Byte
  evtSel0 : Byte
  evtSel1 : Byte
  evtSel2 : Byte
  profilePos : Nat
  powerPctPos : Nat
  powerMvPos : Nat
  powerFlagPos : Nat
  effectOff : Byte
  effectSteady : Byte
  effectBreathe : Byte
  poll125 : Byte
  poll250 : Byte
  poll500 : Byte
  poll1000 : Byte
  addrPoll : Byte
  addrDpiIdx : Byte
  addrLodMm : Byte
  addrLodRipple : Byte
  addrDebounce : Byte
  addrMotionSync : Byte
  addrAngleSnap : Byte
  addrLedEffect : Byte
  addrLedBright : Byte
  addrLedEnabled : Byte
  addrBreatheSpeed : Byte
  addrAutosleep : Byte
  addrDpi0 : Byte
  addrDpi1 : Byte
  addrDpi2 : Byte
  addrDpi3 : Byte
  addrColor0 : Byte
  addrColor1 : Byte
  addrColor2 : Byte
  addrColor3 : Byte
  /-- MAX_DISCARD, a count (D16). -/
  maxDiscard : Nat
  /-- READ_TIMEOUT, a duration; it enters no rule (D47). -/
  readTimeout : Nat
  /-- VIDPID_WIRED; it enters no rule (D33). -/
  vidpidWired : BitVec 16 × BitVec 16
  /-- VIDPID_WIRELESS; it enters no rule (D33). -/
  vidpidWireless : BitVec 16 × BitVec 16
  deriving DecidableEq, Repr

/-- The base address parameter ADDR_f of a field (10_state.md R29). -/
def Params.addr (p : Params) : SettingField → Byte
  | .poll => p.addrPoll
  | .dpiIdx => p.addrDpiIdx
  | .lodMm => p.addrLodMm
  | .lodRipple => p.addrLodRipple
  | .debounce => p.addrDebounce
  | .motionSync => p.addrMotionSync
  | .angleSnap => p.addrAngleSnap
  | .ledEffect => p.addrLedEffect
  | .ledBright => p.addrLedBright
  | .ledEnabled => p.addrLedEnabled
  | .breatheSpeed => p.addrBreatheSpeed
  | .autosleep => p.addrAutosleep
  | .dpi 0 => p.addrDpi0
  | .dpi 1 => p.addrDpi1
  | .dpi 2 => p.addrDpi2
  | .dpi 3 => p.addrDpi3
  | .color 0 => p.addrColor0
  | .color 1 => p.addrColor1
  | .color 2 => p.addrColor2
  | .color 3 => p.addrColor3

/-- The eight command bytes (30_encoding.md R94). -/
def Params.commands (p : Params) : List Byte :=
  [p.cmdPower, p.cmdRestore, p.cmdStatus, p.cmdEvent, p.cmdMemwrite, p.cmdMemread, p.cmdProfget, p.cmdProfset]

/-- The selector of event kind k, EVT_SEL[k] (41_payload.md R165). -/
def Params.evtSel (p : Params) : Fin 3 → Byte
  | 0 => p.evtSel0
  | 1 => p.evtSel1
  | 2 => p.evtSel2

/-- EFFECT_CODE (43_value_codecs.md R256). -/
def Params.effectCode (p : Params) : Effect → Byte
  | .off => p.effectOff
  | .steady => p.effectSteady
  | .breathe => p.effectBreathe

/-- POLL_CODE (43_value_codecs.md R258). -/
def Params.pollCode (p : Params) : PollRate → Byte
  | .hz125 => p.poll125
  | .hz250 => p.poll250
  | .hz500 => p.poll500
  | .hz1000 => p.poll1000

/-- A frame position lies in the data area (00_scope.md R6(d)). -/
abbrev Params.DataPos (i : Nat) : Prop := 2 ≤ i ∧ i ≤ 15

/-- Two fields share no address, checksum addresses included (00_scope.md R6(e)). -/
abbrev Params.Apart (p : Params) (f g : SettingField) : Prop :=
  (p.addr f).toNat + f.size < (p.addr g).toNat ∨ (p.addr g).toNat + g.size < (p.addr f).toNat

/-- When a configuration is well formed: clauses (a) to (e) of 00_scope.md R6. -/
abbrev Params.Wf (p : Params) : Prop :=
  p.commands.Nodup ∧
  [p.evtSel0, p.evtSel1, p.evtSel2].Nodup ∧
  [p.effectOff, p.effectSteady, p.effectBreathe].Nodup ∧
  [p.poll125, p.poll250, p.poll500, p.poll1000].Nodup ∧
  (Params.DataPos p.profilePos ∧ Params.DataPos p.powerPctPos ∧ Params.DataPos p.powerMvPos ∧
    Params.DataPos (p.powerMvPos + 1) ∧ Params.DataPos p.powerFlagPos ∧
    [p.powerPctPos, p.powerMvPos, p.powerMvPos + 1, p.powerFlagPos].Nodup) ∧
  (Params.DataPos Config.evtSelPos ∧ Params.DataPos Config.memAddrPos ∧ Params.DataPos Config.memLenPos ∧
    Config.memAddrPos ≠ Config.memLenPos ∧ Config.memLenPos < Config.memDataPos ∧ Config.memDataPos + 9 ≤ 15) ∧
  (∀ f ∈ SettingField.all, (p.addr f).toNat + f.size ≤ Config.nominalLastAddr) ∧
  SettingField.all.Pairwise p.Apart

/-- The test configuration TC (00_scope.md R7, 10_state.md R32): synthetic, for the vectors only (D53).
READ_TIMEOUT and the identifiers have no TC value; zero stands there, and no rule reads them. -/
def Params.tc : Params where
  header := 0xA0
  cmdPower := 0xB1
  cmdRestore := 0xB2
  cmdStatus := 0xB3
  cmdEvent := 0xB4
  cmdMemwrite := 0xB5
  cmdMemread := 0xB6
  cmdProfget := 0xB7
  cmdProfset := 0xB8
  evtSel0 := 0x01
  evtSel1 := 0x02
  evtSel2 := 0x03
  profilePos := 6
  powerPctPos := 6
  powerMvPos := 7
  powerFlagPos := 9
  effectOff := 0
  effectSteady := 1
  effectBreathe := 2
  poll125 := 0x08
  poll250 := 0x04
  poll500 := 0x02
  poll1000 := 0x01
  addrPoll := 0x00
  addrDpiIdx := 0x02
  addrLodMm := 0x04
  addrLodRipple := 0x06
  addrDebounce := 0x08
  addrMotionSync := 0x0A
  addrAngleSnap := 0x0C
  addrLedEffect := 0x0E
  addrLedBright := 0x10
  addrLedEnabled := 0x12
  addrBreatheSpeed := 0x14
  addrAutosleep := 0x16
  addrDpi0 := 0x20
  addrDpi1 := 0x28
  addrDpi2 := 0x30
  addrDpi3 := 0x38
  addrColor0 := 0x24
  addrColor1 := 0x2C
  addrColor2 := 0x34
  addrColor3 := 0x3C
  maxDiscard := 3
  readTimeout := 0
  vidpidWired := (0, 0)
  vidpidWireless := (0, 0)

/-- A well-formed configuration: the parameters with the check of 00_scope.md R6, so that an ill-formed one cannot be
held. The defaults serve only to show that the type is inhabited. -/
structure Config where
  params : Params := Params.tc
  ok : params.Wf := by decide
  deriving DecidableEq, Repr, Inhabited

/-- Take a configuration, or refuse one that breaks a clause of 00_scope.md R6. -/
def Config.make? (p : Params) : Option Config :=
  if h : p.Wf then some ⟨p, h⟩ else none

/-- The configuration TC. -/
def Config.tc : Config := ⟨Params.tc, by decide⟩

/-- What the transport answers to a write or to an open (10_state.md R35, 44_session.md R300). -/
inductive LinkResult
  | ok
  | ioError
  deriving DecidableEq, Repr, Inhabited

/-- How one wait for a received string ends (10_state.md R34). -/
inductive RecvOutcome
  | deliver
  | timeout
  | ioError
  deriving DecidableEq, Repr, Inhabited

/-- One draw of a receive: the strings the device appends before it ends, and how it ends (10_state.md R33, R34). -/
structure RecvDraw where
  arrivals : List (List Byte)
  outcome : RecvOutcome
  deriving DecidableEq, Repr, Inhabited

/-- The configuration the block is built with: any well-formed one (00_scope.md R5, R39). A free value: it has no body.
DESIGN CHOICE, safe (log entry 1). -/
opaque Config.installed : Config

/-- The answer of the n-th open that State's draws do not give (44_session.md R300). Free. DESIGN CHOICE, safe (log entry 2). -/
opaque Config.freeOpen : Nat → LinkResult

/-- The answer of the n-th write that State's draws do not give (10_state.md R35). Free. DESIGN CHOICE, safe (log entry 2). -/
opaque Config.freeSend : Nat → LinkResult

/-- The n-th receive that State's draws do not give (10_state.md R34). Free. DESIGN CHOICE, safe (log entry 2). -/
opaque Config.freeRecv : Nat → RecvDraw

end Sys2Proof
end

