-- ==== Sys2Proof/Syntax.lean ====
section
/-! DEFINITION. The words of the block and its instructions: frames, host operation records, link words, and `Instr`,
one constructor per row of spec/opcode_table.json. -/

namespace Sys2Proof

/-- The 14 data bytes of a frame, positions 2..15 (30_encoding.md R90). -/
structure FrameData where
  bytes : List Byte
  len : bytes.length = 14
  deriving DecidableEq, Repr

/-- A 17-byte frame: header, command, 14 data bytes, checksum (30_encoding.md R90). Equality is byte-wise
(40_frame_codec.md R134). -/
structure Frame where
  header : Byte
  command : Byte
  data : FrameData
  checksum : Byte
  deriving DecidableEq, Repr

/-- A host operation record (10_state.md R36). -/
structure OpRecord where
  op : Byte
  a : Byte := 0
  n : Byte := 0
  v : Word32 := 0
  bytes : List Byte := []
  pairs : List (Byte × Byte) := []
  text : List Ascii := []
  deriving DecidableEq, Repr

/-- What stands before the block to be done next: a host operation, a frame the sequencer sends, or a string the
device appends (10_state.md R33, R35, R36; log entries 6, 8). -/
inductive Input
  | op (r : OpRecord)
  | tx (bytes : List Byte)
  | rx (bytes : List Byte)
  deriving DecidableEq, Repr

/-- The instructions: the 70 host operations of 30_encoding.md R97, then the 19 frame variants of R92.
A received variant keeps its header byte, which is not checked (R93), and its data bytes, of which the unused ones
are ignored (R91). -/
inductive Instr
  | cksum (bytes : List Byte)
  | frameEnc (a : Byte) (bytes : List Byte)
  | frameDec (bytes : List Byte)
  | encPowerQ
  | encRestore
  | encMemread (a n : Byte)
  | encMemwrite (a : Byte) (bytes : List Byte)
  | encProfget
  | encProfset (a : Byte)
  | encEvtack0
  | encEvtack1
  | encEvtack2
  | classify (bytes : List Byte)
  | mapGet (a : Byte)
  | mapWrite (pairs : List (Byte × Byte))
  | mapBulkRead
  | dpiEnc (v : Word32)
  | dpiDec (bytes : List Byte)
  | colorEnc (text : List Ascii)
  | colorDec (bytes : List Byte)
  | boolEnc (v : Word32)
  | boolDec (bytes : List Byte)
  | effectEnc (v : Word32)
  | effectDec (bytes : List Byte)
  | pollEnc (v : Word32)
  | pollDec (bytes : List Byte)
  | byteEnc (v : Word32)
  | byteDec (bytes : List Byte)
  | idxEnc (v : Word32)
  | idxDec (bytes : List Byte)
  | sleepEnc (v : Word32)
  | sleepDec (bytes : List Byte)
  | getPoll
  | getDpiIdx
  | getLodMm
  | getLodRipple
  | getDebounce
  | getMotionSync
  | getAngleSnap
  | getLedEffect
  | getLedBright
  | getLedEnabled
  | getBreatheSpeed
  | getAutosleep
  | getDpi (a : Byte)
  | getColor (a : Byte)
  | snapshot
  | setPoll (v : Word32)
  | setDpiIdx (v : Word32)
  | setLodMm (v : Word32)
  | setLodRipple (v : Word32)
  | setDebounce (v : Word32)
  | setMotionSync (v : Word32)
  | setAngleSnap (v : Word32)
  | setLedEffect (v : Word32)
  | setLedBright (v : Word32)
  | setLedEnabled (v : Word32)
  | setBreatheSpeed (v : Word32)
  | setAutosleep (v : Word32)
  | setDpi (a : Byte) (v : Word32)
  | setColor (a : Byte) (text : List Ascii)
  | openSession
  | closeSession
  | restore
  | getProfile
  | setProfile (a : Byte)
  | powerQuery
  | recv
  | sendEvtack (a : Byte)
  | flush
  | powerQ
  | powerR (header : Byte) (data : FrameData)
  | restoreQ
  | restoreR
  | memreadQ (a n : Byte)
  | memreadR (header : Byte) (data : FrameData)
  | memwriteQ (a : Byte) (bytes : List Byte)
  | memwriteR (header command : Byte) (data : FrameData)
  | profgetQ
  | profgetR (header : Byte) (data : FrameData)
  | profsetQ (a : Byte)
  | profsetR (header : Byte) (data : FrameData)
  | statusR (header : Byte) (data : FrameData)
  | eventN0 (header : Byte) (data : FrameData)
  | evtack0
  | eventN1 (header : Byte) (data : FrameData)
  | evtack1
  | eventN2 (header : Byte) (data : FrameData)
  | evtack2
  deriving DecidableEq, Repr

end Sys2Proof
end

