-- ==== Sys2Proof/WellFormed.lean ====
section
/-! DEFINITION. When an instruction is well formed: its operands fit the host port (10_state.md R36, 30_encoding.md R98)
or the frame layout of its row (30_encoding.md R92). -/

namespace Sys2Proof

/-- The selector byte of a frame's data, frame position 6 (41_payload.md R165). -/
def FrameData.selector (d : FrameData) : Byte := d.bytes.getD (Config.evtSelPos - 2) 0

/-- A byte list the host port can carry: 0..255 bytes (10_state.md R36). -/
def portBytesWf (bytes : List Byte) : Bool := bytes.length ≤ 255

/-- A memory request's start and count: 1..10 cells, none past address 255 (30_encoding.md R92, D49). -/
def memSpanWf (a : Byte) (n : Nat) : Bool := 1 ≤ n && n ≤ Config.maxWrite && a.toNat + n ≤ Config.mapSize

/-- A received frame that has no layout narrower than MEMWRITE_R, "any command" (30_encoding.md R92; log entry 10). -/
def memwriteReplyWf (p : Params) (header command : Byte) (data : FrameData) : Bool :=
  decide (command ∉ [p.cmdPower, p.cmdMemread, p.cmdProfget, p.cmdProfset, p.cmdStatus]) &&
  !(command == p.cmdRestore && header == p.header && data.bytes.all (· == 0)) &&
  !(command == p.cmdEvent && decide (data.selector ∈ [p.evtSel0, p.evtSel1, p.evtSel2]))

/-- Well-formedness of an instruction under a configuration. -/
def Instr.wf (cfg : Config) : Instr → Bool
  | .cksum bytes => portBytesWf bytes
  | .frameEnc _ bytes => portBytesWf bytes
  | .frameDec bytes => portBytesWf bytes
  | .encMemwrite _ bytes => portBytesWf bytes
  | .classify bytes => portBytesWf bytes
  | .dpiDec bytes => portBytesWf bytes
  | .colorDec bytes => portBytesWf bytes
  | .boolDec bytes => portBytesWf bytes
  | .effectDec bytes => portBytesWf bytes
  | .pollDec bytes => portBytesWf bytes
  | .byteDec bytes => portBytesWf bytes
  | .idxDec bytes => portBytesWf bytes
  | .sleepDec bytes => portBytesWf bytes
  | .memreadQ a n => memSpanWf a n.toNat
  | .memwriteQ a bytes => memSpanWf a bytes.length
  | .memwriteR header command data => memwriteReplyWf cfg.params header command data
  | .eventN0 _ data => data.selector == cfg.params.evtSel0
  | .eventN1 _ data => data.selector == cfg.params.evtSel1
  | .eventN2 _ data => data.selector == cfg.params.evtSel2
  | .encPowerQ | .encRestore | .encMemread _ _ | .encProfget | .encProfset _ | .encEvtack0 | .encEvtack1 | .encEvtack2
  | .mapGet _ | .mapWrite _ | .mapBulkRead
  | .dpiEnc _ | .colorEnc _ | .boolEnc _ | .effectEnc _ | .pollEnc _ | .byteEnc _ | .idxEnc _ | .sleepEnc _
  | .getPoll | .getDpiIdx | .getLodMm | .getLodRipple | .getDebounce | .getMotionSync | .getAngleSnap | .getLedEffect
  | .getLedBright | .getLedEnabled | .getBreatheSpeed | .getAutosleep | .getDpi _ | .getColor _ | .snapshot
  | .setPoll _ | .setDpiIdx _ | .setLodMm _ | .setLodRipple _ | .setDebounce _ | .setMotionSync _ | .setAngleSnap _
  | .setLedEffect _ | .setLedBright _ | .setLedEnabled _ | .setBreatheSpeed _ | .setAutosleep _ | .setDpi _ _
  | .setColor _ _
  | .openSession | .closeSession | .restore | .getProfile | .setProfile _ | .powerQuery | .recv | .sendEvtack _ | .flush
  | .powerQ | .powerR _ _ | .restoreQ | .restoreR | .memreadR _ _ | .profgetQ | .profgetR _ _ | .profsetQ _
  | .profsetR _ _ | .statusR _ _ | .evtack0 | .evtack1 | .evtack2 => true

end Sys2Proof
end

