-- ==== Sys2Proof/Decode.lean ====
section
/-! DEFINITION. The frame functions (40_frame_codec.md), the decoder of port records and link words (30_encoding.md R92,
R97, R99, R100), and after it the encoder and the words of the opcode table. -/

namespace Sys2Proof

/-! ## Checksums and frames -/

/-- The sum of the bytes over the naturals (40_frame_codec.md R130). -/
def byteSum (bs : List Byte) : Nat := (bs.map BitVec.toNat).sum

/-- The checksum function, (0x55 - sum) mod 256 (40_frame_codec.md R130, 90_conflicts.md C10). -/
def cksum (bs : List Byte) : Byte := BitVec.ofInt 8 ((Config.cksumSeed : Int) - (byteSum bs : Int))

/-- Frame data given by its byte at each data index 0..13. -/
def FrameData.ofFn (g : Nat → Byte) : FrameData := ⟨(List.range Config.dataLen).map g, by simp [Config.dataLen]⟩

/-- Up to 14 data bytes, the unused positions zero (30_encoding.md R91). -/
def FrameData.pad (data : List Byte) : FrameData := .ofFn fun j => data.getD j 0

/-- Frame data zero except at the listed frame positions (the `build` shorthand of 41_payload.md). -/
def FrameData.ofFields (fields : List (Nat × Byte)) : FrameData := .ofFn fun j => (fields.lookup (j + 2)).getD 0

/-- The bytes a frame's checksum covers, positions 0..15 (90_conflicts.md C1). -/
def Frame.body (f : Frame) : List Byte := f.header :: f.command :: f.data.bytes

/-- The 17 bytes of a frame, position 0 first on the wire (20_memory.md R62, R64). -/
def Frame.toBytes (f : Frame) : List Byte := f.body ++ [f.checksum]

/-- The byte at a frame position 0..16 (00_scope.md R8). -/
def Frame.byteAt (f : Frame) (pos : Nat) : Byte := f.toBytes.getD pos 0

/-- The frame with the given parts and the checksum they call for. -/
def Frame.seal (header command : Byte) (data : FrameData) : Frame :=
  ⟨header, command, data, Sys2Proof.cksum (header :: command :: data.bytes)⟩

/-- FRAME_ENC of a command and 14 data bytes (40_frame_codec.md R132). -/
def Frame.encode (cfg : Config) (command : Byte) (data : FrameData) : Frame := .seal cfg.params.header command data

/-- `build(c, pos→val ...)` (41_payload.md). -/
def Frame.build (cfg : Config) (command : Byte) (fields : List (Nat × Byte)) : Frame :=
  .encode cfg command (.ofFields fields)

/-- Why a received string is no valid frame (40_frame_codec.md R133). -/
inductive FrameReject
  | length (n : Nat)
  | checksum (b : Byte)
  deriving DecidableEq, Repr

/-- Split 17 bytes into a frame; the checksum is not looked at. -/
def Frame.ofBytes (s : List Byte) (h : s.length = 17) : Frame :=
  ⟨s.getD 0 0, s.getD 1 0, ⟨(s.drop 2).take 14, by simp; omega⟩, s.getD 16 0⟩

/-- Validate a received string: the length, then the checksum; the header is not checked (40_frame_codec.md R133,
30_encoding.md R93). -/
def Frame.parse (s : List Byte) : Except FrameReject Frame :=
  if h : s.length = 17 then
    let f := Frame.ofBytes s h
    if f.checksum = Sys2Proof.cksum f.body then .ok f else .error (.checksum f.checksum)
  else .error (.length s.length)

/-! ## The request frames the block builds (30_encoding.md R92, R95) -/

/-- POWER_Q (41_payload.md R150). -/
def powerQFrame (cfg : Config) : Frame := .build cfg cfg.params.cmdPower []

/-- RESTORE_Q (41_payload.md R151). -/
def restoreQFrame (cfg : Config) : Frame := .build cfg cfg.params.cmdRestore []

/-- MEMREAD_Q: start address and length (41_payload.md R152). -/
def memreadQFrame (cfg : Config) (a n : Byte) : Frame :=
  .build cfg cfg.params.cmdMemread [(Config.memAddrPos, a), (Config.memLenPos, n)]

/-- The value fields of a memory write, value i at MEM_DATA_POS + i (30_encoding.md R95). -/
def valueFields : Nat → List Byte → List (Nat × Byte)
  | _, [] => []
  | pos, v :: vs => (pos, v) :: valueFields (pos + 1) vs

/-- MEMWRITE_Q: start address, count and the values in order (41_payload.md R153). -/
def memwriteQFrame (cfg : Config) (a : Byte) (vals : List Byte) : Frame :=
  .build cfg cfg.params.cmdMemwrite
    ((Config.memAddrPos, a) :: (Config.memLenPos, BitVec.ofNat 8 vals.length) :: valueFields Config.memDataPos vals)

/-- PROFGET_Q (41_payload.md R154). -/
def profgetQFrame (cfg : Config) : Frame := .build cfg cfg.params.cmdProfget []

/-- PROFSET_Q: the requested profile at PROFILE_POS (41_payload.md R155). -/
def profsetQFrame (cfg : Config) (n : Byte) : Frame := .build cfg cfg.params.cmdProfset [(cfg.params.profilePos, n)]

/-- EVTACKk: the selector of kind k at position 6 (41_payload.md R156 to R158). -/
def evtackFrame (cfg : Config) (k : Fin 3) : Frame :=
  .build cfg cfg.params.cmdEvent [(Config.evtSelPos, cfg.params.evtSel k)]

/-! ## Decoding -/

/-- Why an input is no instruction. -/
inductive Reject
  /-- The op byte is not in the table (30_encoding.md R100). -/
  | illegalOp (op : Byte)
  /-- The record holds more bytes than the port carries (10_state.md R36). -/
  | recordTooLong (n : Nat)
  /-- A sent string with no request layout: the block builds none such (30_encoding.md R90, R92). -/
  | notRequest
  /-- A received string that is no valid frame (30_encoding.md R99). -/
  | notFrame (why : FrameReject)
  deriving DecidableEq, Repr

/-- The op-code table (30_encoding.md R97): each operation takes the record fields its rule names and no others. -/
def decodeOp (r : OpRecord) : Option Instr :=
  match r.op.toNat with
  | 0x01 => some (.cksum r.bytes)
  | 0x02 => some (.frameEnc r.a r.bytes)
  | 0x03 => some (.frameDec r.bytes)
  | 0x10 => some .encPowerQ
  | 0x11 => some .encRestore
  | 0x12 => some (.encMemread r.a r.n)
  | 0x13 => some (.encMemwrite r.a r.bytes)
  | 0x14 => some .encProfget
  | 0x15 => some (.encProfset r.a)
  | 0x16 => some .encEvtack0
  | 0x17 => some .encEvtack1
  | 0x18 => some .encEvtack2
  | 0x20 => some (.classify r.bytes)
  | 0x30 => some (.mapGet r.a)
  | 0x31 => some (.mapWrite r.pairs)
  | 0x32 => some .mapBulkRead
  | 0x40 => some (.dpiEnc r.v)
  | 0x41 => some (.dpiDec r.bytes)
  | 0x42 => some (.colorEnc r.text)
  | 0x43 => some (.colorDec r.bytes)
  | 0x44 => some (.boolEnc r.v)
  | 0x45 => some (.boolDec r.bytes)
  | 0x46 => some (.effectEnc r.v)
  | 0x47 => some (.effectDec r.bytes)
  | 0x48 => some (.pollEnc r.v)
  | 0x49 => some (.pollDec r.bytes)
  | 0x4A => some (.byteEnc r.v)
  | 0x4B => some (.byteDec r.bytes)
  | 0x4C => some (.idxEnc r.v)
  | 0x4D => some (.idxDec r.bytes)
  | 0x4E => some (.sleepEnc r.v)
  | 0x4F => some (.sleepDec r.bytes)
  | 0x50 => some .getPoll
  | 0x51 => some .getDpiIdx
  | 0x52 => some .getLodMm
  | 0x53 => some .getLodRipple
  | 0x54 => some .getDebounce
  | 0x55 => some .getMotionSync
  | 0x56 => some .getAngleSnap
  | 0x57 => some .getLedEffect
  | 0x58 => some .getLedBright
  | 0x59 => some .getLedEnabled
  | 0x5A => some .getBreatheSpeed
  | 0x5B => some .getAutosleep
  | 0x5C => some (.getDpi r.a)
  | 0x5D => some (.getColor r.a)
  | 0x5F => some .snapshot
  | 0x60 => some (.setPoll r.v)
  | 0x61 => some (.setDpiIdx r.v)
  | 0x62 => some (.setLodMm r.v)
  | 0x63 => some (.setLodRipple r.v)
  | 0x64 => some (.setDebounce r.v)
  | 0x65 => some (.setMotionSync r.v)
  | 0x66 => some (.setAngleSnap r.v)
  | 0x67 => some (.setLedEffect r.v)
  | 0x68 => some (.setLedBright r.v)
  | 0x69 => some (.setLedEnabled r.v)
  | 0x6A => some (.setBreatheSpeed r.v)
  | 0x6B => some (.setAutosleep r.v)
  | 0x6C => some (.setDpi r.a r.v)
  | 0x6D => some (.setColor r.a r.text)
  | 0x70 => some .openSession
  | 0x71 => some .closeSession
  | 0x72 => some .restore
  | 0x73 => some .getProfile
  | 0x74 => some (.setProfile r.a)
  | 0x75 => some .powerQuery
  | 0x76 => some .recv
  | 0x77 => some (.sendEvtack r.a)
  | 0x78 => some .flush
  | _ => none

/-- The request a sent frame can only be, read by its command byte (30_encoding.md R92). -/
def requestOf (cfg : Config) (f : Frame) : Option Instr :=
  let p := cfg.params
  if f.command = p.cmdPower then some .powerQ
  else if f.command = p.cmdRestore then some .restoreQ
  else if f.command = p.cmdMemread then some (.memreadQ (f.byteAt Config.memAddrPos) (f.byteAt Config.memLenPos))
  else if f.command = p.cmdMemwrite then
    some (.memwriteQ (f.byteAt Config.memAddrPos)
      ((f.toBytes.drop Config.memDataPos).take (f.byteAt Config.memLenPos).toNat))
  else if f.command = p.cmdProfget then some .profgetQ
  else if f.command = p.cmdProfset then some (.profsetQ (f.byteAt p.profilePos))
  else if f.command = p.cmdEvent then
    if f.byteAt Config.evtSelPos = p.evtSel0 then some .evtack0
    else if f.byteAt Config.evtSelPos = p.evtSel1 then some .evtack1
    else if f.byteAt Config.evtSelPos = p.evtSel2 then some .evtack2
    else none
  else none

/-- The frame a request row stands for: what its layout in 30_encoding.md R92 gives. -/
def requestFrame (cfg : Config) : Instr → Option Frame
  | .powerQ => some (powerQFrame cfg)
  | .restoreQ => some (restoreQFrame cfg)
  | .memreadQ a n => some (memreadQFrame cfg a n)
  | .memwriteQ a bytes => some (memwriteQFrame cfg a bytes)
  | .profgetQ => some (profgetQFrame cfg)
  | .profsetQ a => some (profsetQFrame cfg a)
  | .evtack0 => some (evtackFrame cfg 0)
  | .evtack1 => some (evtackFrame cfg 1)
  | .evtack2 => some (evtackFrame cfg 2)
  | _ => none

/-- A sent string: the request whose layout it has, byte for byte (30_encoding.md R91, R92). -/
def decodeTx (cfg : Config) (s : List Byte) : Except Reject Instr :=
  match Frame.parse s with
  | .error _ => .error .notRequest
  | .ok f =>
    match requestOf cfg f with
    | none => .error .notRequest
    | some i => if i.wf cfg ∧ requestFrame cfg i = some f then .ok i else .error .notRequest

/-- The row of a valid received frame (30_encoding.md R92): by its command, an event by its selector, a restore echo by
all its bytes; every other valid frame has the layout of MEMWRITE_R alone, "any command" (log entry 10). -/
def arrivalOf (cfg : Config) (f : Frame) : Instr :=
  let p := cfg.params
  if f.command = p.cmdPower then .powerR f.header f.data
  else if f.command = p.cmdRestore ∧ f = restoreQFrame cfg then .restoreR
  else if f.command = p.cmdProfget then .profgetR f.header f.data
  else if f.command = p.cmdProfset then .profsetR f.header f.data
  else if f.command = p.cmdEvent ∧ f.data.selector = p.evtSel0 then .eventN0 f.header f.data
  else if f.command = p.cmdEvent ∧ f.data.selector = p.evtSel1 then .eventN1 f.header f.data
  else if f.command = p.cmdEvent ∧ f.data.selector = p.evtSel2 then .eventN2 f.header f.data
  else if f.command = p.cmdMemread then .memreadR f.header f.data
  else if f.command = p.cmdStatus then .statusR f.header f.data
  else .memwriteR f.header f.command f.data

/-- A received string: the row of the frame it is, if it is one. -/
def decodeRx (cfg : Config) (s : List Byte) : Except Reject Instr :=
  match Frame.parse s with
  | .error why => .error (.notFrame why)
  | .ok f => .ok (arrivalOf cfg f)

/-- The decoder, total on every input. -/
def decode (cfg : Config) : Input → Except Reject Instr
  | .op r =>
    if r.bytes.length ≤ 255 then
      match decodeOp r with
      | some i => .ok i
      | none => .error (.illegalOp r.op)
    else .error (.recordTooLong r.bytes.length)
  | .tx s => decodeTx cfg s
  | .rx s => decodeRx cfg s

/-! ## Encoding -/

/-- The frame a received row stands for (30_encoding.md R92). -/
def arrivalFrame (cfg : Config) : Instr → Option Frame
  | .powerR header data => some (.seal header cfg.params.cmdPower data)
  | .restoreR => some (restoreQFrame cfg)
  | .memreadR header data => some (.seal header cfg.params.cmdMemread data)
  | .memwriteR header command data => some (.seal header command data)
  | .profgetR header data => some (.seal header cfg.params.cmdProfget data)
  | .profsetR header data => some (.seal header cfg.params.cmdProfset data)
  | .statusR header data => some (.seal header cfg.params.cmdStatus data)
  | .eventN0 header data => some (.seal header cfg.params.cmdEvent data)
  | .eventN1 header data => some (.seal header cfg.params.cmdEvent data)
  | .eventN2 header data => some (.seal header cfg.params.cmdEvent data)
  | _ => none

/-- The encoder: the record or link word of an instruction, written from 30_encoding.md R92 and R97; a record field the
operation does not read is zero or empty. -/
def encode (cfg : Config) : Instr → Input
  | .cksum bytes => .op ⟨0x01, 0, 0, 0, bytes, [], []⟩
  | .frameEnc a bytes => .op ⟨0x02, a, 0, 0, bytes, [], []⟩
  | .frameDec bytes => .op ⟨0x03, 0, 0, 0, bytes, [], []⟩
  | .encPowerQ => .op ⟨0x10, 0, 0, 0, [], [], []⟩
  | .encRestore => .op ⟨0x11, 0, 0, 0, [], [], []⟩
  | .encMemread a n => .op ⟨0x12, a, n, 0, [], [], []⟩
  | .encMemwrite a bytes => .op ⟨0x13, a, 0, 0, bytes, [], []⟩
  | .encProfget => .op ⟨0x14, 0, 0, 0, [], [], []⟩
  | .encProfset a => .op ⟨0x15, a, 0, 0, [], [], []⟩
  | .encEvtack0 => .op ⟨0x16, 0, 0, 0, [], [], []⟩
  | .encEvtack1 => .op ⟨0x17, 0, 0, 0, [], [], []⟩
  | .encEvtack2 => .op ⟨0x18, 0, 0, 0, [], [], []⟩
  | .classify bytes => .op ⟨0x20, 0, 0, 0, bytes, [], []⟩
  | .mapGet a => .op ⟨0x30, a, 0, 0, [], [], []⟩
  | .mapWrite pairs => .op ⟨0x31, 0, 0, 0, [], pairs, []⟩
  | .mapBulkRead => .op ⟨0x32, 0, 0, 0, [], [], []⟩
  | .dpiEnc v => .op ⟨0x40, 0, 0, v, [], [], []⟩
  | .dpiDec bytes => .op ⟨0x41, 0, 0, 0, bytes, [], []⟩
  | .colorEnc text => .op ⟨0x42, 0, 0, 0, [], [], text⟩
  | .colorDec bytes => .op ⟨0x43, 0, 0, 0, bytes, [], []⟩
  | .boolEnc v => .op ⟨0x44, 0, 0, v, [], [], []⟩
  | .boolDec bytes => .op ⟨0x45, 0, 0, 0, bytes, [], []⟩
  | .effectEnc v => .op ⟨0x46, 0, 0, v, [], [], []⟩
  | .effectDec bytes => .op ⟨0x47, 0, 0, 0, bytes, [], []⟩
  | .pollEnc v => .op ⟨0x48, 0, 0, v, [], [], []⟩
  | .pollDec bytes => .op ⟨0x49, 0, 0, 0, bytes, [], []⟩
  | .byteEnc v => .op ⟨0x4A, 0, 0, v, [], [], []⟩
  | .byteDec bytes => .op ⟨0x4B, 0, 0, 0, bytes, [], []⟩
  | .idxEnc v => .op ⟨0x4C, 0, 0, v, [], [], []⟩
  | .idxDec bytes => .op ⟨0x4D, 0, 0, 0, bytes, [], []⟩
  | .sleepEnc v => .op ⟨0x4E, 0, 0, v, [], [], []⟩
  | .sleepDec bytes => .op ⟨0x4F, 0, 0, 0, bytes, [], []⟩
  | .getPoll => .op ⟨0x50, 0, 0, 0, [], [], []⟩
  | .getDpiIdx => .op ⟨0x51, 0, 0, 0, [], [], []⟩
  | .getLodMm => .op ⟨0x52, 0, 0, 0, [], [], []⟩
  | .getLodRipple => .op ⟨0x53, 0, 0, 0, [], [], []⟩
  | .getDebounce => .op ⟨0x54, 0, 0, 0, [], [], []⟩
  | .getMotionSync => .op ⟨0x55, 0, 0, 0, [], [], []⟩
  | .getAngleSnap => .op ⟨0x56, 0, 0, 0, [], [], []⟩
  | .getLedEffect => .op ⟨0x57, 0, 0, 0, [], [], []⟩
  | .getLedBright => .op ⟨0x58, 0, 0, 0, [], [], []⟩
  | .getLedEnabled => .op ⟨0x59, 0, 0, 0, [], [], []⟩
  | .getBreatheSpeed => .op ⟨0x5A, 0, 0, 0, [], [], []⟩
  | .getAutosleep => .op ⟨0x5B, 0, 0, 0, [], [], []⟩
  | .getDpi a => .op ⟨0x5C, a, 0, 0, [], [], []⟩
  | .getColor a => .op ⟨0x5D, a, 0, 0, [], [], []⟩
  | .snapshot => .op ⟨0x5F, 0, 0, 0, [], [], []⟩
  | .setPoll v => .op ⟨0x60, 0, 0, v, [], [], []⟩
  | .setDpiIdx v => .op ⟨0x61, 0, 0, v, [], [], []⟩
  | .setLodMm v => .op ⟨0x62, 0, 0, v, [], [], []⟩
  | .setLodRipple v => .op ⟨0x63, 0, 0, v, [], [], []⟩
  | .setDebounce v => .op ⟨0x64, 0, 0, v, [], [], []⟩
  | .setMotionSync v => .op ⟨0x65, 0, 0, v, [], [], []⟩
  | .setAngleSnap v => .op ⟨0x66, 0, 0, v, [], [], []⟩
  | .setLedEffect v => .op ⟨0x67, 0, 0, v, [], [], []⟩
  | .setLedBright v => .op ⟨0x68, 0, 0, v, [], [], []⟩
  | .setLedEnabled v => .op ⟨0x69, 0, 0, v, [], [], []⟩
  | .setBreatheSpeed v => .op ⟨0x6A, 0, 0, v, [], [], []⟩
  | .setAutosleep v => .op ⟨0x6B, 0, 0, v, [], [], []⟩
  | .setDpi a v => .op ⟨0x6C, a, 0, v, [], [], []⟩
  | .setColor a text => .op ⟨0x6D, a, 0, 0, [], [], text⟩
  | .openSession => .op ⟨0x70, 0, 0, 0, [], [], []⟩
  | .closeSession => .op ⟨0x71, 0, 0, 0, [], [], []⟩
  | .restore => .op ⟨0x72, 0, 0, 0, [], [], []⟩
  | .getProfile => .op ⟨0x73, 0, 0, 0, [], [], []⟩
  | .setProfile a => .op ⟨0x74, a, 0, 0, [], [], []⟩
  | .powerQuery => .op ⟨0x75, 0, 0, 0, [], [], []⟩
  | .recv => .op ⟨0x76, 0, 0, 0, [], [], []⟩
  | .sendEvtack a => .op ⟨0x77, a, 0, 0, [], [], []⟩
  | .flush => .op ⟨0x78, 0, 0, 0, [], [], []⟩
  | .powerQ => .tx (powerQFrame cfg).toBytes
  | .restoreQ => .tx (restoreQFrame cfg).toBytes
  | .memreadQ a n => .tx (memreadQFrame cfg a n).toBytes
  | .memwriteQ a bytes => .tx (memwriteQFrame cfg a bytes).toBytes
  | .profgetQ => .tx (profgetQFrame cfg).toBytes
  | .profsetQ a => .tx (profsetQFrame cfg a).toBytes
  | .evtack0 => .tx (evtackFrame cfg 0).toBytes
  | .evtack1 => .tx (evtackFrame cfg 1).toBytes
  | .evtack2 => .tx (evtackFrame cfg 2).toBytes
  | .restoreR => .rx (restoreQFrame cfg).toBytes
  | .memwriteR header command data => .rx (Frame.seal header command data).toBytes
  | .powerR header data => .rx (Frame.seal header cfg.params.cmdPower data).toBytes
  | .memreadR header data => .rx (Frame.seal header cfg.params.cmdMemread data).toBytes
  | .profgetR header data => .rx (Frame.seal header cfg.params.cmdProfget data).toBytes
  | .profsetR header data => .rx (Frame.seal header cfg.params.cmdProfset data).toBytes
  | .statusR header data => .rx (Frame.seal header cfg.params.cmdStatus data).toBytes
  | .eventN0 header data => .rx (Frame.seal header cfg.params.cmdEvent data).toBytes
  | .eventN1 header data => .rx (Frame.seal header cfg.params.cmdEvent data).toBytes
  | .eventN2 header data => .rx (Frame.seal header cfg.params.cmdEvent data).toBytes

/-! ## The words of spec/opcode_table.json -/

/-- The bytes of a table word: bit 0 of w is the least significant bit of the first byte. -/
def tableBytes (nbits w : Nat) : List Byte := (List.range (nbits / 8)).map fun i => BitVec.ofNat 8 (w >>> (8 * i))

/-- The input a table word stands for: up to 8 bits are a host record's op byte, every other field zero or empty;
longer words are a frame, taken as a sent one where it has a request layout, else as a received one (log entry 9). -/
def tableInput (cfg : Config) (nbits w : Nat) : Input :=
  if nbits ≤ 8 then .op ⟨BitVec.ofNat 8 w, 0, 0, 0, [], [], []⟩
  else
    match decodeTx cfg (tableBytes nbits w) with
    | .ok _ => .tx (tableBytes nbits w)
    | .error _ => .rx (tableBytes nbits w)

/-- The instruction the decoder reads from a table word; a frame's command bytes are those of the installed
configuration. -/
def decodeTableWord (nbits w : Nat) : Option Instr :=
  match decode Config.installed (tableInput Config.installed nbits w) with
  | .ok i => some i
  | .error _ => none

end Sys2Proof
end

