-- ==== Sys2Proof/Machine/State.lean ====
section
/-! DEFINITION. The state of the block (10_state.md R20 to R40), its results and status codes, the two stops of a step,
and the state after reset (70_reset_and_hazards.md R380). -/

namespace Sys2Proof.Machine

/-- The session register `sess` (10_state.md R26). -/
inductive Session
  | disconnected | connected
  deriving DecidableEq, Repr

/-- The status of an operation: the fifteen codes of 60_exceptions.md R340. -/
inductive Status
  | ok | formatError | unsupportedDecode | decodeError | invalidValue | alignmentError | invalidEncoding
  | protocolViolation | notPopulated | timeout | noMatch | invalidRange | ioError | notConnected | illegalOp
  deriving DecidableEq, Repr

/-- The power status of a CMD_POWER frame (10_state.md R28, 41_payload.md R159). -/
structure PowerStatus where
  percent : Nat
  millivolts : Nat
  connected : Bool
  deriving DecidableEq, Repr

/-- The closed variant of the partial decoder (41_payload.md R159). -/
inductive Payload
  | powerEcho (p : PowerStatus)
  | restoreEcho
  | profileGetResp (profile : Byte)
  | profileSetEcho (profile : Byte)
  | event (kind : Fin 3)
  deriving DecidableEq, Repr

/-- A decoded frame: each case carries the validated frame itself (41_payload.md R159). -/
structure Decoded where
  frame : Frame
  payload : Payload
  deriving DecidableEq, Repr

/-- One DPI mode of the snapshot (44_session.md R304). -/
structure ModeSetting where
  dpi : Nat
  ledColor : List Ascii
  deriving DecidableEq, Repr

/-- The LED block of the snapshot; a field absent under its condition is none (44_session.md R305). -/
structure LedBlock where
  enabled : Bool
  effect : Option Effect
  brightness : Option Nat
  breatheSpeed : Option Nat
  deriving DecidableEq, Repr

/-- The settings snapshot (44_session.md R304). -/
structure Snapshot where
  profile : Byte
  dpiIdx : Nat
  modes : List ModeSetting
  poll : Nat
  led : LedBlock
  lodMm : Nat
  lodRipple : Bool
  motionSync : Bool
  angleSnap : Bool
  autosleep : Nat
  debounce : Nat
  power : PowerStatus
  deriving DecidableEq, Repr

/-- The operation-specific value of a result (10_state.md R36); with an error, the offending item the rule names
(60_exceptions.md R341; log entry 14). -/
inductive Value
  | none
  | byte (b : Byte)
  | bytes (bs : List Byte)
  | nat (n : Nat)
  | bool (b : Bool)
  | effect (e : Effect)
  | text (t : List Ascii)
  | frame (f : Frame)
  | variant (d : Decoded)
  | received (f : Frame) (d : Decoded)
  | power (p : PowerStatus)
  | snapshot (r : Snapshot)
  /-- Two offending numbers, as in InvalidRange(a, n) and ProtocolViolation(n, f[PROFILE_POS]). -/
  | pair (x y : Nat)
  /-- A number and the frame that disagrees with it, as in ProtocolViolation(st, f). -/
  | numberedFrame (n : Nat) (f : Frame)
  deriving DecidableEq, Repr

/-- The result record of the host port (10_state.md R36). -/
structure Result where
  status : Status
  value : Value
  deriving DecidableEq, Repr

/-- An error on its way to the host port: `raise E(info)` (00_scope.md R9). -/
structure Raise where
  status : Status
  value : Value
  deriving DecidableEq, Repr

/-- The transport's draws still to come, each kind in its order, and how many were taken from Config's free values once
a list had ended (10_state.md R34, R35; log entry 2). -/
structure Env where
  opens : List LinkResult
  sends : List LinkResult
  recvs : List RecvDraw
  drawn : Nat
  deriving DecidableEq, Repr

/-- The populated cells of the cache: (address, byte), addresses strictly rising. A cell with `valid` = 0 is not listed
and has no value (10_state.md R21, R22). -/
abbrev Memory := List Host.Cell

/-- The state of the block. `inputs`, `env` and `cfg` are the model's own fields (log entries 8, 2, 1). -/
structure State where
  /-- `cache` and `valid` (R21). -/
  cache : Memory
  /-- The session register (R26). -/
  sess : Session
  /-- The profile register (R27). -/
  profile : Option Byte
  /-- The RX queue, oldest first (R34). -/
  rxq : List (List Byte)
  /-- The frames sent, oldest first (R35). -/
  tx : List Frame
  /-- The window index k of the running operation (R38). -/
  seqK : Nat
  /-- The discard counter d of the running operation (R38). -/
  seqD : Nat
  /-- The result port (R36). -/
  result : Option Result
  /-- The operation port and the link: what is to be done next, first at the head. -/
  inputs : List Input
  /-- The transport's draws. -/
  env : Env
  /-- The configuration the block is built with (00_scope.md R5). -/
  cfg : Config
  deriving DecidableEq, Repr

/-- Why a step stops with a fault. -/
inductive Fault
  /-- Raised by `step` for a record with more than 255 bytes: the host port carries none such (10_state.md R36,
  30_encoding.md R98). No instruction raises it. Safe (log entry 17). -/
  | recordOutsidePort
  deriving DecidableEq, Repr

/-- Why a step is refused. -/
inductive Refusal
  /-- Raised by `exec` for an instruction without a meaning; no arm does. Safe. -/
  | notModelled (mnemonic : String)
  /-- Raised by `step` for a sent string with no request layout: the block builds none such (30_encoding.md R90,
  R92). No instruction raises it. Safe (log entry 17). -/
  | notRequestFrame
  deriving DecidableEq, Repr

/-- The block right after power-on (70_reset_and_hazards.md R380, 10_state.md R40). The configuration is any well-formed
one (log entry 1); nothing waits at the port and no draw is given (log entries 2, 8, 12). -/
def State.reset : State where
  cache := []
  sess := .disconnected
  profile := none
  rxq := []
  tx := []
  seqK := 0
  seqD := 0
  result := none
  inputs := []
  env := ⟨[], [], [], 0⟩
  cfg := Config.installed

end Sys2Proof.Machine
end

