-- ==== Sys2Proof/Machine/Ops.lean ====
section
/-! DEFINITION. The named operations every meaning is built from: the cells of the cache, the steps of the pseudocode
(00_scope.md R9), taking an exception (60_exceptions.md R342), the transport, and the sequencer primitives of
44_session.md. -/

namespace Sys2Proof.Machine

/-! ## The register-map cache -/

/-- The byte of cell a, or none where `valid[a]` = 0 (10_state.md R22). -/
def Memory.read : Memory → Nat → Option Byte
  | [], _ => none
  | (b, v) :: m, a => if a = b then some v else Memory.read m a

/-- `cache[a] <- v; valid[a] <- 1`, the addresses kept strictly rising (00_scope.md R9). -/
def Memory.write : Memory → Nat → Byte → Memory
  | [], a, v => [(a, v)]
  | (b, w) :: m, a, v =>
    if a < b then (a, v) :: (b, w) :: m
    else if a = b then (a, v) :: m
    else (b, w) :: Memory.write m a v

/-- Write consecutive cells from a, in ascending address order. -/
def Memory.writeRun : Memory → Nat → List Byte → Memory
  | m, _, [] => m
  | m, a, v :: vs => Memory.writeRun (Memory.write m a v) (a + 1) vs

/-- The canonical form: addresses strictly rising, none past 255 (20_memory.md R60). -/
def Memory.wf : Memory → Bool
  | [] => true
  | [(a, _)] => a < Config.mapSize
  | (a, _) :: (b, w) :: m => a < b && Memory.wf ((b, w) :: m)

/-! ## Steps of the pseudocode -/

/-- How a step of an operation ends: with a value, or with an error that ends the operation; either way with the state
as written so far (00_scope.md R9). -/
inductive Out (α : Type)
  | done (a : α) (s : State)
  | raised (e : Raise) (s : State)

/-- A step of an operation's pseudocode. -/
abbrev Op (α : Type) : Type := State → Out α

/-- Go on with a value. -/
def Op.pure {α : Type} (a : α) : Op α := fun s => .done a s

/-- One step, then the next, unless the first raised (60_exceptions.md R342, R344). -/
def Op.bind {α β : Type} (m : Op α) (f : α → Op β) : Op β := fun s =>
  match m s with
  | .done a s' => f a s'
  | .raised e s' => .raised e s'

/-- `raise E(info)` (00_scope.md R9). -/
def Op.raise {α : Type} (status : Status) (value : Value) : Op α := fun s => .raised ⟨status, value⟩ s

/-- A check or a computation that touches no state. -/
def Op.lift {α : Type} : Except Raise α → Op α
  | .ok a => Op.pure a
  | .error e => fun s => .raised e s

/-- Read the state. -/
def Op.read {α : Type} (f : State → α) : Op α := fun s => .done (f s) s

/-- Write the state. -/
def Op.update (f : State → State) : Op Unit := fun s => .done () (f s)

/-! ## The operation's start, its end and its exception -/

/-- The counters k and d start every operation at 0 (10_state.md R38). -/
def beginOperation (s : State) : State := { s with seqK := 0, seqD := 0 }

/-- TAKING AN EXCEPTION (60_exceptions.md R342): the operation has stopped at the step that raised; its status and value
go to the host port, and every state write made before stays. There is no handler, cause register or saved pc (R343).
The counters, which the host cannot see, are put back to 0 (log entry 13). -/
def takeException (e : Raise) (s : State) : State :=
  { s with result := some ⟨e.status, e.value⟩, seqK := 0, seqD := 0 }

/-- `return v` (00_scope.md R9): status OK and the value go to the host port. It is also how the block comes back from
an exception: there is no return instruction, and the next operation runs as after OK (60_exceptions.md R343). -/
def returnOk (v : Value) (s : State) : State :=
  { s with result := some ⟨.ok, v⟩, seqK := 0, seqD := 0 }

/-- Run one host operation from its start to its one status (00_scope.md R10, 60_exceptions.md R340). -/
def runOperation (op : Op Value) (s : State) : State :=
  match op (beginOperation s) with
  | .done v s' => returnOk v s'
  | .raised e s' => takeException e s'

/-- An operation without a result value. -/
def noValue (op : Op Unit) : Op Value := op.bind fun _ => Op.pure .none

/-! ## The device and the transport -/

/-- The device appends strings to the RX queue (10_state.md R33, R34). -/
def deviceAppends (strings : List (List Byte)) (s : State) : State := { s with rxq := s.rxq ++ strings }

/-- The transport's next answer to an open: the next draw, or a free value where none is given (log entry 2). -/
def Env.nextOpen (e : Env) : LinkResult × Env :=
  match e.opens with
  | r :: rs => (r, { e with opens := rs })
  | [] => (Config.freeOpen e.drawn, { e with drawn := e.drawn + 1 })

/-- The transport's next answer to a write: the next draw, or a free value where none is given (log entry 2). -/
def Env.nextSend (e : Env) : LinkResult × Env :=
  match e.sends with
  | r :: rs => (r, { e with sends := rs })
  | [] => (Config.freeSend e.drawn, { e with drawn := e.drawn + 1 })

/-- The next draw of a receive, or a free value where none is given (log entry 2). -/
def Env.nextRecv (e : Env) : RecvDraw × Env :=
  match e.recvs with
  | r :: rs => (r, { e with recvs := rs })
  | [] => (Config.freeRecv e.drawn, { e with drawn := e.drawn + 1 })

/-- What `Recv()` returns (10_state.md R34). -/
inductive RecvResult
  | string (s : List Byte)
  | timeout
  | ioError
  deriving DecidableEq, Repr

/-- A receive under a draw: the device's arrivals, then the head of the queue, a timeout or an I/O error. A delivery
from a queue that is still empty is the end of a wait without a string, a timeout (10_state.md R34, log entry 4). -/
def recvWith (d : RecvDraw) (s : State) : RecvResult × State :=
  let s := deviceAppends d.arrivals s
  match d.outcome with
  | .timeout => (.timeout, s)
  | .ioError => (.ioError, s)
  | .deliver =>
    match s.rxq with
    | [] => (.timeout, s)
    | x :: xs => (.string x, { s with rxq := xs })

/-- `Recv()` (00_scope.md R9, 10_state.md R34). -/
def recvStep : Op RecvResult := fun s =>
  let r := recvWith s.env.nextRecv.1 { s with env := s.env.nextRecv.2 }
  .done r.1 r.2

/-- `Send(f)` (00_scope.md R9, 10_state.md R35): the frame joins the `tx` history whatever the transport answers
(20_memory.md R72; log entry 5). -/
def sendStep (f : Frame) : Op LinkResult := fun s =>
  .done s.env.nextSend.1 { s with env := s.env.nextSend.2, tx := s.tx ++ [f] }

/-- `Flush()` (00_scope.md R9, 20_memory.md R77). -/
def flushStep : Op Unit := Op.update fun s => { s with rxq := [] }

/-- `transport.open(...)` (44_session.md R300; log entry 19). -/
def openStep : Op LinkResult := fun s => .done s.env.nextOpen.1 { s with env := s.env.nextOpen.2 }

/-- `ClearCache()` (42_register_map.md R194). -/
def clearCache : Op Unit := Op.update fun s => { s with cache := [] }

/-! ## Sequencer primitives (44_session.md) -/

/-- Every operation that uses the transport needs a session (44_session.md R295). -/
def requireConnected : Op Unit :=
  (Op.read State.sess).bind fun sess =>
    if sess = .connected then Op.pure () else Op.raise .notConnected .none

/-- Send, raising IOError where the transport answers it (44_session.md R290, R303). -/
def sendOrRaise (q : Frame) : Op Unit :=
  (sendStep q).bind fun r =>
    if r = .ioError then Op.raise .ioError .none else Op.pure ()

/-- `Request(q)`: flush, then send (44_session.md R290). -/
def request (q : Frame) : Op Unit := flushStep.bind fun _ => sendOrRaise q

/-- FRAME_DEC (40_frame_codec.md R133). -/
def frameDec (s : List Byte) : Except Raise Frame :=
  match Frame.parse s with
  | .ok f => .ok f
  | .error (.length n) => .error ⟨.formatError, .nat n⟩
  | .error (.checksum b) => .error ⟨.formatError, .byte b⟩

/-- `AwaitAny()`: one valid frame, unfiltered (44_session.md R291). -/
def awaitAny : Op Frame :=
  recvStep.bind fun r =>
    match r with
    | .timeout => Op.raise .timeout .none
    | .ioError => Op.raise .ioError .none
    | .string s => Op.lift (frameDec s)

/-- The filter loop of `AwaitCmd(c)`, at most `fuel` receives (44_session.md R292). -/
def awaitLoop (cfg : Config) (c : Byte) : Nat → Op Frame
  | 0 => Op.raise .noMatch (.byte c)
  | fuel + 1 =>
    awaitAny.bind fun f =>
      if f.command = c then Op.pure f
      else
        (Op.update fun s => { s with seqD := s.seqD + 1 }).bind fun _ =>
        (Op.read State.seqD).bind fun d =>
          if d > cfg.params.maxDiscard then Op.raise .noMatch (.byte c) else awaitLoop cfg c fuel

/-- `AwaitCmd(c)`: the first valid frame with command c, at most MAX_DISCARD others discarded; so at most
MAX_DISCARD + 1 receives (44_session.md R292). -/
def awaitCmd (cfg : Config) (c : Byte) : Op Frame :=
  (Op.update fun s => { s with seqD := 0 }).bind fun _ => awaitLoop cfg c (cfg.params.maxDiscard + 1)

/-! ## Inputs that are no instruction -/

/-- What a step does with an input the decoder rejects: an op byte outside the table raises IllegalOp and changes no
other state (30_encoding.md R100); a string that is no frame only enters the RX queue (10_state.md R33); the other two
cannot exist (log entry 17). -/
def rejectInput (r : Reject) (i : Input) (s : State) : Host.Outcome State Fault Refusal :=
  match r with
  | .illegalOp op => .next (runOperation (Op.raise .illegalOp (.byte op)) s)
  | .recordTooLong _ => .fault .recordOutsidePort
  | .notRequest => .refused .notRequestFrame
  | .notFrame _ =>
    match i with
    | .rx bytes => .next (deviceAppends [bytes] s)
    | .tx _ => .refused .notRequestFrame
    | .op _ => .fault .recordOutsidePort

/-- Take the next input from the port; an idle block has none (log entry 8). -/
def fetchInput (s : State) : Option (Input × State) :=
  match s.inputs with
  | [] => none
  | i :: rest => some (i, { s with inputs := rest })

end Sys2Proof.Machine
end

