-- ==== Sys2Proof/Machine/Operands.lean ====
section
/-! DEFINITION. The operand forms: argument checks and assembly of requests (30_encoding.md R95, R98), extraction from
received frames (R96), and the payload registry's decoder (41_payload.md R160). -/

namespace Sys2Proof.Machine

/-! ## Host arguments -/

/-- The bytes of CKSUM, at most 16 (40_frame_codec.md R131). -/
def cksumArg (bytes : List Byte) : Except Raise (List Byte) :=
  if bytes.length > 16 then .error ⟨.invalidValue, .nat bytes.length⟩ else .ok bytes

/-- FRAME_ENC: at most 14 data bytes, zero-filled (40_frame_codec.md R132). -/
def frameEnc (cfg : Config) (command : Byte) (data : List Byte) : Except Raise Frame :=
  if data.length > Config.dataLen then .error ⟨.invalidValue, .nat data.length⟩
  else .ok (.encode cfg command (.pad data))

/-- The mode argument m = a, 0..3 (42_register_map.md R202). -/
def modeArg (a : Byte) : Except Raise (Fin 4) :=
  if h : a.toNat < 4 then .ok ⟨a.toNat, h⟩ else .error ⟨.invalidValue, .nat a.toNat⟩

/-- The event kind argument k = a, 0..2 (44_session.md R303). -/
def kindArg (a : Byte) : Except Raise (Fin 3) :=
  if h : a.toNat < 3 then .ok ⟨a.toNat, h⟩ else .error ⟨.invalidValue, .nat a.toNat⟩

/-- A memory request's range: 1..10 cells, none past 255 (41_payload.md R152, D49). -/
def rangeArg (a : Byte) (n : Nat) : Except Raise Unit :=
  if n < 1 ∨ n > Config.maxWrite ∨ a.toNat + n - 1 > 255 then .error ⟨.invalidRange, .pair a.toNat n⟩ else .ok ()

/-- ENC_MEMREAD (41_payload.md R152). -/
def encMemread (cfg : Config) (a n : Byte) : Except Raise Frame :=
  match rangeArg a n.toNat with
  | .error e => .error e
  | .ok () => .ok (memreadQFrame cfg a n)

/-- ENC_MEMWRITE (41_payload.md R153). -/
def encMemwrite (cfg : Config) (a : Byte) (vals : List Byte) : Except Raise Frame :=
  match rangeArg a vals.length with
  | .error e => .error e
  | .ok () => .ok (memwriteQFrame cfg a vals)

/-- The addresses of a write's pairs. -/
def pairAddrs (pairs : List (Byte × Byte)) : List Nat := pairs.map fun p => p.1.toNat

/-- The least address of a non-empty list of pairs. -/
def minAddr (pairs : List (Byte × Byte)) : Nat := (pairAddrs pairs).foldl min 255

/-- The byte paired with each of the addresses lo .. lo + n - 1, ascending (42_register_map.md R191). -/
def pairVals (pairs : List (Byte × Byte)) (lo n : Nat) : List Byte :=
  (List.range n).map fun i => (pairs.lookup (BitVec.ofNat 8 (lo + i))).getD 0

/-- The addresses are exactly lo, lo + 1, ..., lo + n - 1, as sets (42_register_map.md R191). -/
def contiguousFrom (lo : Nat) (addrs : List Nat) : Bool :=
  addrs.all (fun a => lo ≤ a && a < lo + addrs.length) &&
  (List.range addrs.length).all fun i => addrs.contains (lo + i)

/-- The pairs of MAP_WRITE: 1..10, no address repeated, contiguous from their minimum; answers that minimum and the
values in ascending address order (42_register_map.md R191, D50). -/
def pairsArg (pairs : List (Byte × Byte)) : Except Raise (Nat × List Byte) :=
  let addrs := pairAddrs pairs
  let lo := minAddr pairs
  if addrs.length < 1 ∨ addrs.length > Config.maxWrite then .error ⟨.invalidRange, .nat addrs.length⟩
  else if ¬ addrs.Nodup then .error ⟨.invalidRange, .bytes (pairs.map Prod.fst)⟩
  else if ¬ contiguousFrom lo addrs then .error ⟨.invalidRange, .bytes (pairs.map Prod.fst)⟩
  else .ok (lo, pairVals pairs lo addrs.length)

/-! ## Received frames -/

/-- BOOL_DEC of one raw byte (43_value_codecs.md R255). -/
def boolOfByte (b : Byte) : Except Raise Bool :=
  if b = 0 then .ok false else if b = 1 then .ok true else .error ⟨.invalidEncoding, .byte b⟩

/-- The big-endian 16-bit number at a frame position (20_memory.md R65). -/
def Frame.wordAt (f : Frame) (pos : Nat) : Nat := (f.byteAt pos).toNat * 256 + (f.byteAt (pos + 1)).toNat

/-- DecPower: percent unchecked, millivolts big-endian, flag a boolean byte (41_payload.md R161). -/
def decPower (cfg : Config) (f : Frame) : Except Raise PowerStatus :=
  match boolOfByte (f.byteAt cfg.params.powerFlagPos) with
  | .error e => .error e
  | .ok flag =>
    .ok ⟨(f.byteAt cfg.params.powerPctPos).toNat, Frame.wordAt f cfg.params.powerMvPos, flag⟩

/-- DecEvent: the selector at position 6 picks the kind (41_payload.md R165). -/
def decEvent (cfg : Config) (f : Frame) : Except Raise (Fin 3) :=
  let sel := f.byteAt Config.evtSelPos
  if sel = cfg.params.evtSel 0 then .ok 0
  else if sel = cfg.params.evtSel 1 then .ok 1
  else if sel = cfg.params.evtSel 2 then .ok 2
  else .error ⟨.decodeError, .byte sel⟩

/-- The classification of a valid frame by its command byte (41_payload.md R160 to R167). -/
def classifyFrame (cfg : Config) (f : Frame) : Except Raise Decoded :=
  let p := cfg.params
  if f.command = p.cmdPower then
    match decPower cfg f with
    | .ok ps => .ok ⟨f, .powerEcho ps⟩
    | .error e => .error e
  else if f.command = p.cmdRestore then .ok ⟨f, .restoreEcho⟩
  else if f.command = p.cmdProfget then .ok ⟨f, .profileGetResp (f.byteAt p.profilePos)⟩
  else if f.command = p.cmdProfset then .ok ⟨f, .profileSetEcho (f.byteAt p.profilePos)⟩
  else if f.command = p.cmdEvent then
    match decEvent cfg f with
    | .ok k => .ok ⟨f, .event k⟩
    | .error e => .error e
  else if f.command = p.cmdMemread ∨ f.command = p.cmdMemwrite then .error ⟨.unsupportedDecode, .frame f⟩
  else .error ⟨.unsupportedDecode, .frame f⟩

/-- CLASSIFY: validate, then classify (41_payload.md R160). -/
def classify (cfg : Config) (s : List Byte) : Except Raise Decoded :=
  match frameDec s with
  | .ok f => classifyFrame cfg f
  | .error e => .error e

/-- The ten data bytes of a memory-read reply (30_encoding.md R92). -/
def windowBytes (f : Frame) : List Byte := (f.toBytes.drop Config.memDataPos).take Config.window

end Sys2Proof.Machine
end

