-- ==== Sys2Proof/Machine/ValueCodecs.lean ====
section
/-! DEFINITION. The value codecs and their multiplexer (43_value_codecs.md), and the meanings of the 16 codec operations.
They touch no state but the result port. -/

namespace Sys2Proof.Machine

/-! ## DPI packing -/

/-- DPI_ENC: range first, then alignment; the 50-unit count less one, its low byte twice and its high part in both
nibbles of the third byte (43_value_codecs.md R250, 90_conflicts.md C2). -/
def dpiEnc (v : Word32) : Except Raise (List Byte) :=
  let d := v.toNat
  if d < Config.dpiMin ∨ d > Config.dpiMax then .error ⟨.invalidValue, .nat d⟩
  else if d % Config.dpiStep ≠ 0 then .error ⟨.alignmentError, .nat d⟩
  else
    let hi : Byte := BitVec.ofNat 8 ((d / Config.dpiStep - 1) / 256)
    let lo : Byte := BitVec.ofNat 8 ((d / Config.dpiStep - 1) % 256)
    .ok [lo, lo, (hi <<< 2) ||| (hi <<< 6)]

/-- The high nibble of a byte. -/
def highNibble (b : Byte) : Nat := b.toNat / 16

/-- The low nibble of a byte. -/
def lowNibble (b : Byte) : Nat := b.toNat % 16

/-- DPI_DEC: equal first bytes, equal nibbles, their low two bits zero; the result is not range-checked
(43_value_codecs.md R251, D25). -/
def dpiDec : List Byte → Except Raise Nat
  | [b0, b1, b2] =>
    if b0 ≠ b1 then .error ⟨.invalidEncoding, .bytes [b0, b1, b2]⟩
    else if highNibble b2 ≠ lowNibble b2 then .error ⟨.invalidEncoding, .byte b2⟩
    else if lowNibble b2 % 4 ≠ 0 then .error ⟨.invalidEncoding, .byte b2⟩
    else .ok ((b1.toNat + 1) * 50 + lowNibble b2 / 4 * 12800)
  | bs => .error ⟨.invalidEncoding, .bytes bs⟩

/-! ## Colour -/

/-- The value of a hexadecimal digit, upper or lower case (43_value_codecs.md R252). -/
def hexVal (c : Ascii) : Option Nat :=
  let n := c.toNat
  if 0x30 ≤ n ∧ n ≤ 0x39 then some (n - 0x30)
  else if 0x61 ≤ n ∧ n ≤ 0x66 then some (n - 0x61 + 10)
  else if 0x41 ≤ n ∧ n ≤ 0x46 then some (n - 0x41 + 10)
  else none

/-- The lower-case hexadecimal digit of a number 0..15 (43_value_codecs.md R253). -/
def hexDigit (n : Nat) : Ascii := if n < 10 then BitVec.ofNat 7 (0x30 + n) else BitVec.ofNat 7 (0x61 + (n - 10))

/-- `#`. -/
def hashSign : Ascii := 0x23

/-- The text without its first character where that is `#` (43_value_codecs.md R252, D26). -/
def dropHash : List Ascii → List Ascii
  | c :: t => if c = hashSign then t else c :: t
  | [] => []

/-- COLOR_ENC: six hexadecimal digits after an optional `#` (43_value_codecs.md R252). -/
def colorEnc (text : List Ascii) : Except Raise (List Byte) :=
  match (dropHash text).mapM hexVal with
  | some [r1, r0, g1, g0, b1, b0] =>
    .ok [BitVec.ofNat 8 (16 * r1 + r0), BitVec.ofNat 8 (16 * g1 + g0), BitVec.ofNat 8 (16 * b1 + b0)]
  | _ => .error ⟨.invalidValue, .text text⟩

/-- Two lower-case hexadecimal digits (43_value_codecs.md R253). -/
def hex2 (b : Byte) : List Ascii := [hexDigit (highNibble b), hexDigit (lowNibble b)]

/-- COLOR_DEC: `#` and six lower-case digits (43_value_codecs.md R253). -/
def colorDec : List Byte → Except Raise (List Ascii)
  | [r, g, b] => .ok (hashSign :: (hex2 r ++ hex2 g ++ hex2 b))
  | bs => .error ⟨.invalidEncoding, .bytes bs⟩

/-! ## One-byte codings -/

/-- The single byte of a one-byte decoder; any other length raises InvalidEncoding (43_value_codecs.md, D50). -/
def oneByte : List Byte → Except Raise Byte
  | [b] => .ok b
  | bs => .error ⟨.invalidEncoding, .bytes bs⟩

/-- BOOL_ENC (43_value_codecs.md R254). -/
def boolEnc (v : Word32) : Except Raise Byte :=
  if v.toNat > 1 then .error ⟨.invalidValue, .nat v.toNat⟩ else .ok (BitVec.ofNat 8 v.toNat)

/-- BOOL_DEC (43_value_codecs.md R255). -/
def boolDec (bs : List Byte) : Except Raise Bool :=
  match oneByte bs with
  | .ok b => boolOfByte b
  | .error e => .error e

/-- The effect of a host index: 0 off, 1 steady, 2 breathe (D2). -/
def effectOfIndex : Nat → Option Effect
  | 0 => some .off
  | 1 => some .steady
  | 2 => some .breathe
  | _ => none

/-- EFFECT_ENC (43_value_codecs.md R256). -/
def effectEnc (cfg : Config) (v : Word32) : Except Raise Byte :=
  match effectOfIndex v.toNat with
  | some e => .ok (cfg.params.effectCode e)
  | none => .error ⟨.invalidValue, .nat v.toNat⟩

/-- EFFECT_DEC (43_value_codecs.md R257). -/
def effectDec (cfg : Config) (bs : List Byte) : Except Raise Effect :=
  match oneByte bs with
  | .error e => .error e
  | .ok b =>
    if b = cfg.params.effectCode .off then .ok .off
    else if b = cfg.params.effectCode .steady then .ok .steady
    else if b = cfg.params.effectCode .breathe then .ok .breathe
    else .error ⟨.invalidEncoding, .byte b⟩

/-- A polling rate in Hz. -/
def pollHz : PollRate → Nat
  | .hz125 => 125
  | .hz250 => 250
  | .hz500 => 500
  | .hz1000 => 1000

/-- The polling rate of a number of Hz (43_value_codecs.md R258). -/
def pollOfHz (n : Nat) : Option PollRate :=
  if n = 125 then some .hz125
  else if n = 250 then some .hz250
  else if n = 500 then some .hz500
  else if n = 1000 then some .hz1000
  else none

/-- POLL_ENC (43_value_codecs.md R258). -/
def pollEnc (cfg : Config) (v : Word32) : Except Raise Byte :=
  match pollOfHz v.toNat with
  | some r => .ok (cfg.params.pollCode r)
  | none => .error ⟨.invalidValue, .nat v.toNat⟩

/-- POLL_DEC (43_value_codecs.md R259). -/
def pollDec (cfg : Config) (bs : List Byte) : Except Raise Nat :=
  match oneByte bs with
  | .error e => .error e
  | .ok b =>
    if b = cfg.params.pollCode .hz125 then .ok 125
    else if b = cfg.params.pollCode .hz250 then .ok 250
    else if b = cfg.params.pollCode .hz500 then .ok 500
    else if b = cfg.params.pollCode .hz1000 then .ok 1000
    else .error ⟨.invalidEncoding, .byte b⟩

/-- BYTE_ENC (43_value_codecs.md R260). -/
def byteEnc (v : Word32) : Except Raise Byte :=
  if v.toNat > 255 then .error ⟨.invalidValue, .nat v.toNat⟩ else .ok (BitVec.ofNat 8 v.toNat)

/-- BYTE_DEC (43_value_codecs.md R261). -/
def byteDec (bs : List Byte) : Except Raise Nat :=
  match oneByte bs with
  | .ok b => .ok b.toNat
  | .error e => .error e

/-- IDX_ENC (43_value_codecs.md R262). -/
def idxEnc (v : Word32) : Except Raise Byte :=
  if v.toNat > 3 then .error ⟨.invalidValue, .nat v.toNat⟩ else .ok (BitVec.ofNat 8 v.toNat)

/-- IDX_DEC (43_value_codecs.md R263). -/
def idxDec (bs : List Byte) : Except Raise Nat :=
  match oneByte bs with
  | .error e => .error e
  | .ok b => if b.toNat > 3 then .error ⟨.invalidEncoding, .byte b⟩ else .ok b.toNat

/-- SLEEP_ENC: one stored unit is 10 seconds (43_value_codecs.md R264). -/
def sleepEnc (v : Word32) : Except Raise Byte :=
  if v.toNat % 10 ≠ 0 ∨ v.toNat > 2550 then .error ⟨.invalidValue, .nat v.toNat⟩
  else .ok (BitVec.ofNat 8 (v.toNat / 10))

/-- SLEEP_DEC (43_value_codecs.md R265). -/
def sleepDec (bs : List Byte) : Except Raise Nat :=
  match oneByte bs with
  | .ok b => .ok (b.toNat * 10)
  | .error e => .error e

/-! ## The multiplexer -/

/-- A result under a constructor of `Value`. -/
def mapOk {α β : Type} (f : α → β) : Except Raise α → Except Raise β
  | .ok a => .ok (f a)
  | .error e => .error e

/-- The codecs the multiplexer chooses among (43_value_codecs.md R266). -/
inductive Codec
  | poll | idx | byte | bool | effect | sleep | dpi | color
  deriving DecidableEq, Repr

/-- The codec of a setting field, by the field alone (43_value_codecs.md R266). -/
def codecOf : SettingField → Codec
  | .poll => .poll
  | .dpiIdx => .idx
  | .lodMm => .byte
  | .lodRipple => .bool
  | .debounce => .byte
  | .motionSync => .bool
  | .angleSnap => .bool
  | .ledEffect => .effect
  | .ledBright => .byte
  | .ledEnabled => .bool
  | .breatheSpeed => .byte
  | .autosleep => .sleep
  | .dpi _ => .dpi
  | .color _ => .color

/-- The raw bytes of a typed value: each codec takes the host field its rule names, `v` or `text`. -/
def codecEnc (cfg : Config) (c : Codec) (v : Word32) (text : List Ascii) : Except Raise (List Byte) :=
  match c with
  | .poll => mapOk (fun b => [b]) (pollEnc cfg v)
  | .idx => mapOk (fun b => [b]) (idxEnc v)
  | .byte => mapOk (fun b => [b]) (byteEnc v)
  | .bool => mapOk (fun b => [b]) (boolEnc v)
  | .effect => mapOk (fun b => [b]) (effectEnc cfg v)
  | .sleep => mapOk (fun b => [b]) (sleepEnc v)
  | .dpi => dpiEnc v
  | .color => colorEnc text

/-- The typed value of raw bytes. -/
def codecDec (cfg : Config) (c : Codec) (raw : List Byte) : Except Raise Value :=
  match c with
  | .poll => mapOk .nat (pollDec cfg raw)
  | .idx => mapOk .nat (idxDec raw)
  | .byte => mapOk .nat (byteDec raw)
  | .bool => mapOk .bool (boolDec raw)
  | .effect => mapOk .effect (effectDec cfg raw)
  | .sleep => mapOk .nat (sleepDec raw)
  | .dpi => mapOk .nat (dpiDec raw)
  | .color => mapOk .text (colorDec raw)

/-! ## Meanings -/

/-- An operation that computes a value and touches no state but the result port (43_value_codecs.md). -/
def pureOperation (r : Except Raise Value) (s : State) : Host.Outcome State Fault Refusal :=
  .next (runOperation (Op.lift r) s)

/-- DPI_ENC (R250). -/
def execDpiEnc (v : Word32) (s : State) : Host.Outcome State Fault Refusal := pureOperation (mapOk .bytes (dpiEnc v)) s

/-- DPI_DEC (R251). -/
def execDpiDec (bytes : List Byte) (s : State) : Host.Outcome State Fault Refusal :=
  pureOperation (mapOk .nat (dpiDec bytes)) s

/-- COLOR_ENC (R252). -/
def execColorEnc (text : List Ascii) (s : State) : Host.Outcome State Fault Refusal :=
  pureOperation (mapOk .bytes (colorEnc text)) s

/-- COLOR_DEC (R253). -/
def execColorDec (bytes : List Byte) (s : State) : Host.Outcome State Fault Refusal :=
  pureOperation (mapOk .text (colorDec bytes)) s

/-- BOOL_ENC (R254). -/
def execBoolEnc (v : Word32) (s : State) : Host.Outcome State Fault Refusal := pureOperation (mapOk .byte (boolEnc v)) s

/-- BOOL_DEC (R255). -/
def execBoolDec (bytes : List Byte) (s : State) : Host.Outcome State Fault Refusal :=
  pureOperation (mapOk .bool (boolDec bytes)) s

/-- EFFECT_ENC (R256). -/
def execEffectEnc (v : Word32) (s : State) : Host.Outcome State Fault Refusal :=
  pureOperation (mapOk .byte (effectEnc s.cfg v)) s

/-- EFFECT_DEC (R257). -/
def execEffectDec (bytes : List Byte) (s : State) : Host.Outcome State Fault Refusal :=
  pureOperation (mapOk .effect (effectDec s.cfg bytes)) s

/-- POLL_ENC (R258). -/
def execPollEnc (v : Word32) (s : State) : Host.Outcome State Fault Refusal :=
  pureOperation (mapOk .byte (pollEnc s.cfg v)) s

/-- POLL_DEC (R259). -/
def execPollDec (bytes : List Byte) (s : State) : Host.Outcome State Fault Refusal :=
  pureOperation (mapOk .nat (pollDec s.cfg bytes)) s

/-- BYTE_ENC (R260). -/
def execByteEnc (v : Word32) (s : State) : Host.Outcome State Fault Refusal := pureOperation (mapOk .byte (byteEnc v)) s

/-- BYTE_DEC (R261). -/
def execByteDec (bytes : List Byte) (s : State) : Host.Outcome State Fault Refusal :=
  pureOperation (mapOk .nat (byteDec bytes)) s

/-- IDX_ENC (R262). -/
def execIdxEnc (v : Word32) (s : State) : Host.Outcome State Fault Refusal := pureOperation (mapOk .byte (idxEnc v)) s

/-- IDX_DEC (R263). -/
def execIdxDec (bytes : List Byte) (s : State) : Host.Outcome State Fault Refusal :=
  pureOperation (mapOk .nat (idxDec bytes)) s

/-- SLEEP_ENC (R264). -/
def execSleepEnc (v : Word32) (s : State) : Host.Outcome State Fault Refusal := pureOperation (mapOk .byte (sleepEnc v)) s

/-- SLEEP_DEC (R265). -/
def execSleepDec (bytes : List Byte) (s : State) : Host.Outcome State Fault Refusal :=
  pureOperation (mapOk .nat (sleepDec bytes)) s

end Sys2Proof.Machine
end

