-- ==== Sys2Proof/Machine/FrameCodec.lean ====
section
/-! DEFINITION. The meanings of the frame codec's operations (40_frame_codec.md) and of the payload registry's
(41_payload.md). They read only the configuration and touch no state but the result port. -/

namespace Sys2Proof.Machine

/-- CKSUM (40_frame_codec.md R131). -/
def execCksum (bytes : List Byte) (s : State) : Host.Outcome State Fault Refusal :=
  pureOperation (mapOk (fun bs => .byte (Sys2Proof.cksum bs)) (cksumArg bytes)) s

/-- FRAME_ENC (40_frame_codec.md R132). -/
def execFrameEnc (a : Byte) (bytes : List Byte) (s : State) : Host.Outcome State Fault Refusal :=
  pureOperation (mapOk .frame (frameEnc s.cfg a bytes)) s

/-- FRAME_DEC (40_frame_codec.md R133). -/
def execFrameDec (bytes : List Byte) (s : State) : Host.Outcome State Fault Refusal :=
  pureOperation (mapOk .frame (frameDec bytes)) s

/-- ENC_POWER_Q (41_payload.md R150). -/
def execEncPowerQ (s : State) : Host.Outcome State Fault Refusal := pureOperation (.ok (.frame (powerQFrame s.cfg))) s

/-- ENC_RESTORE (41_payload.md R151). -/
def execEncRestore (s : State) : Host.Outcome State Fault Refusal := pureOperation (.ok (.frame (restoreQFrame s.cfg))) s

/-- ENC_MEMREAD (41_payload.md R152). -/
def execEncMemread (a n : Byte) (s : State) : Host.Outcome State Fault Refusal :=
  pureOperation (mapOk .frame (encMemread s.cfg a n)) s

/-- ENC_MEMWRITE (41_payload.md R153). -/
def execEncMemwrite (a : Byte) (bytes : List Byte) (s : State) : Host.Outcome State Fault Refusal :=
  pureOperation (mapOk .frame (encMemwrite s.cfg a bytes)) s

/-- ENC_PROFGET (41_payload.md R154). -/
def execEncProfget (s : State) : Host.Outcome State Fault Refusal := pureOperation (.ok (.frame (profgetQFrame s.cfg))) s

/-- ENC_PROFSET (41_payload.md R155). -/
def execEncProfset (a : Byte) (s : State) : Host.Outcome State Fault Refusal :=
  pureOperation (.ok (.frame (profsetQFrame s.cfg a))) s

/-- ENC_EVTACK0 (41_payload.md R156). -/
def execEncEvtack0 (s : State) : Host.Outcome State Fault Refusal := pureOperation (.ok (.frame (evtackFrame s.cfg 0))) s

/-- ENC_EVTACK1 (41_payload.md R157). -/
def execEncEvtack1 (s : State) : Host.Outcome State Fault Refusal := pureOperation (.ok (.frame (evtackFrame s.cfg 1))) s

/-- ENC_EVTACK2 (41_payload.md R158). -/
def execEncEvtack2 (s : State) : Host.Outcome State Fault Refusal := pureOperation (.ok (.frame (evtackFrame s.cfg 2))) s

/-- CLASSIFY (41_payload.md R160). -/
def execClassify (bytes : List Byte) (s : State) : Host.Outcome State Fault Refusal :=
  pureOperation (mapOk .variant (classify s.cfg bytes)) s

end Sys2Proof.Machine
end

