-- ==== Sys2Proof/Machine/LinkFrames.lean ====
section
/-! DEFINITION. The meanings of the 19 frame variants (30_encoding.md R92) as steps on the link: a request frame is built
and sent by the sequencer, with the flush and the await 44_session.md R293 gives its operation; a received frame is appended
to the RX queue by the device (10_state.md R33, R34; 60_exceptions.md R346). DESIGN CHOICE (log entries 6, 7). -/

namespace Sys2Proof.Machine

/-- The sequencer step of a request that awaits a reply: the range check of its encoder, the session, flush and send
(44_session.md R290, R295), and the await of its operation (R293), so that no request is left outstanding
(20_memory.md R76). The frame received is the step's value, neither decoded nor compared. -/
def requestStep (q : Except Raise Frame) (await : Op Frame) (s : State) : Host.Outcome State Fault Refusal :=
  .next (runOperation
    ((Op.lift q).bind fun f => requireConnected.bind fun _ => (request f).bind fun _ =>
      await.bind fun r => Op.pure (.frame r)) s)

/-- The sequencer step of an acknowledgement: the session and the send, no flush and no await (44_session.md R293, R303). -/
def ackStep (f : Frame) (s : State) : Host.Outcome State Fault Refusal :=
  .next (runOperation (noValue (requireConnected.bind fun _ => sendOrRaise f)) s)

/-- The device's step: a frame enters the RX queue, and nothing else changes (10_state.md R33, 60_exceptions.md R346). -/
def arrivalStep (f : Frame) (s : State) : Host.Outcome State Fault Refusal := .next (deviceAppends [f.toBytes] s)

/-- POWER_Q (30_encoding.md R92). -/
def execPowerQ (s : State) : Host.Outcome State Fault Refusal :=
  requestStep (.ok (powerQFrame s.cfg)) (awaitCmd s.cfg s.cfg.params.cmdPower) s

/-- RESTORE_Q (30_encoding.md R92). -/
def execRestoreQ (s : State) : Host.Outcome State Fault Refusal :=
  requestStep (.ok (restoreQFrame s.cfg)) (awaitCmd s.cfg s.cfg.params.cmdRestore) s

/-- MEMREAD_Q (30_encoding.md R92). -/
def execMemreadQ (a n : Byte) (s : State) : Host.Outcome State Fault Refusal :=
  requestStep (encMemread s.cfg a n) (awaitCmd s.cfg s.cfg.params.cmdMemread) s

/-- MEMWRITE_Q (30_encoding.md R92). -/
def execMemwriteQ (a : Byte) (bytes : List Byte) (s : State) : Host.Outcome State Fault Refusal :=
  requestStep (encMemwrite s.cfg a bytes) awaitAny s

/-- PROFGET_Q (30_encoding.md R92). -/
def execProfgetQ (s : State) : Host.Outcome State Fault Refusal :=
  requestStep (.ok (profgetQFrame s.cfg)) (awaitCmd s.cfg s.cfg.params.cmdProfget) s

/-- PROFSET_Q (30_encoding.md R92). -/
def execProfsetQ (a : Byte) (s : State) : Host.Outcome State Fault Refusal :=
  requestStep (.ok (profsetQFrame s.cfg a)) (awaitCmd s.cfg s.cfg.params.cmdProfset) s

/-- EVTACK0 (30_encoding.md R92). -/
def execEvtack0 (s : State) : Host.Outcome State Fault Refusal := ackStep (evtackFrame s.cfg 0) s

/-- EVTACK1 (30_encoding.md R92). -/
def execEvtack1 (s : State) : Host.Outcome State Fault Refusal := ackStep (evtackFrame s.cfg 1) s

/-- EVTACK2 (30_encoding.md R92). -/
def execEvtack2 (s : State) : Host.Outcome State Fault Refusal := ackStep (evtackFrame s.cfg 2) s

/-- RESTORE_R (30_encoding.md R92). -/
def execRestoreR (s : State) : Host.Outcome State Fault Refusal := arrivalStep (restoreQFrame s.cfg) s

/-- MEMWRITE_R, any command (30_encoding.md R92). -/
def execMemwriteR (header command : Byte) (data : FrameData) (s : State) : Host.Outcome State Fault Refusal :=
  arrivalStep (.seal header command data) s

/-- POWER_R (30_encoding.md R92). -/
def execPowerR (header : Byte) (data : FrameData) (s : State) : Host.Outcome State Fault Refusal :=
  arrivalStep (.seal header s.cfg.params.cmdPower data) s

/-- MEMREAD_R (30_encoding.md R92). -/
def execMemreadR (header : Byte) (data : FrameData) (s : State) : Host.Outcome State Fault Refusal :=
  arrivalStep (.seal header s.cfg.params.cmdMemread data) s

/-- PROFGET_R (30_encoding.md R92). -/
def execProfgetR (header : Byte) (data : FrameData) (s : State) : Host.Outcome State Fault Refusal :=
  arrivalStep (.seal header s.cfg.params.cmdProfget data) s

/-- PROFSET_R (30_encoding.md R92). -/
def execProfsetR (header : Byte) (data : FrameData) (s : State) : Host.Outcome State Fault Refusal :=
  arrivalStep (.seal header s.cfg.params.cmdProfset data) s

/-- STATUS (30_encoding.md R92). -/
def execStatusR (header : Byte) (data : FrameData) (s : State) : Host.Outcome State Fault Refusal :=
  arrivalStep (.seal header s.cfg.params.cmdStatus data) s

/-- EVENT_N0 (30_encoding.md R92). -/
def execEventN0 (header : Byte) (data : FrameData) (s : State) : Host.Outcome State Fault Refusal :=
  arrivalStep (.seal header s.cfg.params.cmdEvent data) s

/-- EVENT_N1 (30_encoding.md R92). -/
def execEventN1 (header : Byte) (data : FrameData) (s : State) : Host.Outcome State Fault Refusal :=
  arrivalStep (.seal header s.cfg.params.cmdEvent data) s

/-- EVENT_N2 (30_encoding.md R92). -/
def execEventN2 (header : Byte) (data : FrameData) (s : State) : Host.Outcome State Fault Refusal :=
  arrivalStep (.seal header s.cfg.params.cmdEvent data) s

end Sys2Proof.Machine
end

