-- ==== Sys2Proof/Machine/RegisterMap.lean ====
section
/-! DEFINITION. The raw cache operations and the generic getter and setter (42_register_map.md R190 to R202), and the
meanings of MAP_GET, MAP_WRITE and MAP_BULK_READ. -/

namespace Sys2Proof.Machine

/-- MAP_GET of an address (42_register_map.md R190). -/
def mapGet (a : Nat) : Op Byte :=
  (Op.read fun s => Memory.read s.cache a).bind fun c =>
    match c with
    | some v => Op.pure v
    | none => Op.raise .notPopulated (.nat a)

/-- MAP_WRITE (42_register_map.md R191): the argument checks, the session, the request, one unfiltered reply, and only
then the cells. -/
def mapWrite (cfg : Config) (pairs : List (Byte × Byte)) : Op Unit :=
  (Op.lift (pairsArg pairs)).bind fun r =>
  requireConnected.bind fun _ =>
  (Op.lift (encMemwrite cfg (BitVec.ofNat 8 r.1) r.2)).bind fun q =>
  (request q).bind fun _ =>
  awaitAny.bind fun _ =>
  Op.update fun s => { s with cache := Memory.writeRun s.cache r.1 r.2 }

/-- One window of MAP_BULK_READ, the one the counter k names: request, filtered reply, echo check, ten cells
(42_register_map.md R192). -/
def bulkWindow (cfg : Config) : Op Unit :=
  (Op.read fun s => Config.window * s.seqK).bind fun st =>
  (Op.lift (encMemread cfg (BitVec.ofNat 8 st) (BitVec.ofNat 8 Config.window))).bind fun q =>
  (request q).bind fun _ =>
  (awaitCmd cfg cfg.params.cmdMemread).bind fun f =>
    if (f.byteAt Config.memAddrPos).toNat ≠ st ∨ (f.byteAt Config.memLenPos).toNat ≠ Config.window then
      Op.raise .protocolViolation (.numberedFrame st f)
    else Op.update fun s => { s with cache := Memory.writeRun s.cache st (windowBytes f) }

/-- The windows with the given indices, in order (42_register_map.md R192). -/
def bulkWindows (cfg : Config) : List Nat → Op Unit
  | [] => Op.pure ()
  | k :: ks =>
    (Op.update fun s => { s with seqK := k }).bind fun _ =>
    (bulkWindow cfg).bind fun _ => bulkWindows cfg ks

/-- MAP_BULK_READ: 20 windows from address 0 (42_register_map.md R192, R193). -/
def mapBulkRead (cfg : Config) : Op Unit :=
  requireConnected.bind fun _ => bulkWindows cfg (List.range Config.numWindows)

/-- The cells from a on, ascending; the first unpopulated one raises (42_register_map.md R201). -/
def readRun (a : Nat) : Nat → Op (List Byte)
  | 0 => Op.pure []
  | n + 1 => (mapGet a).bind fun b => (readRun (a + 1) n).bind fun bs => Op.pure (b :: bs)

/-- The raw value bytes of a setting field (42_register_map.md R201). -/
def readGroup (cfg : Config) (f : SettingField) : Op (List Byte) := readRun (cfg.params.addr f).toNat f.size

/-- The generic getter GET_f (42_register_map.md R201): the checksum byte is not read. -/
def getField (cfg : Config) (f : SettingField) : Op Value :=
  (readGroup cfg f).bind fun r => Op.lift (codecDec cfg (codecOf f) r)

/-- The value bytes at consecutive addresses from a. -/
def groupPairs (a : Byte) : List Byte → List (Byte × Byte)
  | [] => []
  | b :: bs => (a, b) :: groupPairs (a + 1) bs

/-- The pairs a setter writes: the group, then its checksum (42_register_map.md R200). -/
def settingPairs (cfg : Config) (f : SettingField) (raw : List Byte) : List (Byte × Byte) :=
  groupPairs (cfg.params.addr f) (raw ++ [Sys2Proof.cksum raw])

/-- The generic setter SET_f (42_register_map.md R200): the codec, then one MAP_WRITE of values and checksum. -/
def setField (cfg : Config) (f : SettingField) (v : Word32) (text : List Ascii) : Op Unit :=
  (Op.lift (codecEnc cfg (codecOf f) v text)).bind fun raw => mapWrite cfg (settingPairs cfg f raw)

/-! ## Meanings -/

/-- MAP_GET (42_register_map.md R190). -/
def execMapGet (a : Byte) (s : State) : Host.Outcome State Fault Refusal :=
  .next (runOperation ((mapGet a.toNat).bind fun b => Op.pure (.byte b)) s)

/-- MAP_WRITE (42_register_map.md R191). -/
def execMapWrite (pairs : List (Byte × Byte)) (s : State) : Host.Outcome State Fault Refusal :=
  .next (runOperation (noValue (mapWrite s.cfg pairs)) s)

/-- MAP_BULK_READ (42_register_map.md R192). -/
def execMapBulkRead (s : State) : Host.Outcome State Fault Refusal :=
  .next (runOperation (noValue (mapBulkRead s.cfg)) s)

end Sys2Proof.Machine
end

