-- ==== Sys2Proof/Machine/Session.lean ====
section
/-! DEFINITION. The session operations (44_session.md R290 to R306) and their meanings. -/

namespace Sys2Proof.Machine

/-- OPEN: no effect while connected; else the transport's open, then the partial reset of 70_reset_and_hazards.md R381
(44_session.md R300). -/
def openOperation : Op Unit :=
  (Op.read State.sess).bind fun sess =>
    if sess = .connected then Op.pure ()
    else
      openStep.bind fun r =>
        if r = .ioError then Op.raise .ioError .none
        else
          (Op.update fun s => { s with sess := .connected, profile := none }).bind fun _ =>
          clearCache.bind fun _ => flushStep

/-- CLOSE: the transport's close is made and its result ignored; the cache and the profile stay (44_session.md R301). -/
def closeOperation : Op Unit := Op.update fun s => { s with sess := .disconnected }

/-- FLUSH (44_session.md R290). -/
def flushOperation : Op Unit := requireConnected.bind fun _ => flushStep

/-- RESTORE: the echo must equal the request in all 17 bytes before the cache is cleared (44_session.md R296). -/
def restoreOperation (cfg : Config) : Op Unit :=
  requireConnected.bind fun _ =>
  (request (restoreQFrame cfg)).bind fun _ =>
  (awaitCmd cfg cfg.params.cmdRestore).bind fun f =>
    if f ≠ restoreQFrame cfg then Op.raise .protocolViolation (.frame f) else clearCache

/-- GET_PROFILE: the known profile, or a query (44_session.md R297). -/
def getProfile (cfg : Config) : Op Byte :=
  requireConnected.bind fun _ =>
  (Op.read State.profile).bind fun known =>
    match known with
    | some n => Op.pure n
    | none =>
      (request (profgetQFrame cfg)).bind fun _ =>
      (awaitCmd cfg cfg.params.cmdProfget).bind fun f =>
      (Op.update fun s => { s with profile := some (f.byteAt cfg.params.profilePos) }).bind fun _ =>
        Op.pure (f.byteAt cfg.params.profilePos)

/-- SET_PROFILE: the profile is stored only after the device echoed it (44_session.md R298). -/
def setProfile (cfg : Config) (n : Byte) : Op Unit :=
  requireConnected.bind fun _ =>
  (request (profsetQFrame cfg n)).bind fun _ =>
  (awaitCmd cfg cfg.params.cmdProfset).bind fun f =>
    if f.byteAt cfg.params.profilePos ≠ n then
      Op.raise .protocolViolation (.pair n.toNat (f.byteAt cfg.params.profilePos).toNat)
    else Op.update fun s => { s with profile := some n }

/-- POWER_QUERY: the result is not cached (44_session.md R299, 10_state.md R28). -/
def powerQuery (cfg : Config) : Op PowerStatus :=
  requireConnected.bind fun _ =>
  (request (powerQFrame cfg)).bind fun _ =>
  (awaitCmd cfg cfg.params.cmdPower).bind fun f => Op.lift (decPower cfg f)

/-- RECV: no flush, no filter (44_session.md R302). -/
def recvOperation (cfg : Config) : Op Value :=
  requireConnected.bind fun _ =>
  awaitAny.bind fun f => Op.lift (mapOk (fun d => .received f d) (classifyFrame cfg f))

/-- SEND_EVTACK: no flush, no reply (44_session.md R303). -/
def sendEvtack (cfg : Config) (a : Byte) : Op Unit :=
  (Op.lift (kindArg a)).bind fun k =>
  requireConnected.bind fun _ => sendOrRaise (evtackFrame cfg k)

/-! ## The snapshot -/

/-- A typed getter: a setting field's raw bytes under one decoder (42_register_map.md R201). -/
def getTyped {α : Type} (cfg : Config) (f : SettingField) (dec : List Byte → Except Raise α) : Op α :=
  (readGroup cfg f).bind fun r => Op.lift (dec r)

/-- `LedBlock()`: an absent field's cells are not read (44_session.md R305). -/
def ledBlock (cfg : Config) : Op LedBlock :=
  (getTyped cfg .ledEnabled boolDec).bind fun en =>
    if en = false then Op.pure ⟨false, none, none, none⟩
    else
      (getTyped cfg .ledEffect (effectDec cfg)).bind fun e =>
        match e with
        | .steady => (getTyped cfg .ledBright byteDec).bind fun b => Op.pure ⟨true, some .steady, some b, none⟩
        | .breathe => (getTyped cfg .breatheSpeed byteDec).bind fun b => Op.pure ⟨true, some .breathe, none, some b⟩
        | .off => Op.pure ⟨true, some .off, none, none⟩

/-- The settings of the given modes, in order (44_session.md R304). -/
def modeSettings (cfg : Config) : List (Fin 4) → Op (List ModeSetting)
  | [] => Op.pure []
  | m :: ms =>
    (getTyped cfg (.dpi m) dpiDec).bind fun d =>
    (getTyped cfg (.color m) colorDec).bind fun c =>
    (modeSettings cfg ms).bind fun rest => Op.pure (⟨d, c⟩ :: rest)

/-- SNAPSHOT: the steps in their fixed order; the first error ends it (44_session.md R304, D55). -/
def snapshotOperation (cfg : Config) : Op Snapshot :=
  requireConnected.bind fun _ =>
  (getProfile cfg).bind fun profile =>
  (getTyped cfg .dpiIdx idxDec).bind fun idx =>
  (modeSettings cfg [0, 1, 2, 3]).bind fun modes =>
  (getTyped cfg .poll (pollDec cfg)).bind fun poll =>
  (ledBlock cfg).bind fun led =>
  (getTyped cfg .lodMm byteDec).bind fun mm =>
  (getTyped cfg .lodRipple boolDec).bind fun ripple =>
  (getTyped cfg .motionSync boolDec).bind fun ms =>
  (getTyped cfg .angleSnap boolDec).bind fun as =>
  (getTyped cfg .autosleep sleepDec).bind fun sleep =>
  (getTyped cfg .debounce byteDec).bind fun deb =>
  (powerQuery cfg).bind fun power =>
    Op.pure ⟨profile, idx, modes, poll, led, mm, ripple, ms, as, sleep, deb, power⟩

/-! ## Meanings -/

/-- OPEN (R300). -/
def execOpenSession (s : State) : Host.Outcome State Fault Refusal := .next (runOperation (noValue openOperation) s)

/-- CLOSE (R301). -/
def execCloseSession (s : State) : Host.Outcome State Fault Refusal := .next (runOperation (noValue closeOperation) s)

/-- RESTORE (R296). -/
def execRestore (s : State) : Host.Outcome State Fault Refusal :=
  .next (runOperation (noValue (restoreOperation s.cfg)) s)

/-- GET_PROFILE (R297). -/
def execGetProfile (s : State) : Host.Outcome State Fault Refusal :=
  .next (runOperation ((getProfile s.cfg).bind fun n => Op.pure (.byte n)) s)

/-- SET_PROFILE (R298). -/
def execSetProfile (a : Byte) (s : State) : Host.Outcome State Fault Refusal :=
  .next (runOperation (noValue (setProfile s.cfg a)) s)

/-- POWER_QUERY (R299). -/
def execPowerQuery (s : State) : Host.Outcome State Fault Refusal :=
  .next (runOperation ((powerQuery s.cfg).bind fun p => Op.pure (.power p)) s)

/-- RECV (R302). -/
def execRecv (s : State) : Host.Outcome State Fault Refusal := .next (runOperation (recvOperation s.cfg) s)

/-- SEND_EVTACK (R303). -/
def execSendEvtack (a : Byte) (s : State) : Host.Outcome State Fault Refusal :=
  .next (runOperation (noValue (sendEvtack s.cfg a)) s)

/-- FLUSH (R290). -/
def execFlush (s : State) : Host.Outcome State Fault Refusal := .next (runOperation (noValue flushOperation) s)

/-- SNAPSHOT (R304). -/
def execSnapshot (s : State) : Host.Outcome State Fault Refusal :=
  .next (runOperation ((snapshotOperation s.cfg).bind fun r => Op.pure (.snapshot r)) s)

end Sys2Proof.Machine
end

