-- ==== Sys2Proof/Machine/Settings.lean ====
section
/-! DEFINITION. The meanings of the getters and setters of the setting fields (42_register_map.md R210 to R243). -/

namespace Sys2Proof.Machine

/-! ## Getters: no frame is sent, and they work in any session state -/

/-- GET_POLL (42_register_map.md R210). -/
def execGetPoll (s : State) : Host.Outcome State Fault Refusal := .next (runOperation (getField s.cfg .poll) s)

/-- GET_DPI_IDX (42_register_map.md R211). -/
def execGetDpiIdx (s : State) : Host.Outcome State Fault Refusal := .next (runOperation (getField s.cfg .dpiIdx) s)

/-- GET_LOD_MM (42_register_map.md R212). -/
def execGetLodMm (s : State) : Host.Outcome State Fault Refusal := .next (runOperation (getField s.cfg .lodMm) s)

/-- GET_LOD_RIPPLE (42_register_map.md R213). -/
def execGetLodRipple (s : State) : Host.Outcome State Fault Refusal := .next (runOperation (getField s.cfg .lodRipple) s)

/-- GET_DEBOUNCE (42_register_map.md R214). -/
def execGetDebounce (s : State) : Host.Outcome State Fault Refusal := .next (runOperation (getField s.cfg .debounce) s)

/-- GET_MOTION_SYNC (42_register_map.md R215). -/
def execGetMotionSync (s : State) : Host.Outcome State Fault Refusal := .next (runOperation (getField s.cfg .motionSync) s)

/-- GET_ANGLE_SNAP (42_register_map.md R216). -/
def execGetAngleSnap (s : State) : Host.Outcome State Fault Refusal := .next (runOperation (getField s.cfg .angleSnap) s)

/-- GET_LED_EFFECT (42_register_map.md R217). -/
def execGetLedEffect (s : State) : Host.Outcome State Fault Refusal := .next (runOperation (getField s.cfg .ledEffect) s)

/-- GET_LED_BRIGHT (42_register_map.md R218). -/
def execGetLedBright (s : State) : Host.Outcome State Fault Refusal := .next (runOperation (getField s.cfg .ledBright) s)

/-- GET_LED_ENABLED (42_register_map.md R219). -/
def execGetLedEnabled (s : State) : Host.Outcome State Fault Refusal := .next (runOperation (getField s.cfg .ledEnabled) s)

/-- GET_BREATHE_SPEED (42_register_map.md R220). -/
def execGetBreatheSpeed (s : State) : Host.Outcome State Fault Refusal := .next (runOperation (getField s.cfg .breatheSpeed) s)

/-- GET_AUTOSLEEP (42_register_map.md R221). -/
def execGetAutosleep (s : State) : Host.Outcome State Fault Refusal := .next (runOperation (getField s.cfg .autosleep) s)

/-- GET_DPI: the mode check, then the group (42_register_map.md R222). -/
def execGetDpi (a : Byte) (s : State) : Host.Outcome State Fault Refusal :=
  .next (runOperation ((Op.lift (modeArg a)).bind fun m => getField s.cfg (.dpi m)) s)

/-- GET_COLOR: the mode check, then the group (42_register_map.md R223). -/
def execGetColor (a : Byte) (s : State) : Host.Outcome State Fault Refusal :=
  .next (runOperation ((Op.lift (modeArg a)).bind fun m => getField s.cfg (.color m)) s)

/-! ## Setters: the codec's error comes before the session check and before any frame -/

/-- SET_POLL (42_register_map.md R230). -/
def execSetPoll (v : Word32) (s : State) : Host.Outcome State Fault Refusal :=
  .next (runOperation (noValue (setField s.cfg .poll v [])) s)

/-- SET_DPI_IDX (42_register_map.md R231). -/
def execSetDpiIdx (v : Word32) (s : State) : Host.Outcome State Fault Refusal :=
  .next (runOperation (noValue (setField s.cfg .dpiIdx v [])) s)

/-- SET_LOD_MM (42_register_map.md R232). -/
def execSetLodMm (v : Word32) (s : State) : Host.Outcome State Fault Refusal :=
  .next (runOperation (noValue (setField s.cfg .lodMm v [])) s)

/-- SET_LOD_RIPPLE (42_register_map.md R233). -/
def execSetLodRipple (v : Word32) (s : State) : Host.Outcome State Fault Refusal :=
  .next (runOperation (noValue (setField s.cfg .lodRipple v [])) s)

/-- SET_DEBOUNCE (42_register_map.md R234). -/
def execSetDebounce (v : Word32) (s : State) : Host.Outcome State Fault Refusal :=
  .next (runOperation (noValue (setField s.cfg .debounce v [])) s)

/-- SET_MOTION_SYNC (42_register_map.md R235). -/
def execSetMotionSync (v : Word32) (s : State) : Host.Outcome State Fault Refusal :=
  .next (runOperation (noValue (setField s.cfg .motionSync v [])) s)

/-- SET_ANGLE_SNAP (42_register_map.md R236). -/
def execSetAngleSnap (v : Word32) (s : State) : Host.Outcome State Fault Refusal :=
  .next (runOperation (noValue (setField s.cfg .angleSnap v [])) s)

/-- SET_LED_EFFECT (42_register_map.md R237). -/
def execSetLedEffect (v : Word32) (s : State) : Host.Outcome State Fault Refusal :=
  .next (runOperation (noValue (setField s.cfg .ledEffect v [])) s)

/-- SET_LED_BRIGHT (42_register_map.md R238). -/
def execSetLedBright (v : Word32) (s : State) : Host.Outcome State Fault Refusal :=
  .next (runOperation (noValue (setField s.cfg .ledBright v [])) s)

/-- SET_LED_ENABLED (42_register_map.md R239). -/
def execSetLedEnabled (v : Word32) (s : State) : Host.Outcome State Fault Refusal :=
  .next (runOperation (noValue (setField s.cfg .ledEnabled v [])) s)

/-- SET_BREATHE_SPEED (42_register_map.md R240). -/
def execSetBreatheSpeed (v : Word32) (s : State) : Host.Outcome State Fault Refusal :=
  .next (runOperation (noValue (setField s.cfg .breatheSpeed v [])) s)

/-- SET_AUTOSLEEP (42_register_map.md R241). -/
def execSetAutosleep (v : Word32) (s : State) : Host.Outcome State Fault Refusal :=
  .next (runOperation (noValue (setField s.cfg .autosleep v [])) s)

/-- SET_DPI: the mode check, then the setter (42_register_map.md R242). -/
def execSetDpi (a : Byte) (v : Word32) (s : State) : Host.Outcome State Fault Refusal :=
  .next (runOperation (noValue ((Op.lift (modeArg a)).bind fun m => setField s.cfg (.dpi m) v [])) s)

/-- SET_COLOR: the mode check, then the setter (42_register_map.md R243). -/
def execSetColor (a : Byte) (text : List Ascii) (s : State) : Host.Outcome State Fault Refusal :=
  .next (runOperation (noValue ((Op.lift (modeArg a)).bind fun m => setField s.cfg (.color m) 0 text)) s)

end Sys2Proof.Machine
end

