-- ==== Sys2Proof/Machine/Dispatch.lean ====
section
/-! DEFINITION. The dispatch: one arm per constructor of `Instr`, each a direct call of its meaning. -/

namespace Sys2Proof.Machine

def exec (i : Instr) (s : State) : Host.Outcome State Fault Refusal :=
  match i with
  | .cksum bytes => Sys2Proof.Machine.execCksum bytes s
  | .frameEnc a bytes => Sys2Proof.Machine.execFrameEnc a bytes s
  | .frameDec bytes => Sys2Proof.Machine.execFrameDec bytes s
  | .encPowerQ => Sys2Proof.Machine.execEncPowerQ s
  | .encRestore => Sys2Proof.Machine.execEncRestore s
  | .encMemread a n => Sys2Proof.Machine.execEncMemread a n s
  | .encMemwrite a bytes => Sys2Proof.Machine.execEncMemwrite a bytes s
  | .encProfget => Sys2Proof.Machine.execEncProfget s
  | .encProfset a => Sys2Proof.Machine.execEncProfset a s
  | .encEvtack0 => Sys2Proof.Machine.execEncEvtack0 s
  | .encEvtack1 => Sys2Proof.Machine.execEncEvtack1 s
  | .encEvtack2 => Sys2Proof.Machine.execEncEvtack2 s
  | .classify bytes => Sys2Proof.Machine.execClassify bytes s
  | .mapGet a => Sys2Proof.Machine.execMapGet a s
  | .mapWrite pairs => Sys2Proof.Machine.execMapWrite pairs s
  | .mapBulkRead => Sys2Proof.Machine.execMapBulkRead s
  | .dpiEnc v => Sys2Proof.Machine.execDpiEnc v s
  | .dpiDec bytes => Sys2Proof.Machine.execDpiDec bytes s
  | .colorEnc text => Sys2Proof.Machine.execColorEnc text s
  | .colorDec bytes => Sys2Proof.Machine.execColorDec bytes s
  | .boolEnc v => Sys2Proof.Machine.execBoolEnc v s
  | .boolDec bytes => Sys2Proof.Machine.execBoolDec bytes s
  | .effectEnc v => Sys2Proof.Machine.execEffectEnc v s
  | .effectDec bytes => Sys2Proof.Machine.execEffectDec bytes s
  | .pollEnc v => Sys2Proof.Machine.execPollEnc v s
  | .pollDec bytes => Sys2Proof.Machine.execPollDec bytes s
  | .byteEnc v => Sys2Proof.Machine.execByteEnc v s
  | .byteDec bytes => Sys2Proof.Machine.execByteDec bytes s
  | .idxEnc v => Sys2Proof.Machine.execIdxEnc v s
  | .idxDec bytes => Sys2Proof.Machine.execIdxDec bytes s
  | .sleepEnc v => Sys2Proof.Machine.execSleepEnc v s
  | .sleepDec bytes => Sys2Proof.Machine.execSleepDec bytes s
  | .getPoll => Sys2Proof.Machine.execGetPoll s
  | .getDpiIdx => Sys2Proof.Machine.execGetDpiIdx s
  | .getLodMm => Sys2Proof.Machine.execGetLodMm s
  | .getLodRipple => Sys2Proof.Machine.execGetLodRipple s
  | .getDebounce => Sys2Proof.Machine.execGetDebounce s
  | .getMotionSync => Sys2Proof.Machine.execGetMotionSync s
  | .getAngleSnap => Sys2Proof.Machine.execGetAngleSnap s
  | .getLedEffect => Sys2Proof.Machine.execGetLedEffect s
  | .getLedBright => Sys2Proof.Machine.execGetLedBright s
  | .getLedEnabled => Sys2Proof.Machine.execGetLedEnabled s
  | .getBreatheSpeed => Sys2Proof.Machine.execGetBreatheSpeed s
  | .getAutosleep => Sys2Proof.Machine.execGetAutosleep s
  | .getDpi a => Sys2Proof.Machine.execGetDpi a s
  | .getColor a => Sys2Proof.Machine.execGetColor a s
  | .snapshot => Sys2Proof.Machine.execSnapshot s
  | .setPoll v => Sys2Proof.Machine.execSetPoll v s
  | .setDpiIdx v => Sys2Proof.Machine.execSetDpiIdx v s
  | .setLodMm v => Sys2Proof.Machine.execSetLodMm v s
  | .setLodRipple v => Sys2Proof.Machine.execSetLodRipple v s
  | .setDebounce v => Sys2Proof.Machine.execSetDebounce v s
  | .setMotionSync v => Sys2Proof.Machine.execSetMotionSync v s
  | .setAngleSnap v => Sys2Proof.Machine.execSetAngleSnap v s
  | .setLedEffect v => Sys2Proof.Machine.execSetLedEffect v s
  | .setLedBright v => Sys2Proof.Machine.execSetLedBright v s
  | .setLedEnabled v => Sys2Proof.Machine.execSetLedEnabled v s
  | .setBreatheSpeed v => Sys2Proof.Machine.execSetBreatheSpeed v s
  | .setAutosleep v => Sys2Proof.Machine.execSetAutosleep v s
  | .setDpi a v => Sys2Proof.Machine.execSetDpi a v s
  | .setColor a text => Sys2Proof.Machine.execSetColor a text s
  | .openSession => Sys2Proof.Machine.execOpenSession s
  | .closeSession => Sys2Proof.Machine.execCloseSession s
  | .restore => Sys2Proof.Machine.execRestore s
  | .getProfile => Sys2Proof.Machine.execGetProfile s
  | .setProfile a => Sys2Proof.Machine.execSetProfile a s
  | .powerQuery => Sys2Proof.Machine.execPowerQuery s
  | .recv => Sys2Proof.Machine.execRecv s
  | .sendEvtack a => Sys2Proof.Machine.execSendEvtack a s
  | .flush => Sys2Proof.Machine.execFlush s
  | .powerQ => Sys2Proof.Machine.execPowerQ s
  | .powerR header data => Sys2Proof.Machine.execPowerR header data s
  | .restoreQ => Sys2Proof.Machine.execRestoreQ s
  | .restoreR => Sys2Proof.Machine.execRestoreR s
  | .memreadQ a n => Sys2Proof.Machine.execMemreadQ a n s
  | .memreadR header data => Sys2Proof.Machine.execMemreadR header data s
  | .memwriteQ a bytes => Sys2Proof.Machine.execMemwriteQ a bytes s
  | .memwriteR header command data => Sys2Proof.Machine.execMemwriteR header command data s
  | .profgetQ => Sys2Proof.Machine.execProfgetQ s
  | .profgetR header data => Sys2Proof.Machine.execProfgetR header data s
  | .profsetQ a => Sys2Proof.Machine.execProfsetQ a s
  | .profsetR header data => Sys2Proof.Machine.execProfsetR header data s
  | .statusR header data => Sys2Proof.Machine.execStatusR header data s
  | .eventN0 header data => Sys2Proof.Machine.execEventN0 header data s
  | .evtack0 => Sys2Proof.Machine.execEvtack0 s
  | .eventN1 header data => Sys2Proof.Machine.execEventN1 header data s
  | .evtack1 => Sys2Proof.Machine.execEvtack1 s
  | .eventN2 header data => Sys2Proof.Machine.execEventN2 header data s
  | .evtack2 => Sys2Proof.Machine.execEvtack2 s

end Sys2Proof.Machine
end

