-- ==== Sys2Proof/Machine/Step.lean ====
section
/-! DEFINITION. One step of the machine: the next input is taken, decoded and run (00_scope.md R10, 10_state.md R38). -/

namespace Sys2Proof.Machine

/-- One step: next, fault or refusal. A block with nothing at its port waits, unchanged (log entry 8). -/
def step (s : State) : Host.Outcome State Fault Refusal :=
  match fetchInput s with
  | none => .next s
  | some (input, s') =>
    match decode s'.cfg input with
    | .ok i => exec i s'
    | .error r => rejectInput r input s'

/-- The state with an opcode-table word standing at the port as the very next input (log entry 9). -/
def State.withFetchWord (s : State) (nbits w : Nat) : State :=
  { s with inputs := tableInput s.cfg nbits w :: s.inputs }

end Sys2Proof.Machine
end

