-- ==== Sys2Proof/Machine/Flags.lean ====
section
/-! DEFINITION. The block has no flag or condition-code register (10_state.md R37). Its only status output is the status
code of each result, and its only persistent bits are `valid`, `sess` and `profile`: this file gives the codes and the
`valid` bits. -/

namespace Sys2Proof.Machine

/-- The numeric code of a status (60_exceptions.md R340). -/
def Status.code : Status → Nat
  | .ok => 0
  | .formatError => 1
  | .unsupportedDecode => 2
  | .decodeError => 3
  | .invalidValue => 4
  | .alignmentError => 5
  | .invalidEncoding => 6
  | .protocolViolation => 7
  | .notPopulated => 8
  | .timeout => 9
  | .noMatch => 10
  | .invalidRange => 11
  | .ioError => 12
  | .notConnected => 13
  | .illegalOp => 14

/-- The populated bit `valid[a]` (10_state.md R21). -/
def State.valid (s : State) (a : Nat) : Bool := (Memory.read s.cache a).isSome

/-- The 8-bit status at the host port, where an operation has ended (10_state.md R36, R37). -/
def State.statusCode (s : State) : Option Nat := s.result.map fun r => r.status.code

end Sys2Proof.Machine
end

