-- ==== Sys2Proof/Safety.lean ====
section
/-! DEFINITION. The terms claims are written in: the state an operation leaves at the host port, what the link may answer
to a request, the invariant every step keeps, and which instructions may touch which part of the state. -/

namespace Sys2Proof.Machine

/-- The state with an operation ended: the result at the host port, the hidden counters 0, nothing else changed. -/
def State.ended (s : State) (status : Status) (value : Value) : State :=
  { s with result := some ⟨status, value⟩, seqK := 0, seqD := 0 }

/-- The next write succeeds, and the next receive brings the strings `b :: more` and delivers: the draws that remain are
`ss` and `rs`. -/
def State.RepliedBy (s : State) (b : List Byte) (more : List (List Byte)) (ss : List LinkResult) (rs : List RecvDraw) :
    Prop :=
  s.env.sends = .ok :: ss ∧ s.env.recvs = ⟨b :: more, .deliver⟩ :: rs

/-- The state after one request `q` and one reply: the frame sent, the reply taken from a queue that was flushed
before, and what arrived behind it left there. -/
def State.exchanged (s : State) (q : Frame) (more : List (List Byte)) (ss : List LinkResult) (rs : List RecvDraw) :
    State :=
  { s with tx := s.tx ++ [q], rxq := more, env := { s.env with sends := ss, recvs := rs } }

/-- The state after one request `q` and its wait: the frame sent, the receive side as the wait left it. -/
def State.waited (s : State) (q : Frame) (rxq : List (List Byte)) (env : Env) : State :=
  { s with tx := s.tx ++ [q], rxq := rxq, env := env }

/-- Receives that each deliver a string, one after another (10_state.md R34): under the draws `ds` the strings `bs` are
taken from the queue `q` and what arrives, and the queue `q'` and the draws `ds'` are left. -/
inductive Delivers : List (List Byte) → List RecvDraw → List (List Byte) → List (List Byte) → List RecvDraw → Prop
  | nil {q : List (List Byte)} {ds : List RecvDraw} : Delivers q ds [] q ds
  | cons {q arr more bs q' : List (List Byte)} {b : List Byte} {ds ds' : List RecvDraw} :
      q ++ arr = b :: more → Delivers more ds bs q' ds' → Delivers q (⟨arr, .deliver⟩ :: ds) (b :: bs) q' ds'

/-- The four ways a receive fails (44_session.md R291), each with its status, the queue and the draws it leaves: the draw is
a timeout or an I/O error; a delivery finds the queue empty (log entry 4); the string taken is no valid frame. -/
inductive RecvFails : List (List Byte) → List RecvDraw → Status → List (List Byte) → List RecvDraw → Prop
  | timeout {q arr : List (List Byte)} {ds : List RecvDraw} : RecvFails q (⟨arr, .timeout⟩ :: ds) .timeout (q ++ arr) ds
  | ioError {q arr : List (List Byte)} {ds : List RecvDraw} : RecvFails q (⟨arr, .ioError⟩ :: ds) .ioError (q ++ arr) ds
  | empty {ds : List RecvDraw} : RecvFails [] (⟨[], .deliver⟩ :: ds) .timeout [] ds
  | invalid {q arr more : List (List Byte)} {b : List Byte} {why : FrameReject} {ds : List RecvDraw} :
      q ++ arr = b :: more → Frame.parse b = .error why → RecvFails q (⟨arr, .deliver⟩ :: ds) .formatError more ds

/-- Valid frames, none of the command `c`: what the filter loop discards (44_session.md R292). -/
def OtherThan (c : Byte) (skip : List Frame) : Prop := ∀ g ∈ skip, g.checksum = cksum g.body ∧ g.command ≠ c

/-- A request is written and answered: at most MAX_DISCARD valid frames of other commands arrive, then the valid frame `f`
of command `c`; the queue `q` and the transport `e'` are left (44_session.md R290, R292). -/
def Env.Answers (e : Env) (cfg : Config) (c : Byte) (f : Frame) (q : List (List Byte)) (e' : Env) : Prop :=
  f.checksum = cksum f.body ∧ f.command = c ∧
  ∃ (skip : List Frame) (ss : List LinkResult) (rs : List RecvDraw),
    skip.length ≤ cfg.params.maxDiscard ∧ OtherThan c skip ∧ e.sends = .ok :: ss ∧
    Delivers [] e.recvs (skip.map Frame.toBytes ++ [f.toBytes]) q rs ∧ e' = { e with sends := ss, recvs := rs }

/-- The ways a request and its unfiltered reply fail: the write, or the one receive (44_session.md R290, R291). -/
inductive Env.ReplyFails (e : Env) : Status → List (List Byte) → Env → Prop
  | unsent {ss : List LinkResult} : e.sends = .ioError :: ss → e.ReplyFails .ioError [] { e with sends := ss }
  | received {ss : List LinkResult} {st : Status} {q : List (List Byte)} {rs : List RecvDraw} :
      e.sends = .ok :: ss → RecvFails [] e.recvs st q rs → e.ReplyFails st q { e with sends := ss, recvs := rs }

/-- The ways a request and its filtered reply fail: the write; a receive behind at most MAX_DISCARD discarded frames; or one
frame more than MAX_DISCARD of another command (44_session.md R290 to R292). -/
inductive Env.AwaitFails (e : Env) (cfg : Config) (c : Byte) : Status → List (List Byte) → Env → Prop
  | unsent {ss : List LinkResult} : e.sends = .ioError :: ss → e.AwaitFails cfg c .ioError [] { e with sends := ss }
  | received {skip : List Frame} {ss : List LinkResult} {ds rs : List RecvDraw} {st : Status}
      {q q' : List (List Byte)} :
      e.sends = .ok :: ss → skip.length ≤ cfg.params.maxDiscard → OtherThan c skip →
      Delivers [] e.recvs (skip.map Frame.toBytes) q ds → RecvFails q ds st q' rs →
      e.AwaitFails cfg c st q' { e with sends := ss, recvs := rs }
  | discarded {skip : List Frame} {ss : List LinkResult} {rs : List RecvDraw} {q : List (List Byte)} :
      e.sends = .ok :: ss → skip.length = cfg.params.maxDiscard + 1 → OtherThan c skip →
      Delivers [] e.recvs (skip.map Frame.toBytes) q rs →
      e.AwaitFails cfg c .noMatch q { e with sends := ss, recvs := rs }

/-- The first n requests of a bulk read (42_register_map.md R192). -/
def bulkRequests (cfg : Config) (n : Nat) : List Frame :=
  (List.range n).map fun k => memreadQFrame cfg (BitVec.ofNat 8 (10 * k)) 10

/-- A frame echoes the start and the length of window k (42_register_map.md R192). -/
def EchoesWindow (k : Nat) (f : Frame) : Prop := (f.byteAt 4).toNat = 10 * k ∧ (f.byteAt 5).toNat = 10

/-- The first windows of a bulk read answered, one after another, each by a reply that echoes its window: `fs` are the
replies, and the queue `q` and the transport `e` are left (42_register_map.md R192). -/
inductive WindowsAnswered (cfg : Config) (q0 : List (List Byte)) (e0 : Env) :
    List Frame → List (List Byte) → Env → Prop
  | nil : WindowsAnswered cfg q0 e0 [] q0 e0
  | next {fs : List Frame} {f : Frame} {q q' : List (List Byte)} {e e' : Env} :
      WindowsAnswered cfg q0 e0 fs q e → e.Answers cfg cfg.params.cmdMemread f q' e' → EchoesWindow fs.length f →
      WindowsAnswered cfg q0 e0 (fs ++ [f]) q' e'

/-- The cells of the windows hold the data bytes of their replies `fs`; every other cell reads as in `m0`
(20_memory.md R71). -/
def HoldsWindows (m m0 : Memory) (fs : List Frame) : Prop :=
  ∀ a, Memory.read m a =
    if a < 10 * fs.length then (fs[a / 10]?).map (fun f => f.byteAt (6 + a % 10)) else Memory.read m0 a

/-- The state in which a bulk read has sent n requests and stored the cells `m`. -/
def State.bulkMoved (s : State) (n : Nat) (m : Memory) (rxq : List (List Byte)) (env : Env) : State :=
  { s with cache := m, rxq := rxq, env := env, tx := s.tx ++ bulkRequests s.cfg n }

/-- Consecutive cells from `a` hold exactly the bytes `bs`. -/
def HoldsRun (m : Memory) (a : Nat) (bs : List Byte) : Prop :=
  ∀ i, i < bs.length → Memory.read m (a + i) = bs[i]?

/-- The frame a request is: header and command, the given byte at each data position, and the checksum of these. -/
def IsRequest (cfg : Config) (f : Frame) (command : Byte) (data : Nat → Byte) : Prop :=
  f.header = cfg.params.header ∧ f.command = command ∧
  (∀ pos, 2 ≤ pos → pos ≤ 15 → f.byteAt pos = data pos) ∧
  (f.checksum.toNat + (f.body.map BitVec.toNat).sum) % 256 = 0x55

/-- What holds between steps: the cache keeps its canonical form; every sent frame has the header and a right checksum;
the sequencer's counters are 0. -/
structure State.Inv (s : State) : Prop where
  cache_wf : Memory.wf s.cache = true
  tx_header : ∀ f ∈ s.tx, f.header = s.cfg.params.header
  tx_checksum : ∀ f ∈ s.tx, f.checksum = cksum f.body
  counters : s.seqK = 0 ∧ s.seqD = 0

/-- The result at the host port is an error. -/
def State.Failed (s : State) : Prop := ∃ r, s.result = some r ∧ r.status ≠ .ok

/-- The 12 one-byte setters, with their fields (42_register_map.md R230 to R241). -/
def scalarSetters : List ((Word32 → Instr) × SettingField) :=
  [(.setPoll, .poll), (.setDpiIdx, .dpiIdx), (.setLodMm, .lodMm), (.setLodRipple, .lodRipple),
   (.setDebounce, .debounce), (.setMotionSync, .motionSync), (.setAngleSnap, .angleSnap),
   (.setLedEffect, .ledEffect), (.setLedBright, .ledBright), (.setLedEnabled, .ledEnabled),
   (.setBreatheSpeed, .breatheSpeed), (.setAutosleep, .autosleep)]

/-- The 12 one-byte getters, with their fields (42_register_map.md R210 to R221). -/
def scalarGetters : List (Instr × SettingField) :=
  [(.getPoll, .poll), (.getDpiIdx, .dpiIdx), (.getLodMm, .lodMm), (.getLodRipple, .lodRipple),
   (.getDebounce, .debounce), (.getMotionSync, .motionSync), (.getAngleSnap, .angleSnap),
   (.getLedEffect, .ledEffect), (.getLedBright, .ledBright), (.getLedEnabled, .ledEnabled),
   (.getBreatheSpeed, .breatheSpeed), (.getAutosleep, .autosleep)]

/-- A hexadecimal digit of either case and its value (43_value_codecs.md R252). -/
def IsHexDigit (c : Ascii) (n : Nat) : Prop :=
  (n ≤ 9 ∧ c.toNat = 0x30 + n) ∨ (10 ≤ n ∧ n ≤ 15 ∧ (c.toNat = 0x61 + (n - 10) ∨ c.toNat = 0x41 + (n - 10)))

/-- The lower-case hexadecimal digit of a number (43_value_codecs.md R253). -/
def IsLowerHexDigit (c : Ascii) (n : Nat) : Prop :=
  (n ≤ 9 ∧ c.toNat = 0x30 + n) ∨ (10 ≤ n ∧ n ≤ 15 ∧ c.toNat = 0x61 + (n - 10))

/-- A text of hexadecimal digits with the given values, after at most one `#` (43_value_codecs.md R252). -/
def IsHexText (text : List Ascii) (digits : List Nat) : Prop :=
  ∃ cs, (text = cs ∨ text = hashSign :: cs) ∧ List.Forall₂ IsHexDigit cs digits

/-- The state after a setter's one write was answered: the group and its checksum sent and stored
(42_register_map.md R200). -/
def State.settingWritten (s : State) (f : SettingField) (raw : List Byte) (more : List (List Byte))
    (ss : List LinkResult) (rs : List RecvDraw) : State :=
  { (s.exchanged (memwriteQFrame s.cfg (s.cfg.params.addr f) (raw ++ [cksum raw])) more ss rs).ended .ok .none with
    cache := Memory.writeRun s.cache (s.cfg.params.addr f).toNat (raw ++ [cksum raw]) }

end Sys2Proof.Machine

namespace Sys2Proof

/-- A setter of a setting field. -/
def Instr.isSetter : Instr → Bool
  | .setPoll _ | .setDpiIdx _ | .setLodMm _ | .setLodRipple _ | .setDebounce _ | .setMotionSync _ | .setAngleSnap _
  | .setLedEffect _ | .setLedBright _ | .setLedEnabled _ | .setBreatheSpeed _ | .setAutosleep _ | .setDpi _ _
  | .setColor _ _ => true
  | _ => false

/-- A string the device sends: no host operation. -/
def Instr.isArrival : Instr → Bool
  | .powerR _ _ | .restoreR | .memreadR _ _ | .memwriteR _ _ _ | .profgetR _ _ | .profsetR _ _ | .statusR _ _
  | .eventN0 _ _ | .eventN1 _ _ | .eventN2 _ _ => true
  | _ => false

/-- A request frame or an acknowledgement the sequencer sends. -/
def Instr.isRequest : Instr → Bool
  | .powerQ | .restoreQ | .memreadQ _ _ | .memwriteQ _ _ | .profgetQ | .profsetQ _ | .evtack0 | .evtack1 | .evtack2 => true
  | _ => false

/-- The operations that may write cells: MAP_WRITE, MAP_BULK_READ, the setters; and those that clear them, RESTORE and
OPEN (10_state.md R23). -/
def Instr.writesCache (i : Instr) : Bool :=
  i.isSetter ||
  match i with
  | .mapWrite _ | .mapBulkRead | .restore | .openSession => true
  | _ => false

/-- The operations that may write the profile register (10_state.md R27, 44_session.md R304). -/
def Instr.writesProfile : Instr → Bool
  | .getProfile | .setProfile _ | .snapshot | .openSession => true
  | _ => false

/-- The operations that use the transport, Send or Recv (44_session.md R295), and the request rows. -/
def Instr.usesTransport (i : Instr) : Bool :=
  i.isSetter || i.isRequest ||
  match i with
  | .flush | .mapWrite _ | .mapBulkRead | .restore | .getProfile | .setProfile _ | .powerQuery | .recv | .sendEvtack _
  | .snapshot => true
  | _ => false

/-- The operations whose first transport step is a request that awaits a reply of one command, with the request and that
command (44_session.md R293): GET_PROFILE and SNAPSHOT while the profile is unknown, and the request rows of log entry 6
among them. -/
def Instr.awaits (cfg : Config) : Instr → Option (Frame × Byte)
  | .restore | .restoreQ => some (restoreQFrame cfg, cfg.params.cmdRestore)
  | .getProfile | .snapshot | .profgetQ => some (profgetQFrame cfg, cfg.params.cmdProfget)
  | .setProfile n | .profsetQ n => some (profsetQFrame cfg n, cfg.params.cmdProfset)
  | .powerQuery | .powerQ => some (powerQFrame cfg, cfg.params.cmdPower)
  | .memreadQ a n => some (memreadQFrame cfg a n, cfg.params.cmdMemread)
  | _ => none

/-- The pairs MAP_WRITE takes: 1 to 10, no address twice, no gap (42_register_map.md R191). -/
def PairsPass (pairs : List (Byte × Byte)) : Prop :=
  1 ≤ pairs.length ∧ pairs.length ≤ 10 ∧ (pairs.map Prod.fst).Nodup ∧
  ∀ p ∈ pairs, ∀ q ∈ pairs, ∀ x : Nat, p.1.toNat < x → x < q.1.toNat → ∃ r ∈ pairs, r.1.toNat = x

/-- The arguments of a transport operation pass its checks (44_session.md R295): MAP_WRITE (42_register_map.md R191),
SEND_EVTACK (44_session.md R303), the setters (R230 to R243, by the codecs of 43_value_codecs.md), and the ranges of the
memory requests (41_payload.md R152, R153). The others take no argument that is checked. -/
def Instr.ArgsPass : Instr → Prop
  | .mapWrite pairs => PairsPass pairs
  | .sendEvtack a => a.toNat ≤ 2
  | .setPoll v => v.toNat ∈ [125, 250, 500, 1000]
  | .setDpiIdx v => v.toNat ≤ 3
  | .setLodMm v | .setDebounce v | .setLedBright v | .setBreatheSpeed v => v.toNat ≤ 255
  | .setLodRipple v | .setMotionSync v | .setAngleSnap v | .setLedEnabled v => v.toNat ≤ 1
  | .setLedEffect v => v.toNat ≤ 2
  | .setAutosleep v => v.toNat % 10 = 0 ∧ v.toNat ≤ 2550
  | .setDpi a v => a.toNat ≤ 3 ∧ 50 ≤ v.toNat ∧ v.toNat ≤ 26000 ∧ v.toNat % 50 = 0
  | .setColor a text => a.toNat ≤ 3 ∧ ∃ digits : List Nat, digits.length = 6 ∧ Machine.IsHexText text digits
  | .memreadQ a n => 1 ≤ n.toNat ∧ n.toNat ≤ 10 ∧ a.toNat + n.toNat ≤ 256
  | .memwriteQ a vals => 1 ≤ vals.length ∧ vals.length ≤ 10 ∧ a.toNat + vals.length ≤ 256
  | _ => True

/-- The operations that touch nothing but the result port: the codecs, the encoders, CLASSIFY, the frame codec, MAP_GET
and the getters (44_session.md R295, 60_exceptions.md R342). -/
def Instr.onlyAnswers (i : Instr) : Bool :=
  !(i.usesTransport || i.isArrival) &&
  match i with
  | .openSession | .closeSession => false
  | _ => true

end Sys2Proof
end

