-- ==== Sys2Proof/Certificates/Slice0/Obligations.lean ====
section
/-! DEFINITION. The statements for the provers, from the numbered rules of spec/. -/

open Sys2Proof Sys2Proof.Machine

/-! ## Words and steps -/

/-- Decode and encode agree, for every well-formed instruction under every configuration (R92, R97). That a frame row is
an instruction of the link, and which row a frame of any command is, are the model's choices (log entries 6, 10). -/
def Obligations.DecodeUndoesEncode : Prop :=
  ∀ (cfg : Config) (i : Instr), i.wf cfg = true → decode cfg (encode cfg i) = .ok i

/-- A string on the link that the decoder takes has one meaning: the instruction is well formed, and its encoding is the
string again (R91, R92). No byte of it is dropped, and no two strings give one instruction. The rows of the link are the
model's choice (log entries 6, 10). -/
def Obligations.EncodeUndoesLinkDecode : Prop :=
  ∀ (cfg : Config) (b : List Byte) (i : Instr),
    (decode cfg (.tx b) = .ok i → i.wf cfg = true ∧ i.isRequest = true ∧ encode cfg i = .tx b) ∧
    (decode cfg (.rx b) = .ok i → i.wf cfg = true ∧ i.isArrival = true ∧ encode cfg i = .rx b)

/-- Words of the op-code table, written out from R97: op byte, then a, n, v, bytes, pairs, text. -/
def Obligations.OpBytesSelectOperations : Prop :=
  ∀ cfg : Config,
    decode cfg (.op ⟨0x01, 0, 0, 0, [0x1F, 0x1F, 0x00], [], []⟩) = .ok (.cksum [0x1F, 0x1F, 0x00]) ∧
    decode cfg (.op ⟨0x12, 0xF6, 10, 0, [], [], []⟩) = .ok (.encMemread 0xF6 10) ∧
    decode cfg (.op ⟨0x31, 0, 0, 0, [], [(0xC8, 0x77)], []⟩) = .ok (.mapWrite [(0xC8, 0x77)]) ∧
    decode cfg (.op ⟨0x40, 0, 0, 1600, [], [], []⟩) = .ok (.dpiEnc 1600) ∧
    decode cfg (.op ⟨0x5C, 1, 0, 0, [], [], []⟩) = .ok (.getDpi 1) ∧
    decode cfg (.op ⟨0x6C, 2, 0, 1600, [], [], []⟩) = .ok (.setDpi 2 1600) ∧
    decode cfg (.op ⟨0x74, 2, 0, 0, [], [], []⟩) = .ok (.setProfile 2) ∧
    decode cfg (.op ⟨0x5F, 0, 0, 0, [], [], []⟩) = .ok .snapshot

/-- A step takes the next input and runs the instruction it decodes to (R10, R38); the port keeps the inputs behind
it. That the inputs wait in State is the model's choice (log entry 8). -/
def Obligations.StepRunsTheDecodedInstruction : Prop :=
  ∀ (s : State) (x : Input) (rest : List Input) (i : Instr),
    s.inputs = x :: rest → decode s.cfg x = .ok i → step s = exec i { s with inputs := rest }

/-- R100: an op byte outside the table raises IllegalOp and changes no state but the result port (and the operation
port, the model's own field, which moves on: log entry 8). -/
def Obligations.IllegalOpRaises : Prop :=
  ∀ (s : State) (r : OpRecord) (rest : List Input),
    s.inputs = .op r :: rest → r.bytes.length ≤ 255 →
    (r.op.toNat = 0 ∨ (0x04 ≤ r.op.toNat ∧ r.op.toNat ≤ 0x0F) ∨ (0x19 ≤ r.op.toNat ∧ r.op.toNat ≤ 0x1F) ∨
      (0x21 ≤ r.op.toNat ∧ r.op.toNat ≤ 0x2F) ∨ (0x33 ≤ r.op.toNat ∧ r.op.toNat ≤ 0x3F) ∨ r.op.toNat = 0x5E ∨
      (0x6E ≤ r.op.toNat ∧ r.op.toNat ≤ 0x6F) ∨ 0x79 ≤ r.op.toNat) →
    ∃ v, step s = .next ({ s with inputs := rest }.ended .illegalOp v)

/-- R33, R346: any byte string the device appends between operations, a valid frame or not, only enters the RX queue.
That such a string is an input of the port is the model's choice (log entries 8, 11). -/
def Obligations.DeviceStringOnlyEntersQueue : Prop :=
  ∀ (s : State) (b : List Byte) (rest : List Input),
    s.inputs = .rx b :: rest → step s = .next { s with inputs := rest, rxq := s.rxq ++ [b] }

/-! ## Value codecs -/

/-- R250: DPI_ENC. The third byte is hi << 2 or hi << 6 for hi at most 2, that is 68 times hi. -/
def Obligations.DpiEncodeRule : Prop :=
  ∀ (v : Word32) (s : State),
    (v.toNat < 50 ∨ 26000 < v.toNat → exec (.dpiEnc v) s = .next (s.ended .invalidValue (.nat v.toNat))) ∧
    (50 ≤ v.toNat → v.toNat ≤ 26000 → v.toNat % 50 ≠ 0 →
      exec (.dpiEnc v) s = .next (s.ended .alignmentError (.nat v.toNat))) ∧
    (50 ≤ v.toNat → v.toNat ≤ 26000 → v.toNat % 50 = 0 →
      ∃ lo p : Byte, lo.toNat = (v.toNat / 50 - 1) % 256 ∧ p.toNat = (v.toNat / 50 - 1) / 256 * 68 ∧
        exec (.dpiEnc v) s = .next (s.ended .ok (.bytes [lo, lo, p])))

/-- R251: DPI_DEC, its three checks, no range check, and the length check of decision D50. -/
def Obligations.DpiDecodeRule : Prop :=
  ∀ (s : State),
    (∀ b0 b1 b2 : Byte,
      (b0 = b1 ∧ b2.toNat / 16 = b2.toNat % 16 ∧ b2.toNat % 4 = 0 →
        exec (.dpiDec [b0, b1, b2]) s =
          .next (s.ended .ok (.nat ((b1.toNat + 1) * 50 + b2.toNat % 16 / 4 * 12800)))) ∧
      (¬ (b0 = b1 ∧ b2.toNat / 16 = b2.toNat % 16 ∧ b2.toNat % 4 = 0) →
        ∃ v, exec (.dpiDec [b0, b1, b2]) s = .next (s.ended .invalidEncoding v))) ∧
    (∀ bs : List Byte, bs.length ≠ 3 → ∃ v, exec (.dpiDec bs) s = .next (s.ended .invalidEncoding v))

/-- R267(a): whatever DPI_ENC answers with OK, DPI_DEC takes back to the value. -/
def Obligations.DpiRoundTrip : Prop :=
  ∀ (v : Word32) (s t : State) (raw : List Byte),
    exec (.dpiEnc v) s = .next t → t.result = some ⟨.ok, .bytes raw⟩ →
    exec (.dpiDec raw) t = .next (t.ended .ok (.nat v.toNat))

/-- R252: COLOR_ENC takes six hexadecimal digits, either case, after an optional `#`, and nothing else. -/
def Obligations.ColorEncodeRule : Prop :=
  ∀ (text : List Ascii) (s : State),
    (∀ r1 r0 g1 g0 b1 b0 : Nat, IsHexText text [r1, r0, g1, g0, b1, b0] →
      ∃ r g b : Byte, r.toNat = 16 * r1 + r0 ∧ g.toNat = 16 * g1 + g0 ∧ b.toNat = 16 * b1 + b0 ∧
        exec (.colorEnc text) s = .next (s.ended .ok (.bytes [r, g, b]))) ∧
    ((∀ digits : List Nat, digits.length = 6 → ¬ IsHexText text digits) →
      exec (.colorEnc text) s = .next (s.ended .invalidValue (.text text)))

/-- R253: COLOR_DEC answers `#` and six lower-case digits for every three bytes, and COLOR_ENC takes its answer back to
the bytes; any other number of bytes raises InvalidEncoding (D50). -/
def Obligations.ColorDecodeRule : Prop :=
  ∀ (s : State),
    (∀ r g b : Byte, ∃ c1 c2 c3 c4 c5 c6 : Ascii,
      IsLowerHexDigit c1 (r.toNat / 16) ∧ IsLowerHexDigit c2 (r.toNat % 16) ∧ IsLowerHexDigit c3 (g.toNat / 16) ∧
      IsLowerHexDigit c4 (g.toNat % 16) ∧ IsLowerHexDigit c5 (b.toNat / 16) ∧ IsLowerHexDigit c6 (b.toNat % 16) ∧
      exec (.colorDec [r, g, b]) s = .next (s.ended .ok (.text [0x23, c1, c2, c3, c4, c5, c6])) ∧
      exec (.colorEnc [0x23, c1, c2, c3, c4, c5, c6]) s = .next (s.ended .ok (.bytes [r, g, b]))) ∧
    (∀ bs : List Byte, bs.length ≠ 3 → ∃ v, exec (.colorDec bs) s = .next (s.ended .invalidEncoding v))

/-- R254, R255: the boolean codec, never coerced. -/
def Obligations.BooleanCodecRules : Prop :=
  ∀ (s : State),
    (exec (.boolEnc 0) s = .next (s.ended .ok (.byte 0))) ∧
    (exec (.boolEnc 1) s = .next (s.ended .ok (.byte 1))) ∧
    (∀ v : Word32, 2 ≤ v.toNat → exec (.boolEnc v) s = .next (s.ended .invalidValue (.nat v.toNat))) ∧
    (exec (.boolDec [0]) s = .next (s.ended .ok (.bool false))) ∧
    (exec (.boolDec [1]) s = .next (s.ended .ok (.bool true))) ∧
    (∀ b : Byte, 2 ≤ b.toNat → exec (.boolDec [b]) s = .next (s.ended .invalidEncoding (.byte b))) ∧
    (∀ bs : List Byte, bs.length ≠ 1 → ∃ v, exec (.boolDec bs) s = .next (s.ended .invalidEncoding v))

/-- R256, R257: the effect codec, for every choice of the three codes. -/
def Obligations.EffectCodecRules : Prop :=
  ∀ (s : State),
    (exec (.effectEnc 0) s = .next (s.ended .ok (.byte s.cfg.params.effectOff))) ∧
    (exec (.effectEnc 1) s = .next (s.ended .ok (.byte s.cfg.params.effectSteady))) ∧
    (exec (.effectEnc 2) s = .next (s.ended .ok (.byte s.cfg.params.effectBreathe))) ∧
    (∀ v : Word32, 3 ≤ v.toNat → exec (.effectEnc v) s = .next (s.ended .invalidValue (.nat v.toNat))) ∧
    (exec (.effectDec [s.cfg.params.effectOff]) s = .next (s.ended .ok (.effect .off))) ∧
    (exec (.effectDec [s.cfg.params.effectSteady]) s = .next (s.ended .ok (.effect .steady))) ∧
    (exec (.effectDec [s.cfg.params.effectBreathe]) s = .next (s.ended .ok (.effect .breathe))) ∧
    (∀ b : Byte, b ∉ [s.cfg.params.effectOff, s.cfg.params.effectSteady, s.cfg.params.effectBreathe] →
      exec (.effectDec [b]) s = .next (s.ended .invalidEncoding (.byte b))) ∧
    (∀ bs : List Byte, bs.length ≠ 1 → ∃ v, exec (.effectDec bs) s = .next (s.ended .invalidEncoding v))

/-- R258, R259: the polling codec, for every choice of the four codes. -/
def Obligations.PollCodecRules : Prop :=
  ∀ (s : State),
    (exec (.pollEnc 125) s = .next (s.ended .ok (.byte s.cfg.params.poll125))) ∧
    (exec (.pollEnc 250) s = .next (s.ended .ok (.byte s.cfg.params.poll250))) ∧
    (exec (.pollEnc 500) s = .next (s.ended .ok (.byte s.cfg.params.poll500))) ∧
    (exec (.pollEnc 1000) s = .next (s.ended .ok (.byte s.cfg.params.poll1000))) ∧
    (∀ v : Word32, v.toNat ∉ [125, 250, 500, 1000] →
      exec (.pollEnc v) s = .next (s.ended .invalidValue (.nat v.toNat))) ∧
    (exec (.pollDec [s.cfg.params.poll125]) s = .next (s.ended .ok (.nat 125))) ∧
    (exec (.pollDec [s.cfg.params.poll250]) s = .next (s.ended .ok (.nat 250))) ∧
    (exec (.pollDec [s.cfg.params.poll500]) s = .next (s.ended .ok (.nat 500))) ∧
    (exec (.pollDec [s.cfg.params.poll1000]) s = .next (s.ended .ok (.nat 1000))) ∧
    (∀ b : Byte, b ∉ [s.cfg.params.poll125, s.cfg.params.poll250, s.cfg.params.poll500, s.cfg.params.poll1000] →
      exec (.pollDec [b]) s = .next (s.ended .invalidEncoding (.byte b))) ∧
    (∀ bs : List Byte, bs.length ≠ 1 → ∃ v, exec (.pollDec bs) s = .next (s.ended .invalidEncoding v))

/-- R260 to R265: the byte, index and autosleep codecs. -/
def Obligations.ScalarCodecRules : Prop :=
  ∀ (s : State),
    (∀ (v : Word32) (b : Byte), v.toNat = b.toNat → exec (.byteEnc v) s = .next (s.ended .ok (.byte b))) ∧
    (∀ v : Word32, 255 < v.toNat → exec (.byteEnc v) s = .next (s.ended .invalidValue (.nat v.toNat))) ∧
    (∀ b : Byte, exec (.byteDec [b]) s = .next (s.ended .ok (.nat b.toNat))) ∧
    (∀ (v : Word32) (b : Byte), v.toNat ≤ 3 → v.toNat = b.toNat →
      exec (.idxEnc v) s = .next (s.ended .ok (.byte b))) ∧
    (∀ v : Word32, 3 < v.toNat → exec (.idxEnc v) s = .next (s.ended .invalidValue (.nat v.toNat))) ∧
    (∀ b : Byte, b.toNat ≤ 3 → exec (.idxDec [b]) s = .next (s.ended .ok (.nat b.toNat))) ∧
    (∀ b : Byte, 3 < b.toNat → exec (.idxDec [b]) s = .next (s.ended .invalidEncoding (.byte b))) ∧
    (∀ (v : Word32) (b : Byte), v.toNat = 10 * b.toNat → exec (.sleepEnc v) s = .next (s.ended .ok (.byte b))) ∧
    (∀ v : Word32, v.toNat % 10 ≠ 0 ∨ 2550 < v.toNat →
      exec (.sleepEnc v) s = .next (s.ended .invalidValue (.nat v.toNat))) ∧
    (∀ b : Byte, exec (.sleepDec [b]) s = .next (s.ended .ok (.nat (b.toNat * 10)))) ∧
    (∀ bs : List Byte, bs.length ≠ 1 →
      (∃ v, exec (.byteDec bs) s = .next (s.ended .invalidEncoding v)) ∧
      (∃ v, exec (.idxDec bs) s = .next (s.ended .invalidEncoding v)) ∧
      (∃ v, exec (.sleepDec bs) s = .next (s.ended .invalidEncoding v)))

/-! ## Frame codec -/

/-- R130, R131: CKSUM answers the byte that brings the sum to 0x55 modulo 256. -/
def Obligations.ChecksumRule : Prop :=
  ∀ (bytes : List Byte) (s : State),
    (bytes.length ≤ 16 →
      ∃ b : Byte, (b.toNat + (bytes.map BitVec.toNat).sum) % 256 = 0x55 ∧
        exec (.cksum bytes) s = .next (s.ended .ok (.byte b))) ∧
    (16 < bytes.length → exec (.cksum bytes) s = .next (s.ended .invalidValue (.nat bytes.length)))

/-- R132: FRAME_ENC. -/
def Obligations.FrameEncodeRule : Prop :=
  ∀ (c : Byte) (data : List Byte) (s : State),
    (data.length ≤ 14 →
      ∃ f : Frame, f.header = s.cfg.params.header ∧ f.command = c ∧
        (∀ j, j < data.length → some (f.byteAt (2 + j)) = data[j]?) ∧
        (∀ j, data.length ≤ j → j < 14 → f.byteAt (2 + j) = 0) ∧
        (f.checksum.toNat + (f.body.map BitVec.toNat).sum) % 256 = 0x55 ∧
        exec (.frameEnc c data) s = .next (s.ended .ok (.frame f))) ∧
    (14 < data.length → exec (.frameEnc c data) s = .next (s.ended .invalidValue (.nat data.length)))

/-- R133, R93: FRAME_DEC checks the length, then the checksum, and nothing else; R135: a 17-byte string passes exactly
when its bytes sum to 0x55 modulo 256. -/
def Obligations.FrameDecodeRule : Prop :=
  ∀ (b : List Byte) (s : State),
    (b.length ≠ 17 → exec (.frameDec b) s = .next (s.ended .formatError (.nat b.length))) ∧
    (b.length = 17 → b[16]? ≠ some (cksum (b.take 16)) →
      ∃ v, exec (.frameDec b) s = .next (s.ended .formatError v)) ∧
    (b.length = 17 → b[16]? = some (cksum (b.take 16)) →
      ∃ f : Frame, f.toBytes = b ∧ exec (.frameDec b) s = .next (s.ended .ok (.frame f))) ∧
    (b.length = 17 →
      ((∃ f, exec (.frameDec b) s = .next (s.ended .ok (.frame f))) ↔ (b.map BitVec.toNat).sum % 256 = 0x55))

/-- R136: what FRAME_ENC answers with OK, FRAME_DEC of its 17 bytes answers again, with the command and the data, padded
with zeros. -/
def Obligations.FrameRoundTrip : Prop :=
  ∀ (c : Byte) (data : List Byte) (s : State), data.length ≤ 14 →
    ∃ f : Frame, exec (.frameEnc c data) s = .next (s.ended .ok (.frame f)) ∧
      exec (.frameDec f.toBytes) s = .next (s.ended .ok (.frame f)) ∧
      f.command = c ∧ f.data.bytes = data ++ List.replicate (14 - data.length) 0

/-! ## Payload registry -/

/-- R150, R151, R154 to R158: the request encoders without an argument check. -/
def Obligations.RequestEncoderRules : Prop :=
  ∀ (s : State),
    (∃ f, exec .encPowerQ s = .next (s.ended .ok (.frame f)) ∧
      IsRequest s.cfg f s.cfg.params.cmdPower (fun _ => 0)) ∧
    (∃ f, exec .encRestore s = .next (s.ended .ok (.frame f)) ∧
      IsRequest s.cfg f s.cfg.params.cmdRestore (fun _ => 0)) ∧
    (∃ f, exec .encProfget s = .next (s.ended .ok (.frame f)) ∧
      IsRequest s.cfg f s.cfg.params.cmdProfget (fun _ => 0)) ∧
    (∀ a : Byte, ∃ f, exec (.encProfset a) s = .next (s.ended .ok (.frame f)) ∧
      IsRequest s.cfg f s.cfg.params.cmdProfset (fun pos => if pos = s.cfg.params.profilePos then a else 0)) ∧
    (∃ f, exec .encEvtack0 s = .next (s.ended .ok (.frame f)) ∧
      IsRequest s.cfg f s.cfg.params.cmdEvent (fun pos => if pos = 6 then s.cfg.params.evtSel0 else 0)) ∧
    (∃ f, exec .encEvtack1 s = .next (s.ended .ok (.frame f)) ∧
      IsRequest s.cfg f s.cfg.params.cmdEvent (fun pos => if pos = 6 then s.cfg.params.evtSel1 else 0)) ∧
    (∃ f, exec .encEvtack2 s = .next (s.ended .ok (.frame f)) ∧
      IsRequest s.cfg f s.cfg.params.cmdEvent (fun pos => if pos = 6 then s.cfg.params.evtSel2 else 0))

/-- R152, R153: the memory request encoders. -/
def Obligations.MemoryRequestEncoderRules : Prop :=
  ∀ (s : State),
    (∀ a n : Byte, 1 ≤ n.toNat → n.toNat ≤ 10 → a.toNat + n.toNat ≤ 256 →
      ∃ f, exec (.encMemread a n) s = .next (s.ended .ok (.frame f)) ∧
        IsRequest s.cfg f s.cfg.params.cmdMemread (fun pos => if pos = 4 then a else if pos = 5 then n else 0)) ∧
    (∀ a n : Byte, n.toNat < 1 ∨ 10 < n.toNat ∨ 256 < a.toNat + n.toNat →
      exec (.encMemread a n) s = .next (s.ended .invalidRange (.pair a.toNat n.toNat))) ∧
    (∀ (a : Byte) (vals : List Byte), 1 ≤ vals.length → vals.length ≤ 10 → a.toNat + vals.length ≤ 256 →
      ∃ f, exec (.encMemwrite a vals) s = .next (s.ended .ok (.frame f)) ∧
        IsRequest s.cfg f s.cfg.params.cmdMemwrite (fun pos =>
          if pos = 4 then a else if pos = 5 then BitVec.ofNat 8 vals.length
          else if 6 ≤ pos then vals.getD (pos - 6) 0 else 0)) ∧
    (∀ (a : Byte) (vals : List Byte), vals.length < 1 ∨ 10 < vals.length ∨ 256 < a.toNat + vals.length →
      exec (.encMemwrite a vals) s = .next (s.ended .invalidRange (.pair a.toNat vals.length)))

/-- R160 to R167: CLASSIFY of a valid frame, by its command byte; of any other string, FormatError. -/
def Obligations.ClassifyRule : Prop :=
  ∀ (b : List Byte) (s : State),
    (∀ why, Frame.parse b = .error why → ∃ v, exec (.classify b) s = .next (s.ended .formatError v)) ∧
    (∀ f, Frame.parse b = .ok f →
      (f.command = s.cfg.params.cmdPower →
        ((f.byteAt s.cfg.params.powerFlagPos).toNat ≤ 1 →
          exec (.classify b) s = .next (s.ended .ok (.variant ⟨f, .powerEcho
            ⟨(f.byteAt s.cfg.params.powerPctPos).toNat,
             (f.byteAt s.cfg.params.powerMvPos).toNat * 256 + (f.byteAt (s.cfg.params.powerMvPos + 1)).toNat,
             (f.byteAt s.cfg.params.powerFlagPos).toNat == 1⟩⟩))) ∧
        (2 ≤ (f.byteAt s.cfg.params.powerFlagPos).toNat →
          exec (.classify b) s =
            .next (s.ended .invalidEncoding (.byte (f.byteAt s.cfg.params.powerFlagPos))))) ∧
      (f.command = s.cfg.params.cmdRestore →
        exec (.classify b) s = .next (s.ended .ok (.variant ⟨f, .restoreEcho⟩))) ∧
      (f.command = s.cfg.params.cmdProfget →
        exec (.classify b) s =
          .next (s.ended .ok (.variant ⟨f, .profileGetResp (f.byteAt s.cfg.params.profilePos)⟩))) ∧
      (f.command = s.cfg.params.cmdProfset →
        exec (.classify b) s =
          .next (s.ended .ok (.variant ⟨f, .profileSetEcho (f.byteAt s.cfg.params.profilePos)⟩))) ∧
      (f.command = s.cfg.params.cmdEvent →
        (∀ k : Fin 3, f.byteAt 6 = s.cfg.params.evtSel k →
          exec (.classify b) s = .next (s.ended .ok (.variant ⟨f, .event k⟩))) ∧
        ((∀ k : Fin 3, f.byteAt 6 ≠ s.cfg.params.evtSel k) →
          exec (.classify b) s = .next (s.ended .decodeError (.byte (f.byteAt 6))))) ∧
      (f.command = s.cfg.params.cmdMemread ∨ f.command = s.cfg.params.cmdMemwrite ∨
          f.command = s.cfg.params.cmdStatus ∨ f.command ∉ s.cfg.params.commands →
        exec (.classify b) s = .next (s.ended .unsupportedDecode (.frame f))))

/-! ## The register-map cache. The transport's answers are premises, given as the draws of `env` (log entry 2). -/

/-- R190: MAP_GET answers the byte of a populated cell and raises NotPopulated for any other, in any session state. -/
def Obligations.MapGetRule : Prop :=
  ∀ (a : Byte) (s : State),
    (∀ v, Memory.read s.cache a.toNat = some v → exec (.mapGet a) s = .next (s.ended .ok (.byte v))) ∧
    (Memory.read s.cache a.toNat = none → exec (.mapGet a) s = .next (s.ended .notPopulated (.nat a.toNat)))

/-- R191: MAP_WRITE of 1 to 10 contiguous cells, the pairs in any order, sends one request. After one valid reply of any
command the cells are written and nothing else changes. Where the write fails (IOError, R290) or the one receive does
(R291: Timeout, IOError, or FormatError for a string that is no valid frame, which is taken and not skipped), the operation
ends with that error and no cell is written. That the frame joins the history under an IOError too, and that a delivery
from an empty queue is a timeout, are log entries 5 and 4. -/
def Obligations.MapWriteCompletes : Prop :=
  ∀ (s : State) (lo : Nat) (vals : List Byte) (pairs : List (Byte × Byte)),
    s.sess = .connected → 1 ≤ vals.length → vals.length ≤ 10 → lo + vals.length ≤ 256 →
    pairs.Perm ((List.range vals.length).map fun i => (BitVec.ofNat 8 (lo + i), vals.getD i 0)) →
    (∀ (b : List Byte) (more : List (List Byte)) (ss : List LinkResult) (rs : List RecvDraw) (f : Frame),
      s.RepliedBy b more ss rs → Frame.parse b = .ok f →
      exec (.mapWrite pairs) s =
        .next { (s.exchanged (memwriteQFrame s.cfg (BitVec.ofNat 8 lo) vals) more ss rs).ended .ok .none with
          cache := Memory.writeRun s.cache lo vals }) ∧
    (∀ (st : Status) (q : List (List Byte)) (e : Env), s.env.ReplyFails st q e →
      ∃ v, exec (.mapWrite pairs) s =
        .next ((s.waited (memwriteQFrame s.cfg (BitVec.ofNat 8 lo) vals) q e).ended st v))

/-- R191, R345: no pairs, more than ten, a repeated address, or addresses that leave a gap: InvalidRange before the
session is looked at and before any frame, and nothing else changed. -/
def Obligations.MapWriteRejectsBadRange : Prop :=
  ∀ (s : State) (pairs : List (Byte × Byte)),
    (pairs.length = 0 ∨ 10 < pairs.length ∨ ¬ (pairs.map Prod.fst).Nodup ∨
      (∃ p ∈ pairs, ∃ q ∈ pairs, ∃ x : Nat, p.1.toNat < x ∧ x < q.1.toNat ∧ ∀ r ∈ pairs, r.1.toNat ≠ x)) →
    ∃ v, exec (.mapWrite pairs) s = .next (s.ended .invalidRange v)

/-- R191, R342: whatever the reply, MAP_WRITE writes at most the named cells, none where it fails, and touches neither
the session nor the profile. -/
def Obligations.MapWriteFrame : Prop :=
  ∀ (s t : State) (pairs : List (Byte × Byte)), exec (.mapWrite pairs) s = .next t →
    t.sess = s.sess ∧ t.profile = s.profile ∧ t.cfg = s.cfg ∧ t.inputs = s.inputs ∧
    (t.tx = s.tx ∨ ∃ q, t.tx = s.tx ++ [q]) ∧
    (∀ a, a ∉ pairs.map (fun p => p.1.toNat) → Memory.read t.cache a = Memory.read s.cache a) ∧
    (t.Failed → t.cache = s.cache)

/-- R192: MAP_BULK_READ under a device that answers every window, behind at most MAX_DISCARD frames of other commands each,
with an echo of its start and length: 20 requests sent in order, cells 0x00..0xC7 as the replies give them, every other
cell as before. Where the reply of a later window does not echo it, the operation ends with ProtocolViolation: that request
is the last one sent, and the windows before it stay stored. -/
def Obligations.BulkReadCompletes : Prop :=
  ∀ (s : State) (fs : List Frame) (q : List (List Byte)) (e : Env),
    s.sess = .connected → WindowsAnswered s.cfg s.rxq s.env fs q e →
    (fs.length = 20 →
      ∃ m, HoldsWindows m s.cache fs ∧
        exec .mapBulkRead s = .next ((s.bulkMoved 20 m q e).ended .ok .none)) ∧
    (∀ (f : Frame) (q' : List (List Byte)) (e' : Env), fs.length < 20 →
      e.Answers s.cfg s.cfg.params.cmdMemread f q' e' → ¬ EchoesWindow fs.length f →
      ∃ m v, HoldsWindows m s.cache fs ∧
        exec .mapBulkRead s = .next ((s.bulkMoved (fs.length + 1) m q' e').ended .protocolViolation v))

/-- R193: whatever the device and the transport do, a MAP_BULK_READ that returns OK has sent exactly the 20 requests,
starts 0, 10, ..., 190, each of length 10, and has populated the cells 0x00..0xC7 and no other (R73, R394). However it
ends, the windows stored are exactly those whose replies were accepted (R71, R342): valid frames of the memory-read command
that echo their window, with the reply's bytes in its cells and every other cell as before. Those are all 20 on OK; else
one fewer than the requests sent, or none and no request while disconnected. That a request counts as sent although its
write raised IOError is log entry 5. -/
def Obligations.BulkReadWindows : Prop :=
  ∀ (s t : State), exec .mapBulkRead s = .next t →
    (t.result = some ⟨.ok, .none⟩ →
      t.tx = s.tx ++ bulkRequests s.cfg 20 ∧
      (∀ a, a < 200 → t.valid a = true) ∧
      (∀ a, 200 ≤ a → Memory.read t.cache a = Memory.read s.cache a)) ∧
    ∃ replies : List Frame,
      (∀ k f, replies[k]? = some f →
        f.checksum = cksum f.body ∧ f.command = s.cfg.params.cmdMemread ∧ EchoesWindow k f) ∧
      HoldsWindows t.cache s.cache replies ∧
      ((t.result = some ⟨.ok, .none⟩ ∧ replies.length = 20) ∨
        (t.Failed ∧ s.sess = .connected ∧ replies.length < 20 ∧
          t.tx = s.tx ++ bulkRequests s.cfg (replies.length + 1)) ∨
        (t.Failed ∧ s.sess = .disconnected ∧ replies = [] ∧ t.tx = s.tx))

/-! ## Getters -/

/-- R212, R214, R218, R220: the getters of plain bytes; R213, R215, R216, R219: the getters of flags. -/
def Obligations.ByteAndFlagGetterRules : Prop :=
  ∀ (s : State) (b : Byte),
    (∀ g ∈ [(Instr.getLodMm, SettingField.lodMm), (.getDebounce, .debounce), (.getLedBright, .ledBright),
        (.getBreatheSpeed, .breatheSpeed)],
      Memory.read s.cache (s.cfg.params.addr g.2).toNat = some b →
        exec g.1 s = .next (s.ended .ok (.nat b.toNat))) ∧
    (∀ g ∈ [(Instr.getLodRipple, SettingField.lodRipple), (.getMotionSync, .motionSync),
        (.getAngleSnap, .angleSnap), (.getLedEnabled, .ledEnabled)],
      Memory.read s.cache (s.cfg.params.addr g.2).toNat = some b →
        (b.toNat ≤ 1 → exec g.1 s = .next (s.ended .ok (.bool (b.toNat == 1)))) ∧
        (2 ≤ b.toNat → exec g.1 s = .next (s.ended .invalidEncoding (.byte b))))

/-- R210, R211, R217, R221: the getters of the polling rate, the mode index, the effect and the autosleep time. -/
def Obligations.CodedGetterRules : Prop :=
  ∀ (s : State) (b : Byte),
    (Memory.read s.cache s.cfg.params.addrPoll.toNat = some b →
      (∀ r, b = s.cfg.params.pollCode r → exec .getPoll s = .next (s.ended .ok (.nat (pollHz r)))) ∧
      ((∀ r, b ≠ s.cfg.params.pollCode r) → exec .getPoll s = .next (s.ended .invalidEncoding (.byte b)))) ∧
    (Memory.read s.cache s.cfg.params.addrDpiIdx.toNat = some b →
      (b.toNat ≤ 3 → exec .getDpiIdx s = .next (s.ended .ok (.nat b.toNat))) ∧
      (3 < b.toNat → exec .getDpiIdx s = .next (s.ended .invalidEncoding (.byte b)))) ∧
    (Memory.read s.cache s.cfg.params.addrLedEffect.toNat = some b →
      (∀ e, b = s.cfg.params.effectCode e → exec .getLedEffect s = .next (s.ended .ok (.effect e))) ∧
      ((∀ e, b ≠ s.cfg.params.effectCode e) →
        exec .getLedEffect s = .next (s.ended .invalidEncoding (.byte b)))) ∧
    (Memory.read s.cache s.cfg.params.addrAutosleep.toNat = some b →
      exec .getAutosleep s = .next (s.ended .ok (.nat (b.toNat * 10))))

/-- R202, R222, R223: the getters of a mode slot. -/
def Obligations.ModeGetterRules : Prop :=
  ∀ (s : State) (a : Byte),
    (∀ m : Fin 4, a.toNat = m.val → ∀ b0 b1 b2 : Byte,
      (HoldsRun s.cache (s.cfg.params.addr (.dpi m)).toNat [b0, b1, b2] →
        (b0 = b1 → b2.toNat / 16 = b2.toNat % 16 → b2.toNat % 4 = 0 →
          exec (.getDpi a) s = .next (s.ended .ok (.nat ((b1.toNat + 1) * 50 + b2.toNat % 16 / 4 * 12800)))) ∧
        (b0 ≠ b1 ∨ b2.toNat / 16 ≠ b2.toNat % 16 ∨ b2.toNat % 4 ≠ 0 →
          ∃ v, exec (.getDpi a) s = .next (s.ended .invalidEncoding v))) ∧
      (HoldsRun s.cache (s.cfg.params.addr (.color m)).toNat [b0, b1, b2] →
        ∃ c1 c2 c3 c4 c5 c6 : Ascii,
          IsLowerHexDigit c1 (b0.toNat / 16) ∧ IsLowerHexDigit c2 (b0.toNat % 16) ∧
          IsLowerHexDigit c3 (b1.toNat / 16) ∧ IsLowerHexDigit c4 (b1.toNat % 16) ∧
          IsLowerHexDigit c5 (b2.toNat / 16) ∧ IsLowerHexDigit c6 (b2.toNat % 16) ∧
          exec (.getColor a) s = .next (s.ended .ok (.text [0x23, c1, c2, c3, c4, c5, c6])))) ∧
    (4 ≤ a.toNat →
      exec (.getDpi a) s = .next (s.ended .invalidValue (.nat a.toNat)) ∧
      exec (.getColor a) s = .next (s.ended .invalidValue (.nat a.toNat)))

/-- R201, R385: a getter raises NotPopulated at the first unpopulated address of its group, and changes nothing else. -/
def Obligations.GettersNeedPopulatedCells : Prop :=
  ∀ (s : State),
    (∀ g ∈ scalarGetters, Memory.read s.cache (s.cfg.params.addr g.2).toNat = none →
      exec g.1 s = .next (s.ended .notPopulated (.nat (s.cfg.params.addr g.2).toNat))) ∧
    (∀ (a : Byte) (m : Fin 4) (i : Nat), a.toNat = m.val → i < 3 →
      ((∀ j, j < i → Memory.read s.cache ((s.cfg.params.addr (.dpi m)).toNat + j) ≠ none) →
        Memory.read s.cache ((s.cfg.params.addr (.dpi m)).toNat + i) = none →
        exec (.getDpi a) s = .next (s.ended .notPopulated (.nat ((s.cfg.params.addr (.dpi m)).toNat + i)))) ∧
      ((∀ j, j < i → Memory.read s.cache ((s.cfg.params.addr (.color m)).toNat + j) ≠ none) →
        Memory.read s.cache ((s.cfg.params.addr (.color m)).toNat + i) = none →
        exec (.getColor a) s = .next (s.ended .notPopulated (.nat ((s.cfg.params.addr (.color m)).toNat + i)))))

/-! ## Setters -/

/-- R232, R234, R238, R240 and R231, R241: the setters of plain bytes, of the mode index and of the autosleep time, in
their domains, under one valid reply. -/
def Obligations.NumberSettersComplete : Prop :=
  ∀ (s : State) (v : Word32) (b : List Byte) (more : List (List Byte)) (ss : List LinkResult) (rs : List RecvDraw)
    (f : Frame) (x : Byte),
    s.sess = .connected → s.RepliedBy b more ss rs → Frame.parse b = .ok f →
    (v.toNat = x.toNat → ∀ g ∈ [(Instr.setLodMm, SettingField.lodMm), (.setDebounce, .debounce),
        (.setLedBright, .ledBright), (.setBreatheSpeed, .breatheSpeed)],
      exec (g.1 v) s = .next (s.settingWritten g.2 [x] more ss rs)) ∧
    (v.toNat = x.toNat → v.toNat ≤ 3 → exec (.setDpiIdx v) s = .next (s.settingWritten .dpiIdx [x] more ss rs)) ∧
    (v.toNat = 10 * x.toNat → exec (.setAutosleep v) s = .next (s.settingWritten .autosleep [x] more ss rs))

/-- R233, R235, R236, R239 and R230, R237: the setters of flags, of the polling rate and of the effect. -/
def Obligations.CodedSettersComplete : Prop :=
  ∀ (s : State) (v : Word32) (b : List Byte) (more : List (List Byte)) (ss : List LinkResult) (rs : List RecvDraw)
    (f : Frame),
    s.sess = .connected → s.RepliedBy b more ss rs → Frame.parse b = .ok f →
    (∀ x : Byte, v.toNat = x.toNat → v.toNat ≤ 1 → ∀ g ∈ [(Instr.setLodRipple, SettingField.lodRipple),
        (.setMotionSync, .motionSync), (.setAngleSnap, .angleSnap), (.setLedEnabled, .ledEnabled)],
      exec (g.1 v) s = .next (s.settingWritten g.2 [x] more ss rs)) ∧
    (∀ r : PollRate, v.toNat = pollHz r →
      exec (.setPoll v) s = .next (s.settingWritten .poll [s.cfg.params.pollCode r] more ss rs)) ∧
    (∀ e : Effect, effectOfIndex v.toNat = some e →
      exec (.setLedEffect v) s = .next (s.settingWritten .ledEffect [s.cfg.params.effectCode e] more ss rs))

/-- R242, R243: SET_DPI of a mode 0..3 and a DPI value in range and aligned, and SET_COLOR of a mode 0..3 and a
well-formed colour, under one valid reply. -/
def Obligations.ModeSettersComplete : Prop :=
  ∀ (s : State) (a : Byte) (m : Fin 4) (b : List Byte) (more : List (List Byte)) (ss : List LinkResult)
    (rs : List RecvDraw) (f : Frame),
    s.sess = .connected → s.RepliedBy b more ss rs → Frame.parse b = .ok f → a.toNat = m.val →
    (∀ (v : Word32) (lo p : Byte), 50 ≤ v.toNat → v.toNat ≤ 26000 → v.toNat % 50 = 0 →
      lo.toNat = (v.toNat / 50 - 1) % 256 → p.toNat = (v.toNat / 50 - 1) / 256 * 68 →
      exec (.setDpi a v) s = .next (s.settingWritten (.dpi m) [lo, lo, p] more ss rs)) ∧
    (∀ (text : List Ascii) (r1 r0 g1 g0 b1 b0 : Nat) (r g x : Byte), IsHexText text [r1, r0, g1, g0, b1, b0] →
      r.toNat = 16 * r1 + r0 → g.toNat = 16 * g1 + g0 → x.toNat = 16 * b1 + b0 →
      exec (.setColor a text) s = .next (s.settingWritten (.color m) [r, g, x] more ss rs))

/-- R200, R202, R345: a value outside a setter's domain is refused with its codec's error before the session is looked at
and before any frame, and nothing else changes; the mode is checked before the value. With a value its codec takes, a setter
is the one MAP_WRITE of the group and its checksum, whatever comes of it. -/
def Obligations.SettersRejectBeforeSending : Prop :=
  ∀ (s : State) (v : Word32),
    (255 < v.toNat → ∀ i ∈ [Instr.setLodMm v, .setDebounce v, .setLedBright v, .setBreatheSpeed v],
      exec i s = .next (s.ended .invalidValue (.nat v.toNat))) ∧
    (1 < v.toNat → ∀ i ∈ [Instr.setLodRipple v, .setMotionSync v, .setAngleSnap v, .setLedEnabled v],
      exec i s = .next (s.ended .invalidValue (.nat v.toNat))) ∧
    (v.toNat ∉ [125, 250, 500, 1000] → exec (.setPoll v) s = .next (s.ended .invalidValue (.nat v.toNat))) ∧
    (3 < v.toNat → exec (.setDpiIdx v) s = .next (s.ended .invalidValue (.nat v.toNat))) ∧
    (2 < v.toNat → exec (.setLedEffect v) s = .next (s.ended .invalidValue (.nat v.toNat))) ∧
    (v.toNat % 10 ≠ 0 ∨ 2550 < v.toNat → exec (.setAutosleep v) s = .next (s.ended .invalidValue (.nat v.toNat))) ∧
    (∀ (a : Byte) (text : List Ascii), 4 ≤ a.toNat →
      exec (.setDpi a v) s = .next (s.ended .invalidValue (.nat a.toNat)) ∧
      exec (.setColor a text) s = .next (s.ended .invalidValue (.nat a.toNat))) ∧
    (∀ a : Byte, a.toNat < 4 →
      (v.toNat < 50 ∨ 26000 < v.toNat → exec (.setDpi a v) s = .next (s.ended .invalidValue (.nat v.toNat))) ∧
      (50 ≤ v.toNat → v.toNat ≤ 26000 → v.toNat % 50 ≠ 0 →
        exec (.setDpi a v) s = .next (s.ended .alignmentError (.nat v.toNat)))) ∧
    (∀ (a : Byte) (text : List Ascii), a.toNat < 4 →
      (∀ digits : List Nat, digits.length = 6 → ¬ IsHexText text digits) →
      exec (.setColor a text) s = .next (s.ended .invalidValue (.text text))) ∧
    (∀ g ∈ scalarSetters, ∀ raw, codecEnc s.cfg (codecOf g.2) v [] = .ok raw →
      exec (g.1 v) s = exec (.mapWrite (settingPairs s.cfg g.2 raw)) s) ∧
    (∀ (a : Byte) (m : Fin 4) (text : List Ascii) (raw : List Byte), a.toNat = m.val →
      (dpiEnc v = .ok raw → exec (.setDpi a v) s = exec (.mapWrite (settingPairs s.cfg (.dpi m) raw)) s) ∧
      (colorEnc text = .ok raw → exec (.setColor a text) s = exec (.mapWrite (settingPairs s.cfg (.color m) raw)) s))

/-- R24, R200: whatever the reply, a SET_DPI that ends with OK leaves its mode's GET_DPI answering the value set, and the
group's checksum cell holding the per-setting checksum. -/
def Obligations.SetDpiThenGetDpi : Prop :=
  ∀ (s t : State) (a : Byte) (v : Word32), exec (.setDpi a v) s = .next t → t.result = some ⟨.ok, .none⟩ →
    exec (.getDpi a) t = .next (t.ended .ok (.nat v.toNat)) ∧
    ∀ m : Fin 4, a.toNat = m.val → ∃ b0 b1 b2 c : Byte,
      HoldsRun t.cache (t.cfg.params.addr (.dpi m)).toNat [b0, b1, b2, c] ∧
      (c.toNat + b0.toNat + b1.toNat + b2.toNat) % 256 = 0x55

/-- R6(e), R29, R200: however it ends, a setter of one field leaves every cell of every other field, checksum included,
as it was. -/
def Obligations.SettersTouchOnlyTheirField : Prop :=
  ∀ (s t : State) (f g : SettingField) (i : Instr),
    ((∃ v, (∃ mk, (mk, f) ∈ scalarSetters ∧ i = mk v) ∨ ∃ (a : Byte) (m : Fin 4), a.toNat = m.val ∧
        f = .dpi m ∧ i = .setDpi a v) ∨
      ∃ (a : Byte) (m : Fin 4) (text : List Ascii), a.toNat = m.val ∧ f = .color m ∧ i = .setColor a text) →
    f ≠ g → exec i s = .next t →
    ∀ j, j ≤ g.size → Memory.read t.cache ((s.cfg.params.addr g).toNat + j) =
      Memory.read s.cache ((s.cfg.params.addr g).toNat + j)

/-! ## The session -/

/-- R300: OPEN, under one draw of the transport (log entries 2, 19). -/
def Obligations.OpenStartsSession : Prop :=
  ∀ (s : State),
    (s.sess = .connected → exec .openSession s = .next (s.ended .ok .none)) ∧
    (∀ os, s.sess = .disconnected → s.env.opens = .ok :: os →
      exec .openSession s = .next ({ s with
        sess := .connected, profile := none, cache := [], rxq := [], env := { s.env with opens := os } }.ended
          .ok .none)) ∧
    (∀ os, s.sess = .disconnected → s.env.opens = .ioError :: os →
      ∃ v, exec .openSession s = .next ({ s with env := { s.env with opens := os } }.ended .ioError v))

/-- R301 and the FLUSH operation of R290: CLOSE always ends with OK and writes only the session; FLUSH empties the RX
queue, and needs a session. -/
def Obligations.CloseAndFlushRules : Prop :=
  ∀ (s : State),
    exec .closeSession s = .next ({ s with sess := .disconnected }.ended .ok .none) ∧
    (s.sess = .connected → exec .flush s = .next ({ s with rxq := [] }.ended .ok .none)) ∧
    (s.sess = .disconnected → ∃ v, exec .flush s = .next (s.ended .notConnected v))

/-- R296: RESTORE clears the cache on an echo equal in all 17 bytes, and on no other, after at most MAX_DISCARD discarded
frames (R292); after a RESTORE that ended with OK, however it came to that, every MAP_GET raises NotPopulated. -/
def Obligations.RestoreRule : Prop :=
  ∀ (s : State),
    (∀ (f : Frame) (q : List (List Byte)) (e : Env),
      s.sess = .connected → s.env.Answers s.cfg s.cfg.params.cmdRestore f q e →
      (f = restoreQFrame s.cfg →
        exec .restore s = .next { (s.waited (restoreQFrame s.cfg) q e).ended .ok .none with cache := [] }) ∧
      (f ≠ restoreQFrame s.cfg →
        exec .restore s = .next ((s.waited (restoreQFrame s.cfg) q e).ended .protocolViolation (.frame f)))) ∧
    (∀ (t : State) (a : Byte), exec .restore s = .next t → t.result = some ⟨.ok, .none⟩ →
      exec (.mapGet a) t = .next (t.ended .notPopulated (.nat a.toNat)))

/-- R292, R297: GET_PROFILE. A known profile is answered without a frame. Else one request is sent; up to MAX_DISCARD
valid frames of other commands are discarded, and the first PROFGET frame gives the profile. -/
def Obligations.GetProfileRule : Prop :=
  ∀ (s : State), s.sess = .connected →
    (∀ n, s.profile = some n → exec .getProfile s = .next (s.ended .ok (.byte n))) ∧
    (∀ (f : Frame) (q : List (List Byte)) (e : Env),
      s.profile = none → s.env.Answers s.cfg s.cfg.params.cmdProfget f q e →
      exec .getProfile s = .next { (s.waited (profgetQFrame s.cfg) q e).ended .ok
        (.byte (f.byteAt s.cfg.params.profilePos)) with profile := some (f.byteAt s.cfg.params.profilePos) })

/-- R290 to R293, R390: the failing waits of every operation that awaits a command. RESTORE, SET_PROFILE, POWER_QUERY,
GET_PROFILE and SNAPSHOT with an unknown profile, and the request rows (log entries 6, 7) send one request; each window of
MAP_BULK_READ behind the windows answered so far sends one more. One valid frame of another command more than MAX_DISCARD
ends the wait with NoMatch, and what is behind it stays in the queue; a timeout, an I/O error or a string that is no valid
frame, behind at most MAX_DISCARD discarded ones, ends it with Timeout, IOError or FormatError; so does a write that fails,
with IOError. Nothing but the link changes; the windows before stay stored (R71). That a request joins the history under an
IOError too, and that a delivery from an empty queue is a timeout, are log entries 5 and 4. -/
def Obligations.FilterLoopIsBounded : Prop :=
  ∀ (s : State), s.sess = .connected →
    (∀ (i : Instr) (request : Frame) (c : Byte) (st : Status) (q : List (List Byte)) (e : Env),
      i.awaits s.cfg = some (request, c) → i.ArgsPass → (i = .getProfile ∨ i = .snapshot → s.profile = none) →
      s.env.AwaitFails s.cfg c st q e →
      ∃ v, exec i s = .next ((s.waited request q e).ended st v) ∧ (st = .noMatch → v = .byte c)) ∧
    (∀ (fs : List Frame) (st : Status) (q q' : List (List Byte)) (e e' : Env),
      WindowsAnswered s.cfg s.rxq s.env fs q e → fs.length < 20 →
      e.AwaitFails s.cfg s.cfg.params.cmdMemread st q' e' →
      ∃ m v, HoldsWindows m s.cache fs ∧ (st = .noMatch → v = .byte s.cfg.params.cmdMemread) ∧
        exec .mapBulkRead s = .next ((s.bulkMoved (fs.length + 1) m q' e').ended st v))

/-- R298: SET_PROFILE, after at most MAX_DISCARD discarded frames (R292), stores the profile on an echo that equals it, and
leaves it on one that does not. -/
def Obligations.SetProfileRule : Prop :=
  ∀ (s : State) (n : Byte) (f : Frame) (q : List (List Byte)) (e : Env),
    s.sess = .connected → s.env.Answers s.cfg s.cfg.params.cmdProfset f q e →
    (f.byteAt s.cfg.params.profilePos = n →
      exec (.setProfile n) s =
        .next { (s.waited (profsetQFrame s.cfg n) q e).ended .ok .none with profile := some n }) ∧
    (f.byteAt s.cfg.params.profilePos ≠ n →
      ∃ v, exec (.setProfile n) s = .next ((s.waited (profsetQFrame s.cfg n) q e).ended .protocolViolation v))

/-- R299: POWER_QUERY, after at most MAX_DISCARD discarded frames (R292). -/
def Obligations.PowerQueryRule : Prop :=
  ∀ (s : State) (f : Frame) (q : List (List Byte)) (e : Env),
    s.sess = .connected → s.env.Answers s.cfg s.cfg.params.cmdPower f q e →
    ((f.byteAt s.cfg.params.powerFlagPos).toNat ≤ 1 →
      exec .powerQuery s = .next ((s.waited (powerQFrame s.cfg) q e).ended .ok (.power
        ⟨(f.byteAt s.cfg.params.powerPctPos).toNat,
         (f.byteAt s.cfg.params.powerMvPos).toNat * 256 + (f.byteAt (s.cfg.params.powerMvPos + 1)).toNat,
         (f.byteAt s.cfg.params.powerFlagPos).toNat == 1⟩))) ∧
    (2 ≤ (f.byteAt s.cfg.params.powerFlagPos).toNat →
      ∃ v, exec .powerQuery s = .next ((s.waited (powerQFrame s.cfg) q e).ended .invalidEncoding v))

/-- R34, R291, R302: RECV takes the head of the RX queue, unflushed and unfiltered, and answers it as CLASSIFY does. A
receive whose draw is a timeout or an I/O error ends it with Timeout or IOError, the strings that arrived left in the queue,
and so does a delivery from a queue that is still empty, with Timeout (log entry 4). -/
def Obligations.RecvRule : Prop :=
  ∀ (s : State), s.sess = .connected →
    (∀ (b : List Byte) (q : List (List Byte)) (arr : List (List Byte)) (rs : List RecvDraw),
      s.env.recvs = ⟨arr, .deliver⟩ :: rs → s.rxq ++ arr = b :: q →
      (∀ f d, Frame.parse b = .ok f → classify s.cfg b = .ok d →
        exec .recv s =
          .next ({ s with rxq := q, env := { s.env with recvs := rs } }.ended .ok (.received f d))) ∧
      (∀ e, classify s.cfg b = .error e →
        exec .recv s = .next ({ s with rxq := q, env := { s.env with recvs := rs } }.ended e.status e.value))) ∧
    (∀ (arr : List (List Byte)) (rs : List RecvDraw),
      (s.env.recvs = ⟨arr, .timeout⟩ :: rs →
        ∃ v, exec .recv s =
          .next ({ s with rxq := s.rxq ++ arr, env := { s.env with recvs := rs } }.ended .timeout v)) ∧
      (s.env.recvs = ⟨arr, .ioError⟩ :: rs →
        ∃ v, exec .recv s =
          .next ({ s with rxq := s.rxq ++ arr, env := { s.env with recvs := rs } }.ended .ioError v)) ∧
      (s.env.recvs = ⟨arr, .deliver⟩ :: rs → s.rxq ++ arr = [] →
        ∃ v, exec .recv s = .next ({ s with env := { s.env with recvs := rs } }.ended .timeout v)))

/-- R303: SEND_EVTACK: the kind, then the session; then the acknowledgement is sent, nothing flushed or awaited. That the
frame joins the history under an IOError too is log entry 5. -/
def Obligations.SendEvtackRule : Prop :=
  ∀ (s : State) (a : Byte),
    (2 < a.toNat → exec (.sendEvtack a) s = .next (s.ended .invalidValue (.nat a.toNat))) ∧
    (a.toNat ≤ 2 → s.sess = .disconnected → ∃ v, exec (.sendEvtack a) s = .next (s.ended .notConnected v)) ∧
    (∀ (k : Fin 3) (ss : List LinkResult), a.toNat = k.val → s.sess = .connected →
      (s.env.sends = .ok :: ss →
        exec (.sendEvtack a) s = .next ({ s with
          tx := s.tx ++ [evtackFrame s.cfg k], env := { s.env with sends := ss } }.ended .ok .none)) ∧
      (s.env.sends = .ioError :: ss →
        ∃ v, exec (.sendEvtack a) s = .next ({ s with
          tx := s.tx ++ [evtackFrame s.cfg k], env := { s.env with sends := ss } }.ended .ioError v)))

/-- R304, R305: SNAPSHOT over a cache whose cells decode, under one power reply. The profile is known, or one exchange with
the device answers it first and it is known from then on (R297). The LED block has the effect, the brightness and the speed
only under their conditions, and cells of absent fields are not read. -/
def Obligations.SnapshotCompletes : Prop :=
  ∀ (s s1 : State) (n : Byte) (idx poll mm sleep deb : Nat) (ripple ms as : Bool) (modes : Fin 4 → Nat × List Ascii)
    (led : LedBlock) (f : Frame) (q : List (List Byte)) (e : Env) (power : PowerStatus)
    (raw : SettingField → List Byte),
    s.sess = .connected →
    ((s.profile = some n ∧ s1 = s) ∨
      (s.profile = none ∧ ∃ (g : Frame) (q1 : List (List Byte)) (e1 : Env),
        s.env.Answers s.cfg s.cfg.params.cmdProfget g q1 e1 ∧ n = g.byteAt s.cfg.params.profilePos ∧
        s1 = { s.waited (profgetQFrame s.cfg) q1 e1 with profile := some n })) →
    (∀ g, (raw g).length = g.size) →
    (∀ g ∈ SettingField.all, g ≠ .ledEffect → g ≠ .ledBright → g ≠ .breatheSpeed →
      HoldsRun s.cache (s.cfg.params.addr g).toNat (raw g)) →
    idxDec (raw .dpiIdx) = .ok idx → pollDec s.cfg (raw .poll) = .ok poll → byteDec (raw .lodMm) = .ok mm →
    boolDec (raw .lodRipple) = .ok ripple → boolDec (raw .motionSync) = .ok ms → boolDec (raw .angleSnap) = .ok as →
    sleepDec (raw .autosleep) = .ok sleep → byteDec (raw .debounce) = .ok deb →
    (∀ m : Fin 4, dpiDec (raw (.dpi m)) = .ok (modes m).1 ∧ colorDec (raw (.color m)) = .ok (modes m).2) →
    (boolDec (raw .ledEnabled) = .ok false ∧ led = ⟨false, none, none, none⟩ ∨
      boolDec (raw .ledEnabled) = .ok true ∧ HoldsRun s.cache (s.cfg.params.addr .ledEffect).toNat (raw .ledEffect) ∧
        (effectDec s.cfg (raw .ledEffect) = .ok .off ∧ led = ⟨true, some .off, none, none⟩ ∨
          (∃ x, effectDec s.cfg (raw .ledEffect) = .ok .steady ∧
            HoldsRun s.cache (s.cfg.params.addr .ledBright).toNat (raw .ledBright) ∧
            byteDec (raw .ledBright) = .ok x ∧ led = ⟨true, some .steady, some x, none⟩) ∨
          (∃ x, effectDec s.cfg (raw .ledEffect) = .ok .breathe ∧
            HoldsRun s.cache (s.cfg.params.addr .breatheSpeed).toNat (raw .breatheSpeed) ∧
            byteDec (raw .breatheSpeed) = .ok x ∧ led = ⟨true, some .breathe, none, some x⟩))) →
    s1.env.Answers s.cfg s.cfg.params.cmdPower f q e → decPower s.cfg f = .ok power →
    exec .snapshot s = .next ((s1.waited (powerQFrame s.cfg) q e).ended .ok (.snapshot
      ⟨n, idx, [⟨(modes 0).1, (modes 0).2⟩, ⟨(modes 1).1, (modes 1).2⟩, ⟨(modes 2).1, (modes 2).2⟩,
        ⟨(modes 3).1, (modes 3).2⟩], poll, led, mm, ripple, ms, as, sleep, deb, power⟩))

/-! ## Frame rows -/

/-- The request rows of R92 as sequencer steps. POWER_Q, RESTORE_Q, MEMREAD_Q, PROFGET_Q and PROFSET_Q check their range,
flush, send (R290) and take the reply R293 gives their request, so that no request is left outstanding (R76); their value is
that reply. MEMWRITE_Q takes
the next valid frame of any command, or fails as MAP_WRITE does. The acknowledgements are sent and nothing is flushed or
awaited (R293, R303). That a row is such a step is the model's choice (log entries 6 and 7); the history under an IOError
is log entry 5. -/
def Obligations.RequestRowsSend : Prop :=
  ∀ (s : State), s.sess = .connected →
    (∀ (i : Instr) (request : Frame) (c : Byte) (f : Frame) (q : List (List Byte)) (e : Env),
      i.isRequest = true → i.awaits s.cfg = some (request, c) → i.ArgsPass → s.env.Answers s.cfg c f q e →
      exec i s = .next ((s.waited request q e).ended .ok (.frame f))) ∧
    (∀ (a : Byte) (vals : List Byte), 1 ≤ vals.length → vals.length ≤ 10 → a.toNat + vals.length ≤ 256 →
      (∀ (b : List Byte) (more : List (List Byte)) (ss : List LinkResult) (rs : List RecvDraw) (f : Frame),
        s.RepliedBy b more ss rs → Frame.parse b = .ok f →
        exec (.memwriteQ a vals) s =
          .next ((s.exchanged (memwriteQFrame s.cfg a vals) more ss rs).ended .ok (.frame f))) ∧
      (∀ (st : Status) (q : List (List Byte)) (e : Env), s.env.ReplyFails st q e →
        ∃ v, exec (.memwriteQ a vals) s = .next ((s.waited (memwriteQFrame s.cfg a vals) q e).ended st v))) ∧
    (∀ (i : Instr) (k : Fin 3) (ss : List LinkResult),
      (i, k) ∈ [(Instr.evtack0, (0 : Fin 3)), (.evtack1, 1), (.evtack2, 2)] →
      (s.env.sends = .ok :: ss →
        exec i s = .next ({ s with
          tx := s.tx ++ [evtackFrame s.cfg k], env := { s.env with sends := ss } }.ended .ok .none)) ∧
      (s.env.sends = .ioError :: ss →
        ∃ v, exec i s = .next ({ s with
          tx := s.tx ++ [evtackFrame s.cfg k], env := { s.env with sends := ss } }.ended .ioError v)))

/-- The received rows of R92 as device steps: the 17 bytes enter the RX queue and nothing else changes (R33, R346). That
a row is such a step is the model's choice (log entry 6). -/
def Obligations.ReceivedRowsArrive : Prop :=
  ∀ (s : State) (h : Byte) (d : FrameData),
    exec .restoreR s = .next { s with rxq := s.rxq ++ [(restoreQFrame s.cfg).toBytes] } ∧
    (∀ c, exec (.memwriteR h c d) s =
      .next { s with rxq := s.rxq ++ [h :: c :: d.bytes ++ [cksum (h :: c :: d.bytes)]] }) ∧
    (∀ i c, (i, c) ∈ [(Instr.powerR h d, s.cfg.params.cmdPower), (.memreadR h d, s.cfg.params.cmdMemread),
        (.profgetR h d, s.cfg.params.cmdProfget), (.profsetR h d, s.cfg.params.cmdProfset),
        (.statusR h d, s.cfg.params.cmdStatus), (.eventN0 h d, s.cfg.params.cmdEvent),
        (.eventN1 h d, s.cfg.params.cmdEvent), (.eventN2 h d, s.cfg.params.cmdEvent)] →
      exec i s = .next { s with rxq := s.rxq ++ [h :: c :: d.bytes ++ [cksum (h :: c :: d.bytes)]] })

/-! ## The whole machine -/

/-- R380: the state after reset. -/
def Obligations.ResetState : Prop :=
  State.reset.sess = .disconnected ∧ State.reset.profile = none ∧ (∀ a, State.reset.valid a = false) ∧
  State.reset.rxq = [] ∧ State.reset.tx = []

/-- The invariant holds after reset. That the counters read 0 between operations is log entry 13. -/
def Obligations.ResetMeetsInv : Prop := State.reset.Inv

/-- Every step keeps the invariant: the cache's canonical form, the header and checksum of every sent frame, the
counters at 0 (log entry 13). -/
def Obligations.StepKeepsInv : Prop :=
  ∀ s t : State, s.Inv → step s = .next t → t.Inv

/-- R340: every host operation and every request row (log entry 6) ends in a next state with one result at the host port; none stops
the machine. -/
def Obligations.OperationsEndWithOneStatus : Prop :=
  ∀ (i : Instr) (s : State), i.isArrival = false → ∃ t r, exec i s = .next t ∧ t.result = some r

/-- R38, R39: no instruction writes the configuration or the port, and none takes a frame out of the send history. -/
def Obligations.ConfigAndPortUntouched : Prop :=
  ∀ (i : Instr) (s t : State), exec i s = .next t →
    t.cfg = s.cfg ∧ t.inputs = s.inputs ∧ ∃ sent, t.tx = s.tx ++ sent

/-- R295, R342: the codecs, the encoders, CLASSIFY, the frame codec, MAP_GET and the getters touch nothing but the result
port, in any session state. -/
def Obligations.PureOperationsOnlyAnswer : Prop :=
  ∀ (i : Instr) (s : State), i.onlyAnswers = true → ∃ status v, exec i s = .next (s.ended status v)

/-- R295, R345: while disconnected, an operation that uses the transport ends with NotConnected exactly where its arguments
pass, and with an argument error where they do not; either way nothing else changes: no frame is sent, no string is taken.
The request rows among them are log entries 6 and 7. -/
def Obligations.TransportNeedsSession : Prop :=
  ∀ (i : Instr) (s : State), i.usesTransport = true → s.sess = .disconnected →
    (i.ArgsPass → ∃ v, exec i s = .next (s.ended .notConnected v)) ∧
    (¬ i.ArgsPass → ∃ status v, exec i s = .next (s.ended status v) ∧
      status ∈ [.invalidValue, .alignmentError, .invalidRange])

/-- R23: cells are populated only by MAP_BULK_READ, MAP_WRITE and the setters, and unpopulated only by RESTORE and
OPEN; no other instruction changes the cache. -/
def Obligations.OnlyNamedOperationsWriteCache : Prop :=
  ∀ (i : Instr) (s t : State), exec i s = .next t →
    (i.writesCache = false → t.cache = s.cache) ∧
    ((i = .restore ∨ i = .openSession) → t.cache = s.cache ∨ t.cache = []) ∧
    (i ≠ .restore → i ≠ .openSession → ∀ a, s.valid a = true → t.valid a = true)

/-- R26, R27, R306: the session changes only by OPEN and CLOSE, the profile only by GET_PROFILE, SET_PROFILE, SNAPSHOT and
OPEN; and only OPEN forgets it. -/
def Obligations.SessionAndProfileWriters : Prop :=
  ∀ (i : Instr) (s t : State), exec i s = .next t →
    (i ≠ .openSession → i ≠ .closeSession → t.sess = s.sess) ∧
    (i.writesProfile = false → t.profile = s.profile) ∧
    (i ≠ .openSession → s.profile ≠ none → t.profile ≠ none)

/-- R342, R306: a failed operation leaves the session as it was; the cache too, but for MAP_BULK_READ; the profile too,
but for SNAPSHOT. -/
def Obligations.FailedOperationsKeepState : Prop :=
  ∀ (i : Instr) (s t : State), exec i s = .next t → i.isArrival = false → t.Failed →
    t.sess = s.sess ∧ (i ≠ .mapBulkRead → t.cache = s.cache) ∧ (i ≠ .snapshot → t.profile = s.profile)
end

