-- ==== Sys2Proof/Laws/Frames.lean ====
section
/-! SUPPORT. The frame functions: checksums, the bytes of a frame, validation, and the byte at each position of a frame
the block builds. -/

namespace Sys2Proof

/-! ## Checksums -/

/-- The checksum brings the sum of the bytes to 0x55 modulo 256 (40_frame_codec.md R130, R135). -/
theorem cksum_add_byteSum (bs : List Byte) : ((cksum bs).toNat + byteSum bs) % 256 = 0x55 := by
  have h : ((cksum bs).toNat : Int) = (0x55 - (byteSum bs : Int)) % 256 := by
    simp [cksum, BitVec.toNat_ofInt, Config.cksumSeed]
    omega
  omega

/-- A byte that brings the sum to 0x55 modulo 256 is the checksum. -/
theorem eq_cksum_of_add (bs : List Byte) (b : Byte) (h : (b.toNat + byteSum bs) % 256 = 0x55) : b = cksum bs := by
  have := cksum_add_byteSum bs
  apply BitVec.eq_of_toNat_eq
  omega

@[simp] theorem byteSum_append (as bs : List Byte) : byteSum (as ++ bs) = byteSum as + byteSum bs := by
  simp [byteSum]

@[simp] theorem byteSum_cons (b : Byte) (bs : List Byte) : byteSum (b :: bs) = b.toNat + byteSum bs := by
  simp [byteSum]

@[simp] theorem byteSum_nil : byteSum [] = 0 := rfl

/-! ## The bytes of a frame -/

@[simp] theorem Frame.body_length (f : Frame) : f.body.length = 16 := by simp [Frame.body, f.data.len]

@[simp] theorem Frame.toBytes_length (f : Frame) : f.toBytes.length = 17 := by simp [Frame.toBytes]

@[simp] theorem Frame.seal_header (h c : Byte) (d : FrameData) : (Frame.seal h c d).header = h := rfl
@[simp] theorem Frame.seal_command (h c : Byte) (d : FrameData) : (Frame.seal h c d).command = c := rfl
@[simp] theorem Frame.seal_data (h c : Byte) (d : FrameData) : (Frame.seal h c d).data = d := rfl

/-- A sealed frame has the checksum its body calls for. -/
theorem Frame.seal_checksum (h c : Byte) (d : FrameData) :
    (Frame.seal h c d).checksum = Sys2Proof.cksum (Frame.seal h c d).body := rfl

/-- A frame with a right checksum is its parts, sealed. -/
theorem Frame.eq_seal (f : Frame) (h : f.checksum = Sys2Proof.cksum f.body) : f = .seal f.header f.command f.data := by
  cases f
  simpa [Frame.seal, Frame.body] using h

/-- Frames with the same bytes are the same. -/
theorem Frame.toBytes_injective {f g : Frame} (h : f.toBytes = g.toBytes) : f = g := by
  obtain ⟨fh, fc, ⟨fd, fl⟩, fk⟩ := f
  obtain ⟨gh, gc, ⟨gd, gl⟩, gk⟩ := g
  simp only [Frame.toBytes, Frame.body, List.cons_append, List.cons.injEq] at h
  obtain ⟨rfl, rfl, h⟩ := h
  obtain ⟨rfl, hk⟩ := List.append_inj h (by simp [fl, gl])
  simp only [List.cons.injEq, and_true] at hk
  subst hk
  rfl

/-- Splitting 17 bytes loses none. -/
theorem Frame.toBytes_ofBytes (s : List Byte) (h : s.length = 17) : (Frame.ofBytes s h).toBytes = s := by
  apply List.ext_getElem
  · simp [h]
  · intro i h1 h2
    simp only [Frame.toBytes, Frame.body, Frame.ofBytes]
    match i with
    | 0 => simp [h]
    | 1 => simp [h]
    | i + 2 =>
      simp only [List.cons_append, List.getElem_cons_succ]
      by_cases hi : i < 14
      · rw [List.getElem_append_left (by simp; omega)]
        simp [Nat.add_comm]
      · have : i = 14 := by omega
        subst this
        rw [List.getElem_append_right (by simp)]
        simp [h]

/-- Splitting the bytes of a frame gives it back. -/
theorem Frame.ofBytes_toBytes (f : Frame) : Frame.ofBytes f.toBytes f.toBytes_length = f :=
  Frame.toBytes_injective (Frame.toBytes_ofBytes ..)

/-- FRAME_DEC's check: a string is accepted exactly as the frame whose bytes it is, with a right checksum
(40_frame_codec.md R133). -/
theorem Frame.parse_eq_ok (s : List Byte) (f : Frame) :
    Frame.parse s = .ok f ↔ f.toBytes = s ∧ f.checksum = Sys2Proof.cksum f.body := by
  constructor
  · intro h
    simp only [Frame.parse] at h
    split at h
    · split at h
      · cases h
        exact ⟨Frame.toBytes_ofBytes .., ‹_›⟩
      · cases h
    · cases h
  · rintro ⟨rfl, hc⟩
    simp only [Frame.parse, Frame.toBytes_length, ↓reduceDIte, Frame.ofBytes_toBytes, hc, ↓reduceIte]

/-- A sealed frame's bytes are accepted. -/
@[simp] theorem Frame.parse_seal (h c : Byte) (d : FrameData) :
    Frame.parse (Frame.seal h c d).toBytes = .ok (.seal h c d) :=
  (Frame.parse_eq_ok ..).2 ⟨rfl, rfl⟩

/-! ## Frames the block builds -/

@[simp] theorem FrameData.ofFn_bytes (g : Nat → Byte) : (FrameData.ofFn g).bytes = (List.range 14).map g := rfl

/-- The byte at a data position. -/
theorem Frame.byteAt_data (f : Frame) (pos : Nat) (h2 : 2 ≤ pos) (h15 : pos ≤ 15) :
    f.byteAt pos = f.data.bytes.getD (pos - 2) 0 := by
  obtain ⟨k, rfl⟩ : ∃ k, pos = k + 2 := ⟨pos - 2, by omega⟩
  have := f.data.len
  simp only [Frame.byteAt, Frame.toBytes, Frame.body, List.cons_append, List.getD_cons_succ, Nat.add_sub_cancel]
  rw [List.getD_append _ _ _ _ (by omega)]

/-- The byte at each data position of `build` (41_payload.md). -/
theorem Frame.byteAt_build (cfg : Config) (c : Byte) (fields : List (Nat × Byte)) (pos : Nat) (h2 : 2 ≤ pos)
    (h15 : pos ≤ 15) : (Frame.build cfg c fields).byteAt pos = (fields.lookup pos).getD 0 := by
  rw [Frame.byteAt_data _ _ h2 h15]
  have hp : pos - 2 + 2 = pos := by omega
  simp [Frame.build, Frame.encode, FrameData.ofFields, List.getD, List.getElem?_range (show pos - 2 < 14 by omega), hp]

@[simp] theorem Frame.build_header (cfg : Config) (c : Byte) (fields : List (Nat × Byte)) :
    (Frame.build cfg c fields).header = cfg.params.header := rfl
@[simp] theorem Frame.build_command (cfg : Config) (c : Byte) (fields : List (Nat × Byte)) :
    (Frame.build cfg c fields).command = c := rfl
theorem Frame.build_checksum (cfg : Config) (c : Byte) (fields : List (Nat × Byte)) :
    (Frame.build cfg c fields).checksum = Sys2Proof.cksum (Frame.build cfg c fields).body := rfl

/-- The value fields of a memory write hold the values in order from their first position. -/
theorem lookup_valueFields (pos : Nat) (vals : List Byte) (q : Nat) :
    (valueFields pos vals).lookup q = if pos ≤ q then vals[q - pos]? else none := by
  induction vals generalizing pos with
  | nil => simp [valueFields]
  | cons v vs ih =>
    simp only [valueFields, List.lookup_cons, ih]
    by_cases h : q = pos
    · subst h
      simp
    · have : (q == pos) = false := by simpa using h
      rw [this]
      by_cases hq : pos + 1 ≤ q
      · simp only [hq, ↓reduceIte]
        rw [if_pos (by omega), show q - pos = (q - (pos + 1)) + 1 by omega, List.getElem?_cons_succ]
      · simp only [hq, ↓reduceIte]
        rw [if_neg (by omega)]

end Sys2Proof
end

