-- ==== Sys2Proof/Laws/Decode.lean ====
section
/-! SUPPORT. The decoder on the strings the encoder writes: a sealed frame received, a request frame sent, and the
operands a request frame carries. -/

namespace Sys2Proof

/-- A received sealed frame is decoded as the row it has. -/
theorem decode_rx_seal (cfg : Config) (header command : Byte) (data : FrameData) :
    decode cfg (.rx (Frame.seal header command data).toBytes) = .ok (arrivalOf cfg (.seal header command data)) := by
  simp [decode, decodeRx]

/-- A sent frame with a right checksum is decoded as a request where its command names one and the request's own frame
is the frame again. -/
theorem decode_tx_of_request {cfg : Config} {f : Frame} {i : Instr} (hc : f.checksum = Sys2Proof.cksum f.body)
    (hr : requestOf cfg f = some i) (hw : i.wf cfg = true) (hq : requestFrame cfg i = some f) :
    decode cfg (.tx f.toBytes) = .ok i := by
  simp [decode, decodeTx, (Frame.parse_eq_ok f.toBytes f).2 ⟨rfl, hc⟩, hr, hw, hq]

theorem lookup_cons_eq_ite (k pos : Nat) (a : Byte) (l : List (Nat × Byte)) :
    List.lookup pos ((k, a) :: l) = if pos = k then some a else l.lookup pos := by
  rw [List.lookup_cons]
  by_cases h : pos = k
  · simp [h]
  · rw [beq_false_of_ne h, if_neg h]

theorem byteAt_memreadQ (cfg : Config) (a n : Byte) :
    (memreadQFrame cfg a n).byteAt 4 = a ∧ (memreadQFrame cfg a n).byteAt 5 = n := by
  constructor <;> rw [memreadQFrame, Frame.byteAt_build _ _ _ _ (by decide) (by decide)] <;>
    simp [lookup_cons_eq_ite]

theorem byteAt_memwriteQ (cfg : Config) (a : Byte) (vals : List Byte) :
    (memwriteQFrame cfg a vals).byteAt 4 = a ∧ (memwriteQFrame cfg a vals).byteAt 5 = BitVec.ofNat 8 vals.length := by
  constructor <;> rw [memwriteQFrame, Frame.byteAt_build _ _ _ _ (by decide) (by decide)] <;>
    simp [lookup_cons_eq_ite]

/-- The value bytes of a memory write are its values in order (30_encoding.md R95). -/
theorem values_memwriteQ (cfg : Config) (a : Byte) (vals : List Byte) (h : vals.length ≤ 10) :
    ((memwriteQFrame cfg a vals).toBytes.drop 6).take vals.length = vals := by
  apply List.ext_getElem
  · simp
    omega
  · intro i h1 h2
    have hp := Frame.byteAt_build cfg cfg.params.cmdMemwrite
      ((Config.memAddrPos, a) :: (Config.memLenPos, BitVec.ofNat 8 vals.length) :: valueFields Config.memDataPos vals)
      (6 + i) (by omega) (by omega)
    rw [lookup_cons_eq_ite, lookup_cons_eq_ite, lookup_valueFields, if_neg (show ¬ 6 + i = 4 by omega),
      if_neg (show ¬ 6 + i = 5 by omega), if_pos (by simp), show 6 + i - Config.memDataPos = i by simp,
      List.getElem?_eq_getElem h2] at hp
    simp only [List.getElem_take, List.getElem_drop]
    rw [Frame.byteAt, List.getD, List.getElem?_eq_getElem (by simp; omega)] at hp
    exact hp

theorem byteAt_profsetQ (cfg : Config) (n : Byte) : (profsetQFrame cfg n).byteAt cfg.params.profilePos = n := by
  have hpos := cfg.ok.2.2.2.2.1.1
  rw [profsetQFrame, Frame.byteAt_build _ _ _ _ hpos.1 hpos.2]
  simp

theorem byteAt_evtack (cfg : Config) (k : Fin 3) : (evtackFrame cfg k).byteAt 6 = cfg.params.evtSel k := by
  rw [evtackFrame, Frame.byteAt_build _ _ _ _ (by decide) (by decide)]
  simp

/-- The data of a restore request is 14 zeros, and no other data is all zeros (30_encoding.md R91). -/
theorem data_restoreQ (cfg : Config) (d : FrameData) :
    d.bytes.all (· == 0) = true ↔ d = (restoreQFrame cfg).data := by
  have hz : (restoreQFrame cfg).data.bytes = List.replicate 14 0 := rfl
  constructor
  · intro h
    obtain ⟨b, hl⟩ := d
    have hb : b = List.replicate 14 0 := List.eq_replicate_iff.2 ⟨hl, by simpa using h⟩
    subst hb
    rfl
  · rintro rfl
    rw [hz]
    decide

end Sys2Proof
end

