-- ==== Sys2Proof/Laws/Memory.lean ====
section
/-! SUPPORT. The cells of the cache: reading after a write, and that every memory operation keeps the canonical form. -/

namespace Sys2Proof.Machine

@[simp] theorem Memory.read_nil (a : Nat) : Memory.read [] a = none := rfl

/-- Reading after a write: the written cell holds the value, every other cell what it held. -/
theorem Memory.read_write (m : Memory) (a b : Nat) (v : Byte) :
    Memory.read (Memory.write m a v) b = if b = a then some v else Memory.read m b := by
  induction m with
  | nil => simp [Memory.write, Memory.read]
  | cons c m ih =>
    obtain ⟨k, w⟩ := c
    simp only [Memory.write]
    split
    · simp [Memory.read]
    · split
      · subst_vars
        simp only [Memory.read]
        split <;> rfl
      · simp only [Memory.read, ih]
        split
        · rw [if_neg (by omega)]
        · rfl

/-- Reading after a run of writes: the written cells hold the values in order, every other cell what it held. -/
theorem Memory.read_writeRun (m : Memory) (a : Nat) (vs : List Byte) (b : Nat) :
    Memory.read (Memory.writeRun m a vs) b = if a ≤ b ∧ b < a + vs.length then vs[b - a]? else Memory.read m b := by
  induction vs generalizing m a with
  | nil => rw [if_neg (by simp)]; rfl
  | cons v vs ih =>
    rw [Memory.writeRun, ih, Memory.read_write]
    by_cases hb : b = a
    · subst hb
      simp
    · by_cases hr : a + 1 ≤ b ∧ b < a + 1 + vs.length
      · rw [if_pos hr, if_pos ⟨by omega, by simp; omega⟩, show b - a = (b - (a + 1)) + 1 by omega,
          List.getElem?_cons_succ]
      · rw [if_neg hr, if_neg hb, if_neg (by simp; omega)]

/-- A run of writes leaves every cell outside it as it was. -/
theorem Memory.read_writeRun_outside (m : Memory) (a : Nat) (vs : List Byte) (b : Nat)
    (h : b < a ∨ a + vs.length ≤ b) : Memory.read (Memory.writeRun m a vs) b = Memory.read m b := by
  rw [Memory.read_writeRun, if_neg (by omega)]

/-- A run of writes is read back. -/
theorem holdsRun_writeRun (m : Memory) (a : Nat) (vs : List Byte) : HoldsRun (Memory.writeRun m a vs) a vs := by
  intro i hi
  rw [Memory.read_writeRun, if_pos (by omega)]
  congr 1
  omega

/-- A populated cell stays populated under writes. -/
theorem Memory.read_writeRun_isSome (m : Memory) (a : Nat) (vs : List Byte) (b : Nat)
    (h : (Memory.read m b).isSome) : (Memory.read (Memory.writeRun m a vs) b).isSome := by
  rw [Memory.read_writeRun]
  split
  · rw [List.getElem?_eq_getElem (by omega)]
    rfl
  · exact h

/-! ## The canonical form -/

@[simp] theorem Memory.wf_nil : Memory.wf [] = true := rfl

theorem Memory.wf_cons_cons (a b : Nat) (v w : Byte) (m : Memory) :
    Memory.wf ((a, v) :: (b, w) :: m) = true ↔ a < b ∧ Memory.wf ((b, w) :: m) = true := by
  simp [Memory.wf]

/-- The head of a canonical list lies in the address space. -/
theorem Memory.wf_head (a : Nat) (v : Byte) (m : Memory) (h : Memory.wf ((a, v) :: m) = true) : a < Config.mapSize := by
  induction m generalizing a v with
  | nil => simpa [Memory.wf] using h
  | cons c m ih =>
    obtain ⟨b, w⟩ := c
    have h' := (Memory.wf_cons_cons ..).1 h
    have := ih b w h'.2
    omega

/-- The value of a cell is free in the canonical form. -/
theorem Memory.wf_value (a : Nat) (v w : Byte) (m : Memory) :
    Memory.wf ((a, v) :: m) = true ↔ Memory.wf ((a, w) :: m) = true := by
  cases m <;> simp [Memory.wf]

/-- A write of an address of the map keeps the canonical form. -/
theorem Memory.write_wf (m : Memory) (a : Nat) (v : Byte) (ha : a < Config.mapSize) (h : Memory.wf m = true) :
    Memory.wf (Memory.write m a v) = true := by
  induction m with
  | nil => simpa [Memory.write, Memory.wf] using ha
  | cons c m ih =>
    obtain ⟨b, w⟩ := c
    simp only [Memory.write]
    split
    · rename_i hlt
      exact (Memory.wf_cons_cons ..).2 ⟨hlt, h⟩
    · split
      · subst_vars
        exact (Memory.wf_value ..).1 h
      · rename_i hge hne
        cases m with
        | nil =>
          simp only [Memory.write]
          exact (Memory.wf_cons_cons ..).2 ⟨by omega, by simpa [Memory.wf] using ha⟩
        | cons d m =>
          obtain ⟨k, x⟩ := d
          have h' := (Memory.wf_cons_cons ..).1 h
          have ih' := ih h'.2
          simp only [Memory.write] at ih' ⊢
          by_cases hk : a < k
          · rw [if_pos hk] at ih' ⊢
            exact (Memory.wf_cons_cons ..).2 ⟨by omega, ih'⟩
          · rw [if_neg hk] at ih' ⊢
            by_cases he : a = k
            · rw [if_pos he] at ih' ⊢
              exact (Memory.wf_cons_cons ..).2 ⟨by omega, ih'⟩
            · rw [if_neg he] at ih' ⊢
              exact (Memory.wf_cons_cons ..).2 ⟨h'.1, ih'⟩

/-- A run of writes inside the map keeps the canonical form. -/
theorem Memory.writeRun_wf (m : Memory) (a : Nat) (vs : List Byte) (ha : a + vs.length ≤ Config.mapSize)
    (h : Memory.wf m = true) : Memory.wf (Memory.writeRun m a vs) = true := by
  induction vs generalizing m a with
  | nil => exact h
  | cons v vs ih =>
    simp only [List.length_cons] at ha
    exact ih _ _ (by omega) (Memory.write_wf _ _ _ (by omega) h)

/-- The cache after reset is canonical. -/
theorem Memory.reset_wf : Memory.wf State.reset.cache = true := rfl

end Sys2Proof.Machine
end

