-- ==== Sys2Proof/Laws/State.lean ====
section
/-! SUPPORT. One lemma per field of State and per named update, so that no proof unfolds a record update; and the
equations between the updates. -/

namespace Sys2Proof.Machine

@[simp] theorem beginOperation_cache (s : State) : (beginOperation s).cache = s.cache := rfl
@[simp] theorem beginOperation_sess (s : State) : (beginOperation s).sess = s.sess := rfl
@[simp] theorem beginOperation_profile (s : State) : (beginOperation s).profile = s.profile := rfl
@[simp] theorem beginOperation_rxq (s : State) : (beginOperation s).rxq = s.rxq := rfl
@[simp] theorem beginOperation_tx (s : State) : (beginOperation s).tx = s.tx := rfl
@[simp] theorem beginOperation_seqK (s : State) : (beginOperation s).seqK = 0 := rfl
@[simp] theorem beginOperation_seqD (s : State) : (beginOperation s).seqD = 0 := rfl
@[simp] theorem beginOperation_result (s : State) : (beginOperation s).result = s.result := rfl
@[simp] theorem beginOperation_inputs (s : State) : (beginOperation s).inputs = s.inputs := rfl
@[simp] theorem beginOperation_env (s : State) : (beginOperation s).env = s.env := rfl
@[simp] theorem beginOperation_cfg (s : State) : (beginOperation s).cfg = s.cfg := rfl

@[simp] theorem takeException_cache (e : Raise) (s : State) : (takeException e s).cache = s.cache := rfl
@[simp] theorem takeException_sess (e : Raise) (s : State) : (takeException e s).sess = s.sess := rfl
@[simp] theorem takeException_profile (e : Raise) (s : State) : (takeException e s).profile = s.profile := rfl
@[simp] theorem takeException_rxq (e : Raise) (s : State) : (takeException e s).rxq = s.rxq := rfl
@[simp] theorem takeException_tx (e : Raise) (s : State) : (takeException e s).tx = s.tx := rfl
@[simp] theorem takeException_seqK (e : Raise) (s : State) : (takeException e s).seqK = 0 := rfl
@[simp] theorem takeException_seqD (e : Raise) (s : State) : (takeException e s).seqD = 0 := rfl
@[simp] theorem takeException_result (e : Raise) (s : State) : (takeException e s).result = some ⟨e.status, e.value⟩ := rfl
@[simp] theorem takeException_inputs (e : Raise) (s : State) : (takeException e s).inputs = s.inputs := rfl
@[simp] theorem takeException_env (e : Raise) (s : State) : (takeException e s).env = s.env := rfl
@[simp] theorem takeException_cfg (e : Raise) (s : State) : (takeException e s).cfg = s.cfg := rfl

@[simp] theorem returnOk_cache (v : Value) (s : State) : (returnOk v s).cache = s.cache := rfl
@[simp] theorem returnOk_sess (v : Value) (s : State) : (returnOk v s).sess = s.sess := rfl
@[simp] theorem returnOk_profile (v : Value) (s : State) : (returnOk v s).profile = s.profile := rfl
@[simp] theorem returnOk_rxq (v : Value) (s : State) : (returnOk v s).rxq = s.rxq := rfl
@[simp] theorem returnOk_tx (v : Value) (s : State) : (returnOk v s).tx = s.tx := rfl
@[simp] theorem returnOk_seqK (v : Value) (s : State) : (returnOk v s).seqK = 0 := rfl
@[simp] theorem returnOk_seqD (v : Value) (s : State) : (returnOk v s).seqD = 0 := rfl
@[simp] theorem returnOk_result (v : Value) (s : State) : (returnOk v s).result = some ⟨.ok, v⟩ := rfl
@[simp] theorem returnOk_inputs (v : Value) (s : State) : (returnOk v s).inputs = s.inputs := rfl
@[simp] theorem returnOk_env (v : Value) (s : State) : (returnOk v s).env = s.env := rfl
@[simp] theorem returnOk_cfg (v : Value) (s : State) : (returnOk v s).cfg = s.cfg := rfl

@[simp] theorem State.ended_cache (s : State) (st : Status) (v : Value) : (s.ended st v).cache = s.cache := rfl
@[simp] theorem State.ended_sess (s : State) (st : Status) (v : Value) : (s.ended st v).sess = s.sess := rfl
@[simp] theorem State.ended_profile (s : State) (st : Status) (v : Value) : (s.ended st v).profile = s.profile := rfl
@[simp] theorem State.ended_rxq (s : State) (st : Status) (v : Value) : (s.ended st v).rxq = s.rxq := rfl
@[simp] theorem State.ended_tx (s : State) (st : Status) (v : Value) : (s.ended st v).tx = s.tx := rfl
@[simp] theorem State.ended_seqK (s : State) (st : Status) (v : Value) : (s.ended st v).seqK = 0 := rfl
@[simp] theorem State.ended_seqD (s : State) (st : Status) (v : Value) : (s.ended st v).seqD = 0 := rfl
@[simp] theorem State.ended_result (s : State) (st : Status) (v : Value) : (s.ended st v).result = some ⟨st, v⟩ := rfl
@[simp] theorem State.ended_inputs (s : State) (st : Status) (v : Value) : (s.ended st v).inputs = s.inputs := rfl
@[simp] theorem State.ended_env (s : State) (st : Status) (v : Value) : (s.ended st v).env = s.env := rfl
@[simp] theorem State.ended_cfg (s : State) (st : Status) (v : Value) : (s.ended st v).cfg = s.cfg := rfl

@[simp] theorem deviceAppends_cache (l : List (List Byte)) (s : State) : (deviceAppends l s).cache = s.cache := rfl
@[simp] theorem deviceAppends_sess (l : List (List Byte)) (s : State) : (deviceAppends l s).sess = s.sess := rfl
@[simp] theorem deviceAppends_profile (l : List (List Byte)) (s : State) : (deviceAppends l s).profile = s.profile := rfl
@[simp] theorem deviceAppends_rxq (l : List (List Byte)) (s : State) : (deviceAppends l s).rxq = s.rxq ++ l := rfl
@[simp] theorem deviceAppends_tx (l : List (List Byte)) (s : State) : (deviceAppends l s).tx = s.tx := rfl
@[simp] theorem deviceAppends_seqK (l : List (List Byte)) (s : State) : (deviceAppends l s).seqK = s.seqK := rfl
@[simp] theorem deviceAppends_seqD (l : List (List Byte)) (s : State) : (deviceAppends l s).seqD = s.seqD := rfl
@[simp] theorem deviceAppends_result (l : List (List Byte)) (s : State) : (deviceAppends l s).result = s.result := rfl
@[simp] theorem deviceAppends_inputs (l : List (List Byte)) (s : State) : (deviceAppends l s).inputs = s.inputs := rfl
@[simp] theorem deviceAppends_env (l : List (List Byte)) (s : State) : (deviceAppends l s).env = s.env := rfl
@[simp] theorem deviceAppends_cfg (l : List (List Byte)) (s : State) : (deviceAppends l s).cfg = s.cfg := rfl

@[simp] theorem State.exchanged_cache (s : State) (q : Frame) (more : List (List Byte)) (ss : List LinkResult) (rs : List RecvDraw) :
    (s.exchanged q more ss rs).cache = s.cache := rfl
@[simp] theorem State.exchanged_sess (s : State) (q : Frame) (more : List (List Byte)) (ss : List LinkResult) (rs : List RecvDraw) :
    (s.exchanged q more ss rs).sess = s.sess := rfl
@[simp] theorem State.exchanged_profile (s : State) (q : Frame) (more : List (List Byte)) (ss : List LinkResult) (rs : List RecvDraw) :
    (s.exchanged q more ss rs).profile = s.profile := rfl
@[simp] theorem State.exchanged_rxq (s : State) (q : Frame) (more : List (List Byte)) (ss : List LinkResult) (rs : List RecvDraw) :
    (s.exchanged q more ss rs).rxq = more := rfl
@[simp] theorem State.exchanged_tx (s : State) (q : Frame) (more : List (List Byte)) (ss : List LinkResult) (rs : List RecvDraw) :
    (s.exchanged q more ss rs).tx = s.tx ++ [q] := rfl
@[simp] theorem State.exchanged_seqK (s : State) (q : Frame) (more : List (List Byte)) (ss : List LinkResult) (rs : List RecvDraw) :
    (s.exchanged q more ss rs).seqK = s.seqK := rfl
@[simp] theorem State.exchanged_seqD (s : State) (q : Frame) (more : List (List Byte)) (ss : List LinkResult) (rs : List RecvDraw) :
    (s.exchanged q more ss rs).seqD = s.seqD := rfl
@[simp] theorem State.exchanged_result (s : State) (q : Frame) (more : List (List Byte)) (ss : List LinkResult) (rs : List RecvDraw) :
    (s.exchanged q more ss rs).result = s.result := rfl
@[simp] theorem State.exchanged_inputs (s : State) (q : Frame) (more : List (List Byte)) (ss : List LinkResult) (rs : List RecvDraw) :
    (s.exchanged q more ss rs).inputs = s.inputs := rfl
@[simp] theorem State.exchanged_env (s : State) (q : Frame) (more : List (List Byte)) (ss : List LinkResult) (rs : List RecvDraw) :
    (s.exchanged q more ss rs).env = { s.env with sends := ss, recvs := rs } := rfl
@[simp] theorem State.exchanged_cfg (s : State) (q : Frame) (more : List (List Byte)) (ss : List LinkResult) (rs : List RecvDraw) :
    (s.exchanged q more ss rs).cfg = s.cfg := rfl

@[simp] theorem State.waited_cache (s : State) (q : Frame) (rxq : List (List Byte)) (env : Env) :
    (s.waited q rxq env).cache = s.cache := rfl
@[simp] theorem State.waited_sess (s : State) (q : Frame) (rxq : List (List Byte)) (env : Env) :
    (s.waited q rxq env).sess = s.sess := rfl
@[simp] theorem State.waited_profile (s : State) (q : Frame) (rxq : List (List Byte)) (env : Env) :
    (s.waited q rxq env).profile = s.profile := rfl
@[simp] theorem State.waited_rxq (s : State) (q : Frame) (rxq : List (List Byte)) (env : Env) :
    (s.waited q rxq env).rxq = rxq := rfl
@[simp] theorem State.waited_tx (s : State) (q : Frame) (rxq : List (List Byte)) (env : Env) :
    (s.waited q rxq env).tx = s.tx ++ [q] := rfl
@[simp] theorem State.waited_seqK (s : State) (q : Frame) (rxq : List (List Byte)) (env : Env) :
    (s.waited q rxq env).seqK = s.seqK := rfl
@[simp] theorem State.waited_seqD (s : State) (q : Frame) (rxq : List (List Byte)) (env : Env) :
    (s.waited q rxq env).seqD = s.seqD := rfl
@[simp] theorem State.waited_result (s : State) (q : Frame) (rxq : List (List Byte)) (env : Env) :
    (s.waited q rxq env).result = s.result := rfl
@[simp] theorem State.waited_inputs (s : State) (q : Frame) (rxq : List (List Byte)) (env : Env) :
    (s.waited q rxq env).inputs = s.inputs := rfl
@[simp] theorem State.waited_env (s : State) (q : Frame) (rxq : List (List Byte)) (env : Env) :
    (s.waited q rxq env).env = env := rfl
@[simp] theorem State.waited_cfg (s : State) (q : Frame) (rxq : List (List Byte)) (env : Env) :
    (s.waited q rxq env).cfg = s.cfg := rfl

@[simp] theorem State.bulkMoved_cache (s : State) (n : Nat) (m : Memory) (rxq : List (List Byte)) (env : Env) :
    (s.bulkMoved n m rxq env).cache = m := rfl
@[simp] theorem State.bulkMoved_sess (s : State) (n : Nat) (m : Memory) (rxq : List (List Byte)) (env : Env) :
    (s.bulkMoved n m rxq env).sess = s.sess := rfl
@[simp] theorem State.bulkMoved_profile (s : State) (n : Nat) (m : Memory) (rxq : List (List Byte)) (env : Env) :
    (s.bulkMoved n m rxq env).profile = s.profile := rfl
@[simp] theorem State.bulkMoved_rxq (s : State) (n : Nat) (m : Memory) (rxq : List (List Byte)) (env : Env) :
    (s.bulkMoved n m rxq env).rxq = rxq := rfl
@[simp] theorem State.bulkMoved_tx (s : State) (n : Nat) (m : Memory) (rxq : List (List Byte)) (env : Env) :
    (s.bulkMoved n m rxq env).tx = s.tx ++ bulkRequests s.cfg n := rfl
@[simp] theorem State.bulkMoved_seqK (s : State) (n : Nat) (m : Memory) (rxq : List (List Byte)) (env : Env) :
    (s.bulkMoved n m rxq env).seqK = s.seqK := rfl
@[simp] theorem State.bulkMoved_seqD (s : State) (n : Nat) (m : Memory) (rxq : List (List Byte)) (env : Env) :
    (s.bulkMoved n m rxq env).seqD = s.seqD := rfl
@[simp] theorem State.bulkMoved_result (s : State) (n : Nat) (m : Memory) (rxq : List (List Byte)) (env : Env) :
    (s.bulkMoved n m rxq env).result = s.result := rfl
@[simp] theorem State.bulkMoved_inputs (s : State) (n : Nat) (m : Memory) (rxq : List (List Byte)) (env : Env) :
    (s.bulkMoved n m rxq env).inputs = s.inputs := rfl
@[simp] theorem State.bulkMoved_env (s : State) (n : Nat) (m : Memory) (rxq : List (List Byte)) (env : Env) :
    (s.bulkMoved n m rxq env).env = env := rfl
@[simp] theorem State.bulkMoved_cfg (s : State) (n : Nat) (m : Memory) (rxq : List (List Byte)) (env : Env) :
    (s.bulkMoved n m rxq env).cfg = s.cfg := rfl

/-! ## Equations between the updates -/

theorem takeException_eq_ended (e : Raise) (s : State) : takeException e s = s.ended e.status e.value := rfl

theorem returnOk_eq_ended (v : Value) (s : State) : returnOk v s = s.ended .ok v := rfl

@[simp] theorem beginOperation_ended (s : State) (st : Status) (v : Value) :
    (beginOperation s).ended st v = s.ended st v := rfl

@[simp] theorem State.ended_ended (s : State) (st st' : Status) (v v' : Value) :
    (s.ended st v).ended st' v' = s.ended st' v' := rfl

@[simp] theorem beginOperation_exchanged_ended (s : State) (q : Frame) (more : List (List Byte)) (ss : List LinkResult)
    (rs : List RecvDraw) (st : Status) (v : Value) :
    ((beginOperation s).exchanged q more ss rs).ended st v = (s.exchanged q more ss rs).ended st v := rfl

/-- One reply taken at once is a wait whose queue and draws are named. -/
theorem State.exchanged_eq_waited (s : State) (q : Frame) (more : List (List Byte)) (ss : List LinkResult)
    (rs : List RecvDraw) : s.exchanged q more ss rs = s.waited q more { s.env with sends := ss, recvs := rs } := rfl

@[simp] theorem beginOperation_waited_ended (s : State) (q : Frame) (rxq : List (List Byte)) (env : Env) (st : Status)
    (v : Value) : ((beginOperation s).waited q rxq env).ended st v = (s.waited q rxq env).ended st v := rfl

@[simp] theorem bulkRequests_zero (cfg : Config) : bulkRequests cfg 0 = [] := rfl

theorem bulkRequests_succ (cfg : Config) (n : Nat) :
    bulkRequests cfg (n + 1) = bulkRequests cfg n ++ [memreadQFrame cfg (BitVec.ofNat 8 (10 * n)) 10] := by
  simp [bulkRequests, List.range_succ]

@[simp] theorem beginOperation_repliedBy (s : State) (b : List Byte) (more : List (List Byte)) (ss : List LinkResult)
    (rs : List RecvDraw) : (beginOperation s).RepliedBy b more ss rs ↔ s.RepliedBy b more ss rs := Iff.rfl

end Sys2Proof.Machine
end

