-- ==== Sys2Proof/Laws/Ops.lean ====
section
/-! SUPPORT. One lemma per shared operation that says everything it can do, and how the steps of the pseudocode
compose: provers cite these instead of unfolding the operations. -/

namespace Sys2Proof.Machine

/-! ## Steps of the pseudocode -/

/-- The state a step leaves, however it ends. -/
def Out.state {α : Type} : Out α → State
  | .done _ s => s
  | .raised _ s => s

section
variable {α β : Type}

@[simp] theorem Out.state_done (a : α) (s : State) : (Out.done a s).state = s := rfl
@[simp] theorem Out.state_raised (e : Raise) (s : State) : (Out.raised e s : Out α).state = s := rfl

@[simp] theorem Op.pure_apply (a : α) (s : State) : Op.pure a s = .done a s := rfl
@[simp] theorem Op.raise_apply (st : Status) (v : Value) (s : State) :
    (Op.raise st v : Op α) s = .raised ⟨st, v⟩ s := rfl
@[simp] theorem Op.lift_ok_apply (a : α) (s : State) : Op.lift (.ok a) s = .done a s := rfl
@[simp] theorem Op.lift_error_apply (e : Raise) (s : State) : (Op.lift (.error e) : Op α) s = .raised e s := rfl
@[simp] theorem Op.read_apply (f : State → α) (s : State) : Op.read f s = .done (f s) s := rfl
@[simp] theorem Op.update_apply (f : State → State) (s : State) : Op.update f s = .done () (f s) := rfl

/-- A step that went on hands its value and its state to the next. -/
theorem Op.bind_of_done {m : Op α} {f : α → Op β} {s u : State} {a : α} (h : m s = .done a u) : m.bind f s = f a u := by
  simp [Op.bind, h]

/-- A step that raised ends the whole. -/
theorem Op.bind_of_raised {m : Op α} {f : α → Op β} {s u : State} {e : Raise} (h : m s = .raised e u) :
    m.bind f s = .raised e u := by
  simp [Op.bind, h]

@[simp] theorem Op.pure_bind (a : α) (f : α → Op β) (s : State) : (Op.pure a).bind f s = f a s := rfl
@[simp] theorem Op.raise_bind (st : Status) (v : Value) (f : α → Op β) (s : State) :
    (Op.raise st v : Op α).bind f s = .raised ⟨st, v⟩ s := rfl
@[simp] theorem Op.lift_ok_bind (a : α) (f : α → Op β) (s : State) : (Op.lift (.ok a)).bind f s = f a s := rfl
@[simp] theorem Op.lift_error_bind (e : Raise) (f : α → Op β) (s : State) :
    (Op.lift (.error e) : Op α).bind f s = .raised e s := rfl
@[simp] theorem Op.read_bind (g : State → α) (f : α → Op β) (s : State) : (Op.read g).bind f s = f (g s) s := rfl
@[simp] theorem Op.update_bind (g : State → State) (f : Unit → Op β) (s : State) :
    (Op.update g).bind f s = f () (g s) := rfl

theorem Op.bind_assoc {γ : Type} (m : Op α) (f : α → Op β) (g : β → Op γ) :
    (m.bind f).bind g = m.bind fun a => (f a).bind g := by
  funext s
  simp only [Op.bind]
  cases m s <;> rfl

/-- How two steps in sequence can go on: the first did, and the second from where it left. -/
theorem Op.bind_eq_done {m : Op α} {f : α → Op β} {s t : State} {b : β} (h : m.bind f s = .done b t) :
    ∃ a u, m s = .done a u ∧ f a u = .done b t := by
  simp only [Op.bind] at h
  split at h
  · exact ⟨_, _, ‹_›, h⟩
  · cases h

/-- How two steps in sequence can raise: the first did, or it went on and the second did. -/
theorem Op.bind_eq_raised {m : Op α} {f : α → Op β} {s t : State} {e : Raise} (h : m.bind f s = .raised e t) :
    m s = .raised e t ∨ ∃ a u, m s = .done a u ∧ f a u = .raised e t := by
  simp only [Op.bind] at h
  split at h
  · exact .inr ⟨_, _, ‹_›, h⟩
  · cases h
    exact .inl ‹_›

/-! ## What every run of a step keeps -/

/-- However the step ends, the states before and after it are related by R. -/
def Op.Keeps (R : State → State → Prop) (op : Op α) : Prop := ∀ s, R s (op s).state

theorem Op.keeps_pure {R : State → State → Prop} (hr : ∀ s, R s s) (a : α) : (Op.pure a).Keeps R := fun s => hr s

theorem Op.keeps_raise {R : State → State → Prop} (hr : ∀ s, R s s) (st : Status) (v : Value) :
    (Op.raise st v : Op α).Keeps R := fun s => hr s

theorem Op.keeps_lift {R : State → State → Prop} (hr : ∀ s, R s s) (x : Except Raise α) : (Op.lift x).Keeps R := by
  intro s
  cases x <;> exact hr s

theorem Op.keeps_read {R : State → State → Prop} (hr : ∀ s, R s s) (f : State → α) : (Op.read f).Keeps R :=
  fun s => hr s

theorem Op.keeps_update {R : State → State → Prop} {f : State → State} (h : ∀ s, R s (f s)) :
    (Op.update f).Keeps R := h

/-- A relation that composes is kept by two steps in sequence where each keeps it. -/
theorem Op.keeps_bind {R : State → State → Prop} (ht : ∀ a b c, R a b → R b c → R a c) {m : Op α} {f : α → Op β}
    (hm : m.Keeps R) (hf : ∀ a, (f a).Keeps R) : (m.bind f).Keeps R := by
  intro s
  have h := hm s
  simp only [Op.bind]
  cases hms : m s with
  | done a u =>
    rw [hms] at h
    exact ht _ _ _ h (hf a u)
  | raised e u =>
    rw [hms] at h
    exact h

end

/-! ## An operation from start to status -/

theorem runOperation_of_done {op : Op Value} {s u : State} {v : Value} (h : op (beginOperation s) = .done v u) :
    runOperation op s = u.ended .ok v := by
  simp [runOperation, h, returnOk_eq_ended]

theorem runOperation_of_raised {op : Op Value} {s u : State} {e : Raise}
    (h : op (beginOperation s) = .raised e u) : runOperation op s = u.ended e.status e.value := by
  simp [runOperation, h, takeException_eq_ended]

/-- Every operation ends in one of two ways: its value with OK, or the error that was raised; either way in the state
its steps left (60_exceptions.md R340, R342). -/
theorem runOperation_cases (op : Op Value) (s : State) :
    (∃ v u, op (beginOperation s) = .done v u ∧ runOperation op s = u.ended .ok v) ∨
      ∃ e u, op (beginOperation s) = .raised e u ∧ runOperation op s = u.ended e.status e.value := by
  cases h : op (beginOperation s) with
  | done v u => exact .inl ⟨v, u, rfl, runOperation_of_done h⟩
  | raised e u => exact .inr ⟨e, u, rfl, runOperation_of_raised h⟩

/-- What every step of an operation keeps, the operation keeps up to its end. -/
theorem runOperation_keeps {R : State → State → Prop} {op : Op Value} (h : op.Keeps R)
    (hend : ∀ s u st v, R (beginOperation s) u → R s (u.ended st v)) (s : State) : R s (runOperation op s) := by
  have hk := h (beginOperation s)
  obtain ⟨v, u, h1, h2⟩ | ⟨e, u, h1, h2⟩ := runOperation_cases op s
  · rw [h1] at hk
    rw [h2]
    exact hend _ _ _ _ hk
  · rw [h1] at hk
    rw [h2]
    exact hend _ _ _ _ hk

/-- A check or a computation as a whole operation touches nothing but the result port. -/
@[simp] theorem runOperation_lift_ok (v : Value) (s : State) : runOperation (Op.lift (.ok v)) s = s.ended .ok v := rfl
@[simp] theorem runOperation_lift_error (e : Raise) (s : State) :
    runOperation (Op.lift (.error e)) s = s.ended e.status e.value := rfl

theorem noValue_of_done {op : Op Unit} {s u : State} (h : op s = .done () u) : noValue op s = .done .none u :=
  Op.bind_of_done h

theorem noValue_of_raised {op : Op Unit} {s u : State} {e : Raise} (h : op s = .raised e u) :
    noValue op s = .raised e u := Op.bind_of_raised h

/-! ## The session check -/

@[simp] theorem requireConnected_of_connected {s : State} (h : s.sess = .connected) :
    requireConnected s = .done () s := by
  simp [requireConnected, h]

@[simp] theorem requireConnected_of_disconnected {s : State} (h : s.sess = .disconnected) :
    requireConnected s = .raised ⟨.notConnected, .none⟩ s := by
  simp [requireConnected, h]

/-- The session check changes nothing: it goes on while connected, and raises NotConnected while not. -/
theorem requireConnected_cases (s : State) :
    (s.sess = .connected ∧ requireConnected s = .done () s) ∨
      (s.sess = .disconnected ∧ requireConnected s = .raised ⟨.notConnected, .none⟩ s) := by
  cases h : s.sess <;> simp [h]

/-! ## Sending -/

/-- A send appends its frame whatever the transport answers (20_memory.md R72). -/
theorem sendStep_cases (f : Frame) (s : State) :
    ∃ r env, sendStep f s = .done r { s with env := env, tx := s.tx ++ [f] } := ⟨_, _, rfl⟩

theorem sendStep_of_draw {s : State} {r : LinkResult} {ss : List LinkResult} (f : Frame)
    (h : s.env.sends = r :: ss) :
    sendStep f s = .done r { s with env := { s.env with sends := ss }, tx := s.tx ++ [f] } := by
  simp [sendStep, Env.nextSend, h]

theorem sendOrRaise_of_ok {s : State} {ss : List LinkResult} (f : Frame) (h : s.env.sends = .ok :: ss) :
    sendOrRaise f s = .done () { s with env := { s.env with sends := ss }, tx := s.tx ++ [f] } := by
  rw [sendOrRaise, Op.bind_of_done (sendStep_of_draw f h)]
  simp

theorem sendOrRaise_of_ioError {s : State} {ss : List LinkResult} (f : Frame) (h : s.env.sends = .ioError :: ss) :
    sendOrRaise f s = .raised ⟨.ioError, .none⟩ { s with env := { s.env with sends := ss }, tx := s.tx ++ [f] } := by
  rw [sendOrRaise, Op.bind_of_done (sendStep_of_draw f h)]
  simp

/-- A send goes on or raises IOError; either way its frame is sent and nothing but the draws moves. -/
theorem sendOrRaise_cases (f : Frame) (s : State) :
    ∃ env, sendOrRaise f s = .done () { s with env := env, tx := s.tx ++ [f] } ∨
      sendOrRaise f s = .raised ⟨.ioError, .none⟩ { s with env := env, tx := s.tx ++ [f] } := by
  obtain ⟨r, env, h⟩ := sendStep_cases f s
  refine ⟨env, ?_⟩
  rw [sendOrRaise, Op.bind_of_done h]
  cases r <;> simp

/-- A request empties the RX queue, then sends: it goes on or raises IOError (44_session.md R290). -/
theorem request_cases (q : Frame) (s : State) :
    ∃ env, request q s = .done () { s with rxq := [], env := env, tx := s.tx ++ [q] } ∨
      request q s = .raised ⟨.ioError, .none⟩ { s with rxq := [], env := env, tx := s.tx ++ [q] } :=
  sendOrRaise_cases q { s with rxq := [] }

theorem request_of_ok {s : State} {ss : List LinkResult} (q : Frame) (h : s.env.sends = .ok :: ss) :
    request q s = .done () { s with rxq := [], env := { s.env with sends := ss }, tx := s.tx ++ [q] } :=
  sendOrRaise_of_ok (s := { s with rxq := [] }) q h

theorem request_of_ioError {s : State} {ss : List LinkResult} (q : Frame) (h : s.env.sends = .ioError :: ss) :
    request q s = .raised ⟨.ioError, .none⟩
      { s with rxq := [], env := { s.env with sends := ss }, tx := s.tx ++ [q] } :=
  sendOrRaise_of_ioError (s := { s with rxq := [] }) q h

/-! ## Receiving -/

/-- A receive moves nothing but the RX queue and the draws. -/
theorem recvStep_cases (s : State) : ∃ r env rxq, recvStep s = .done r { s with rxq := rxq, env := env } := by
  simp only [recvStep, recvWith, deviceAppends]
  cases s.env.nextRecv.1.outcome with
  | timeout => exact ⟨_, _, _, rfl⟩
  | ioError => exact ⟨_, _, _, rfl⟩
  | deliver =>
    cases s.rxq ++ s.env.nextRecv.1.arrivals with
    | nil => exact ⟨_, _, _, rfl⟩
    | cons x xs => exact ⟨_, _, _, rfl⟩

theorem recvStep_of_deliver {s : State} {arr q : List (List Byte)} {b : List Byte} {rs : List RecvDraw}
    (h : s.env.recvs = ⟨arr, .deliver⟩ :: rs) (hq : s.rxq ++ arr = b :: q) :
    recvStep s = .done (.string b) { s with rxq := q, env := { s.env with recvs := rs } } := by
  simp [recvStep, recvWith, Env.nextRecv, h, deviceAppends, hq]

/-- FRAME_DEC by the frame it accepts. -/
theorem frameDec_of_parse {b : List Byte} {f : Frame} (h : Frame.parse b = .ok f) : frameDec b = .ok f := by
  simp [frameDec, h]

/-- FRAME_DEC accepts as the check does; else it raises FormatError. -/
theorem frameDec_cases (b : List Byte) :
    (∃ f, Frame.parse b = .ok f ∧ frameDec b = .ok f) ∨
      ∃ why e, Frame.parse b = .error why ∧ frameDec b = .error e ∧ e.status = .formatError := by
  cases h : Frame.parse b with
  | ok f => exact .inl ⟨f, rfl, frameDec_of_parse h⟩
  | error why =>
    refine .inr ⟨why, ?_⟩
    cases why <;> simp [frameDec, h]

/-- The statuses a receive can raise (44_session.md R291). -/
def recvErrors : List Status := [.timeout, .ioError, .formatError]

/-- `AwaitAny` answers a frame with a right checksum, or raises Timeout, IOError or FormatError; it moves nothing but
the RX queue and the draws (44_session.md R291). -/
theorem awaitAny_cases (s : State) :
    ∃ env rxq,
      (∃ f, awaitAny s = .done f { s with rxq := rxq, env := env } ∧ f.checksum = Sys2Proof.cksum f.body) ∨
      ∃ e, awaitAny s = .raised e { s with rxq := rxq, env := env } ∧ e.status ∈ recvErrors := by
  obtain ⟨r, env, rxq, h⟩ := recvStep_cases s
  refine ⟨env, rxq, ?_⟩
  rw [awaitAny, Op.bind_of_done h]
  cases r with
  | timeout => exact .inr ⟨_, rfl, by decide⟩
  | ioError => exact .inr ⟨_, rfl, by decide⟩
  | string b =>
    obtain ⟨f, hp, hf⟩ | ⟨why, e, -, he, hs⟩ := frameDec_cases b
    · exact .inl ⟨f, by simp [hf], ((Frame.parse_eq_ok ..).1 hp).2⟩
    · exact .inr ⟨e, by simp [he], by simp [hs, recvErrors]⟩

theorem awaitAny_of_deliver {s : State} {arr q : List (List Byte)} {b : List Byte} {rs : List RecvDraw} {f : Frame}
    (h : s.env.recvs = ⟨arr, .deliver⟩ :: rs) (hq : s.rxq ++ arr = b :: q) (hf : Frame.parse b = .ok f) :
    awaitAny s = .done f { s with rxq := q, env := { s.env with recvs := rs } } := by
  rw [awaitAny, Op.bind_of_done (recvStep_of_deliver h hq)]
  simp [frameDec_of_parse hf]

/-- The filter loop answers a frame of the command awaited, or raises an error of a receive or NoMatch; it moves nothing
but the RX queue, the draws and the discard counter (44_session.md R292). -/
theorem awaitLoop_cases (cfg : Config) (c : Byte) (fuel : Nat) (s : State) :
    ∃ env rxq d,
      (∃ f, awaitLoop cfg c fuel s = .done f { s with rxq := rxq, env := env, seqD := d } ∧ f.command = c ∧
        f.checksum = Sys2Proof.cksum f.body) ∨
      ∃ e, awaitLoop cfg c fuel s = .raised e { s with rxq := rxq, env := env, seqD := d } ∧
        e.status ∈ Status.noMatch :: recvErrors := by
  induction fuel generalizing s with
  | zero => exact ⟨s.env, s.rxq, s.seqD, .inr ⟨_, rfl, by simp⟩⟩
  | succ fuel ih =>
    obtain ⟨env, rxq, ⟨f, h, hc⟩ | ⟨e, h, hs⟩⟩ := awaitAny_cases s
    · rw [awaitLoop, Op.bind_of_done h]
      by_cases hm : f.command = c
      · exact ⟨env, rxq, s.seqD, .inl ⟨f, by simp [hm], hm, hc⟩⟩
      · simp only [hm, ↓reduceIte, Op.update_bind, Op.read_bind]
        split
        · exact ⟨env, rxq, s.seqD + 1, .inr ⟨_, rfl, by simp⟩⟩
        · obtain ⟨env', rxq', d, h'⟩ := ih { s with rxq := rxq, env := env, seqD := s.seqD + 1 }
          exact ⟨env', rxq', d, h'⟩
    · rw [awaitLoop, Op.bind_of_raised h]
      exact ⟨env, rxq, s.seqD, .inr ⟨e, rfl, by simp [hs]⟩⟩

/-- `AwaitCmd` as the filter loop. -/
theorem awaitCmd_cases (cfg : Config) (c : Byte) (s : State) :
    ∃ env rxq d,
      (∃ f, awaitCmd cfg c s = .done f { s with rxq := rxq, env := env, seqD := d } ∧ f.command = c ∧
        f.checksum = Sys2Proof.cksum f.body) ∨
      ∃ e, awaitCmd cfg c s = .raised e { s with rxq := rxq, env := env, seqD := d } ∧
        e.status ∈ Status.noMatch :: recvErrors :=
  awaitLoop_cases cfg c _ { s with seqD := 0 }

/-- A receive that fails ends `AwaitAny` with its status (44_session.md R291). -/
theorem awaitAny_of_fails {s : State} {st : Status} {q : List (List Byte)} {rs : List RecvDraw}
    (h : RecvFails s.rxq s.env.recvs st q rs) :
    ∃ v, awaitAny s = .raised ⟨st, v⟩ { s with rxq := q, env := { s.env with recvs := rs } } := by
  generalize hq : s.rxq = q0 at h
  generalize hd : s.env.recvs = ds at h
  cases h with
  | timeout => exact ⟨.none, by simp [awaitAny, recvStep, Op.bind, recvWith, Env.nextRecv, hd, deviceAppends, hq]⟩
  | ioError => exact ⟨.none, by simp [awaitAny, recvStep, Op.bind, recvWith, Env.nextRecv, hd, deviceAppends, hq]⟩
  | empty => exact ⟨.none, by simp [awaitAny, recvStep, Op.bind, recvWith, Env.nextRecv, hd, deviceAppends, hq]⟩
  | invalid hb hp =>
    subst hq
    rw [awaitAny, Op.bind_of_done (recvStep_of_deliver hd hb)]
    obtain ⟨f, hf, -⟩ | ⟨-, ⟨_, v⟩, -, he, rfl⟩ := frameDec_cases _
    · rw [hp] at hf
      cases hf
    · exact ⟨v, by simp [he]⟩

/-- The filter loop discards valid frames of other commands while the bound allows, one receive and one count each
(44_session.md R292). -/
theorem awaitLoop_of_delivers {cfg : Config} {c : Byte} {skip : List Frame} {fuel : Nat} {s : State}
    {q : List (List Byte)} {ds : List RecvDraw} (hs : OtherThan c skip)
    (hb : s.seqD + skip.length ≤ cfg.params.maxDiscard)
    (hd : Delivers s.rxq s.env.recvs (skip.map Frame.toBytes) q ds) :
    awaitLoop cfg c (skip.length + fuel) s =
      awaitLoop cfg c fuel { s with rxq := q, env := { s.env with recvs := ds }, seqD := s.seqD + skip.length } := by
  induction skip generalizing s with
  | nil =>
    generalize hq : s.rxq = q0 at hd
    generalize he : s.env.recvs = ds0 at hd
    cases hd
    subst hq he
    simp
  | cons g skip ih =>
    obtain ⟨hk, hc⟩ := hs g (by simp)
    generalize he : s.env.recvs = ds0 at hd
    cases hd with
    | cons hq hd =>
      simp only [List.length_cons] at hb
      rw [List.length_cons, show skip.length + 1 + fuel = (skip.length + fuel) + 1 by omega, awaitLoop,
        Op.bind_of_done (awaitAny_of_deliver he hq ((Frame.parse_eq_ok ..).2 ⟨rfl, hk⟩))]
      simp only [hc, ↓reduceIte, Op.update_bind, Op.read_bind]
      rw [if_neg (by omega), ih (fun x hx => hs x (by simp [hx])) (by simp only []; omega) hd]
      simp only [Nat.add_assoc, Nat.add_comm 1]

/-- A run of deliveries, cut in two. -/
theorem delivers_append {q q' : List (List Byte)} {ds ds' : List RecvDraw} {as bs : List (List Byte)}
    (h : Delivers q ds (as ++ bs) q' ds') : ∃ q1 ds1, Delivers q ds as q1 ds1 ∧ Delivers q1 ds1 bs q' ds' := by
  induction as generalizing q ds with
  | nil => exact ⟨q, ds, .nil, h⟩
  | cons a as ih =>
    cases h with
    | cons hq hd =>
      obtain ⟨q1, ds1, h1, h2⟩ := ih hd
      exact ⟨q1, ds1, .cons hq h1, h2⟩

/-- `AwaitCmd` answers the first frame of its command behind at most MAX_DISCARD others (44_session.md R292). -/
theorem awaitCmd_of_delivers {cfg : Config} {c : Byte} {skip : List Frame} {f : Frame} {s : State}
    {q : List (List Byte)} {rs : List RecvDraw} (hl : skip.length ≤ cfg.params.maxDiscard) (hs : OtherThan c skip)
    (hk : f.checksum = Sys2Proof.cksum f.body) (hc : f.command = c)
    (hd : Delivers s.rxq s.env.recvs (skip.map Frame.toBytes ++ [f.toBytes]) q rs) :
    awaitCmd cfg c s = .done f { s with rxq := q, env := { s.env with recvs := rs }, seqD := skip.length } := by
  obtain ⟨q1, ds1, h1, h2⟩ := delivers_append hd
  rw [awaitCmd, Op.update_bind,
    show cfg.params.maxDiscard + 1 = skip.length + ((cfg.params.maxDiscard - skip.length) + 1) by omega,
    awaitLoop_of_delivers (s := { s with seqD := 0 }) hs (by simpa using hl) h1]
  cases h2 with
  | cons hq h3 =>
    cases h3
    rw [awaitLoop, Op.bind_of_done (awaitAny_of_deliver rfl hq ((Frame.parse_eq_ok ..).2 ⟨rfl, hk⟩))]
    simp [hc]

/-- A receive that fails behind at most MAX_DISCARD discarded frames ends `AwaitCmd` (44_session.md R292). -/
theorem awaitCmd_of_fails {cfg : Config} {c : Byte} {skip : List Frame} {s : State} {q q' : List (List Byte)}
    {ds rs : List RecvDraw} {st : Status} (hl : skip.length ≤ cfg.params.maxDiscard) (hs : OtherThan c skip)
    (hd : Delivers s.rxq s.env.recvs (skip.map Frame.toBytes) q ds) (hf : RecvFails q ds st q' rs) :
    ∃ v, awaitCmd cfg c s =
      .raised ⟨st, v⟩ { s with rxq := q', env := { s.env with recvs := rs }, seqD := skip.length } := by
  rw [awaitCmd, Op.update_bind,
    show cfg.params.maxDiscard + 1 = skip.length + ((cfg.params.maxDiscard - skip.length) + 1) by omega,
    awaitLoop_of_delivers (s := { s with seqD := 0 }) hs (by simpa using hl) hd, awaitLoop]
  obtain ⟨v, hv⟩ := awaitAny_of_fails (s := { s with
    rxq := q, env := { s.env with recvs := ds }, seqD := 0 + skip.length }) hf
  exact ⟨v, by rw [Op.bind_of_raised hv]; simp⟩

/-- One frame more than MAX_DISCARD of another command ends `AwaitCmd` with NoMatch (44_session.md R292). -/
theorem awaitCmd_of_discarded {cfg : Config} {c : Byte} {skip : List Frame} {s : State} {q : List (List Byte)}
    {rs : List RecvDraw} (hl : skip.length = cfg.params.maxDiscard + 1) (hs : OtherThan c skip)
    (hd : Delivers s.rxq s.env.recvs (skip.map Frame.toBytes) q rs) :
    awaitCmd cfg c s = .raised ⟨.noMatch, .byte c⟩
      { s with rxq := q, env := { s.env with recvs := rs }, seqD := skip.length } := by
  obtain ⟨init, g, rfl⟩ : ∃ init g, skip = init ++ [g] := by
    have : skip ≠ [] := by rintro rfl; simp at hl
    exact ⟨skip.dropLast, skip.getLast this, (List.dropLast_append_getLast this).symm⟩
  have hil : init.length = cfg.params.maxDiscard := by simpa using hl
  obtain ⟨hk, hc⟩ := hs g (by simp)
  rw [List.map_append] at hd
  obtain ⟨q1, ds1, h1, h2⟩ := delivers_append hd
  rw [awaitCmd, Op.update_bind, show cfg.params.maxDiscard + 1 = init.length + (0 + 1) by omega,
    awaitLoop_of_delivers (s := { s with seqD := 0 }) (fun x hx => hs x (by simp [hx])) (by simp [hil]) h1]
  cases h2 with
  | cons hq h3 =>
    cases h3
    rw [awaitLoop, Op.bind_of_done (awaitAny_of_deliver rfl hq ((Frame.parse_eq_ok ..).2 ⟨rfl, hk⟩))]
    simp [hc, hil]

/-! ## One request and one reply -/

/-- A request whose write succeeds and whose first arriving string is a valid frame, received unfiltered. -/
theorem request_awaitAny {α : Type} {s : State} {q : Frame} {b : List Byte} {more : List (List Byte)}
    {ss : List LinkResult} {rs : List RecvDraw} {f : Frame} (k : Frame → Op α) (h : s.RepliedBy b more ss rs)
    (hf : Frame.parse b = .ok f) :
    ((request q).bind fun _ => awaitAny.bind k) s = k f (s.exchanged q more ss rs) := by
  rw [Op.bind_of_done (request_of_ok q h.1)]
  exact Op.bind_of_done (awaitAny_of_deliver (arr := b :: more) h.2 rfl hf)

/-- A request whose unfiltered reply fails. -/
theorem request_awaitAny_of_fails {α : Type} {s : State} {q : Frame} {st : Status} {rxq : List (List Byte)} {e : Env}
    (k : Frame → Op α) (h : s.env.ReplyFails st rxq e) :
    ∃ v, ((request q).bind fun _ => awaitAny.bind k) s = .raised ⟨st, v⟩ (s.waited q rxq e) := by
  cases h with
  | unsent h => exact ⟨.none, Op.bind_of_raised (request_of_ioError q h)⟩
  | received h hr =>
    rename_i ss rs
    obtain ⟨v, hv⟩ := awaitAny_of_fails
      (s := { s with rxq := [], env := { s.env with sends := ss }, tx := s.tx ++ [q] }) hr
    exact ⟨v, by rw [Op.bind_of_done (request_of_ok q h), Op.bind_of_raised hv]; rfl⟩

/-- A request that is answered: the reply goes to the rest of the operation, from the state after the wait but for the
discard counter, which the end of the operation puts back. -/
theorem request_awaitCmd {α : Type} {s : State} {cfg : Config} {c : Byte} {q : Frame} {f : Frame}
    {rxq : List (List Byte)} {e : Env} (h : s.env.Answers cfg c f rxq e) :
    ∃ d, ∀ k : Frame → Op α,
      ((request q).bind fun _ => (awaitCmd cfg c).bind k) s = k f { s.waited q rxq e with seqD := d } := by
  obtain ⟨hk, hc, skip, ss, rs, hl, hs, hw, hd, rfl⟩ := h
  refine ⟨skip.length, fun k => ?_⟩
  rw [Op.bind_of_done (request_of_ok q hw), Op.bind_of_done (awaitCmd_of_delivers
    (s := { s with rxq := [], env := { s.env with sends := ss }, tx := s.tx ++ [q] }) hl hs hk hc hd)]
  rfl

/-- A request that is not answered ends the operation. -/
theorem request_awaitCmd_of_fails {α : Type} {s : State} {cfg : Config} {c : Byte} {q : Frame} {st : Status}
    {rxq : List (List Byte)} {e : Env} (k : Frame → Op α) (h : s.env.AwaitFails cfg c st rxq e) :
    ∃ v d, ((request q).bind fun _ => (awaitCmd cfg c).bind k) s =
        .raised ⟨st, v⟩ { s.waited q rxq e with seqD := d } ∧ (st = .noMatch → v = .byte c) := by
  cases h with
  | unsent h => exact ⟨.none, s.seqD, Op.bind_of_raised (request_of_ioError q h), nofun⟩
  | received h hl hs hd hr =>
    rename_i skip ss ds rs q1
    obtain ⟨v, hv⟩ := awaitCmd_of_fails (cfg := cfg)
      (s := { s with rxq := [], env := { s.env with sends := ss }, tx := s.tx ++ [q] }) hl hs hd hr
    refine ⟨v, skip.length, by rw [Op.bind_of_done (request_of_ok q h), Op.bind_of_raised hv]; rfl, ?_⟩
    rintro rfl
    cases hr
  | discarded h hl hs hd =>
    rename_i skip ss rs
    refine ⟨.byte c, skip.length, ?_, fun _ => rfl⟩
    rw [Op.bind_of_done (request_of_ok q h), Op.bind_of_raised (awaitCmd_of_discarded
      (s := { s with rxq := [], env := { s.env with sends := ss }, tx := s.tx ++ [q] }) hl hs hd)]
    rfl

end Sys2Proof.Machine
end

