-- ==== Sys2Proof/Laws/RegisterMap.lean ====
section
/-! SUPPORT. What each shared operation of the register map can do: reading cells, checking the pairs of a write, MAP_WRITE,
a window of MAP_BULK_READ, and the generic getter and setter. -/

namespace Sys2Proof.Machine

/-! ## Reading cells -/

theorem mapGet_of_some {s : State} {a : Nat} {v : Byte} (h : Memory.read s.cache a = some v) :
    mapGet a s = .done v s := by
  simp [mapGet, h]

theorem mapGet_of_none {s : State} {a : Nat} (h : Memory.read s.cache a = none) :
    mapGet a s = .raised ⟨.notPopulated, .nat a⟩ s := by
  simp [mapGet, h]

/-- A run whose cells are populated is read, and nothing changes. -/
theorem readRun_of_holds {s : State} {a : Nat} {bs : List Byte} (h : HoldsRun s.cache a bs) :
    readRun a bs.length s = .done bs s := by
  induction bs generalizing a with
  | nil => rfl
  | cons b bs ih =>
    have h0 : Memory.read s.cache a = some b := by simpa using h 0 (by simp)
    have ht : HoldsRun s.cache (a + 1) bs := by
      intro i hi
      have := h (i + 1) (by simp; omega)
      rwa [show a + (i + 1) = a + 1 + i by omega, List.getElem?_cons_succ] at this
    rw [List.length_cons, readRun, Op.bind_of_done (mapGet_of_some h0), Op.bind_of_done (ih ht)]
    rfl

/-- A run whose first unpopulated cell is the i-th raises NotPopulated there, and nothing changes
(42_register_map.md R201). -/
theorem readRun_of_hole {s : State} {a n i : Nat} (hi : i < n)
    (hp : ∀ j, j < i → Memory.read s.cache (a + j) ≠ none) (hn : Memory.read s.cache (a + i) = none) :
    readRun a n s = .raised ⟨.notPopulated, .nat (a + i)⟩ s := by
  induction n generalizing a i with
  | zero => omega
  | succ n ih =>
    rw [readRun]
    cases i with
    | zero => exact Op.bind_of_raised (mapGet_of_none hn)
    | succ i =>
      obtain ⟨v, hv⟩ := Option.ne_none_iff_exists'.1 (hp 0 (by omega))
      rw [Nat.add_zero] at hv
      rw [Op.bind_of_done (mapGet_of_some hv)]
      have := ih (a := a + 1) (i := i) (by omega)
        (fun j hj => by rw [show a + 1 + j = a + (j + 1) by omega]; exact hp _ (by omega))
        (by rwa [show a + 1 + i = a + (i + 1) by omega])
      rw [show a + 1 + i = a + (i + 1) by omega] at this
      exact Op.bind_of_raised this

/-- Reading a run answers its cells or raises NotPopulated; nothing changes either way. -/
theorem readRun_cases (a n : Nat) (s : State) :
    (∃ bs, bs.length = n ∧ HoldsRun s.cache a bs ∧ readRun a n s = .done bs s) ∨
      ∃ i, i < n ∧ Memory.read s.cache (a + i) = none ∧
        readRun a n s = .raised ⟨.notPopulated, .nat (a + i)⟩ s := by
  by_cases h : ∃ i, i < n ∧ Memory.read s.cache (a + i) = none
  · have hf := Nat.find_spec h
    refine .inr ⟨Nat.find h, hf.1, hf.2, readRun_of_hole hf.1 (fun j hj hc => ?_) hf.2⟩
    exact Nat.find_min h hj ⟨by omega, hc⟩
  · have hp : ∀ i, i < n → ∃ v, Memory.read s.cache (a + i) = some v := fun i hi =>
      Option.ne_none_iff_exists'.1 fun hc => h ⟨i, hi, hc⟩
    have hh : HoldsRun s.cache a ((List.range n).map fun i => (Memory.read s.cache (a + i)).getD 0) := by
      intro i hi
      simp only [List.length_map, List.length_range] at hi
      obtain ⟨v, hv⟩ := hp i hi
      simp [hi, hv]
    have := readRun_of_holds hh
    simp only [List.length_map, List.length_range] at this
    exact .inl ⟨_, by simp, hh, this⟩

/-- A typed getter over populated cells answers as its decoder does. -/
theorem getTyped_of_holds {α : Type} {s : State} {cfg : Config} {f : SettingField} {raw : List Byte}
    (dec : List Byte → Except Raise α) (hl : raw.length = f.size)
    (h : HoldsRun s.cache (cfg.params.addr f).toNat raw) : getTyped cfg f dec s = Op.lift (dec raw) s := by
  have hr : readGroup cfg f s = .done raw s := by
    rw [readGroup, ← hl]
    exact readRun_of_holds h
  exact Op.bind_of_done hr

/-- The generic getter over populated cells answers as its field's decoder does (42_register_map.md R201). -/
theorem getField_of_holds {s : State} {cfg : Config} {f : SettingField} {raw : List Byte} (hl : raw.length = f.size)
    (h : HoldsRun s.cache (cfg.params.addr f).toNat raw) :
    getField cfg f s = Op.lift (codecDec cfg (codecOf f) raw) s :=
  getTyped_of_holds _ hl h

/-- The generic getter raises NotPopulated at the first unpopulated cell (42_register_map.md R201). -/
theorem getField_of_hole {s : State} {cfg : Config} {f : SettingField} {i : Nat} (hi : i < f.size)
    (hp : ∀ j, j < i → Memory.read s.cache ((cfg.params.addr f).toNat + j) ≠ none)
    (hn : Memory.read s.cache ((cfg.params.addr f).toNat + i) = none) :
    getField cfg f s = .raised ⟨.notPopulated, .nat ((cfg.params.addr f).toNat + i)⟩ s :=
  Op.bind_of_raised (readRun_of_hole hi hp hn)

/-- A run of one cell. -/
theorem holdsRun_one {m : Memory} {a : Nat} {b : Byte} (h : Memory.read m a = some b) : HoldsRun m a [b] := by
  intro i hi
  obtain rfl : i = 0 := by simpa using hi
  simpa using h

/-! ## The pairs of a write -/

/-- The least element of a list bounded by its start. -/
theorem foldl_min_eq (l : List Nat) (c lo : Nat) (hl : ∀ x ∈ l, lo ≤ x) (hc : lo ≤ c) (hm : lo ∈ l ∨ lo = c) :
    l.foldl min c = lo := by
  induction l generalizing c with
  | nil => simpa [eq_comm] using hm
  | cons x l ih =>
    rw [List.foldl_cons]
    have hx := hl x (by simp)
    refine ih _ (fun y hy => hl y (by simp [hy])) (by omega) ?_
    rcases hm with h | h
    · rcases List.mem_cons.1 h with h | h
      · exact .inr (by omega)
      · exact .inl h
    · exact .inr (by omega)

/-- A pair of a list without a repeated key is found by its key. -/
theorem lookup_of_mem {pairs : List (Byte × Byte)} {k v : Byte} (hn : (pairs.map Prod.fst).Nodup)
    (hm : (k, v) ∈ pairs) : pairs.lookup k = some v := by
  induction pairs with
  | nil => simp at hm
  | cons p ps ih =>
    obtain ⟨k', v'⟩ := p
    simp only [List.map_cons, List.nodup_cons] at hn
    rcases List.mem_cons.1 hm with h | h
    · cases h
      simp
    · have : (k == k') = false := by
        simp only [beq_eq_false_iff_ne]
        rintro rfl
        exact hn.1 (List.mem_map.2 ⟨_, h, rfl⟩)
      simp [List.lookup_cons, this, ih hn.2 h]

/-- Addresses without a repetition have keys without one. -/
theorem nodup_pairAddrs (pairs : List (Byte × Byte)) : (pairAddrs pairs).Nodup ↔ (pairs.map Prod.fst).Nodup := by
  have : pairAddrs pairs = (pairs.map Prod.fst).map BitVec.toNat := by simp [pairAddrs]
  rw [this, List.nodup_map_iff fun a b h => BitVec.eq_of_toNat_eq h]

@[simp] theorem pairVals_length (pairs : List (Byte × Byte)) (lo n : Nat) : (pairVals pairs lo n).length = n := by
  simp [pairVals]

/-- The pairs of a run of cells, in address order. -/
def runPairs (lo : Nat) (vals : List Byte) : List (Byte × Byte) :=
  (List.range vals.length).map fun i => (BitVec.ofNat 8 (lo + i), vals.getD i 0)

/-- The pairs of a run, in any order, are taken as the run (42_register_map.md R191). -/
theorem pairsArg_of_perm {pairs : List (Byte × Byte)} {lo : Nat} {vals : List Byte} (h1 : 1 ≤ vals.length)
    (h10 : vals.length ≤ 10) (hlo : lo + vals.length ≤ 256) (hp : pairs.Perm (runPairs lo vals)) :
    pairsArg pairs = .ok (lo, vals) := by
  have haddrs : (pairAddrs pairs).Perm ((List.range vals.length).map (lo + ·)) := by
    have h := hp.map fun p => p.1.toNat
    have he : (runPairs lo vals).map (fun p => p.1.toNat) = (List.range vals.length).map (lo + ·) := by
      rw [runPairs, List.map_map]
      refine List.map_congr_left fun i hi => ?_
      have := List.mem_range.1 hi
      simp
      omega
    rwa [he] at h
  have hmem : ∀ x, x ∈ pairAddrs pairs ↔ lo ≤ x ∧ x < lo + vals.length := by
    intro x
    rw [haddrs.mem_iff, List.mem_map]
    constructor
    · rintro ⟨i, hi, rfl⟩
      have := List.mem_range.1 hi
      omega
    · rintro ⟨h, h'⟩
      exact ⟨x - lo, List.mem_range.2 (by omega), by omega⟩
  have hnd : (pairAddrs pairs).Nodup := haddrs.nodup_iff.2 (List.nodup_range.map fun a b h => by simpa using h)
  have hlen : (pairAddrs pairs).length = vals.length := by simpa using haddrs.length_eq
  have hmin : minAddr pairs = lo :=
    foldl_min_eq _ _ _ (fun x hx => ((hmem x).1 hx).1) (by omega) (.inl ((hmem lo).2 (by omega)))
  have hcont : contiguousFrom lo (pairAddrs pairs) = true := by
    simp only [contiguousFrom, Bool.and_eq_true, List.all_eq_true, decide_eq_true_eq, List.contains_iff_mem,
      List.mem_range, hlen]
    exact ⟨fun x hx => (hmem x).1 hx, fun i hi => (hmem _).2 (by omega)⟩
  have hvals : pairVals pairs lo vals.length = vals := by
    apply List.ext_getElem (by simp)
    intro i hi hi'
    simp only [pairVals, List.getElem_map, List.getElem_range]
    rw [lookup_of_mem ((nodup_pairAddrs pairs).1 hnd) (v := vals[i])]
    · rfl
    · refine hp.mem_iff.2 (List.mem_map.2 ⟨i, List.mem_range.2 hi', ?_⟩)
      simp [List.getD, hi']
  simp only [pairsArg, hmin, hlen, hcont, hvals, Config.maxWrite]
  rw [if_neg (by omega), if_neg (by simp [hnd]), if_neg (by simp)]

/-- The checks of MAP_WRITE's pairs raise InvalidRange, or answer the least address and as many values as there are
pairs, the addresses being exactly that run (42_register_map.md R191). -/
theorem pairsArg_cases (pairs : List (Byte × Byte)) :
    (∃ v, pairsArg pairs = .error ⟨.invalidRange, v⟩) ∨
      ∃ lo vals, pairsArg pairs = .ok (lo, vals) ∧ vals.length = pairs.length ∧ 1 ≤ vals.length ∧
        vals.length ≤ 10 ∧ lo + vals.length ≤ 256 ∧
        ∀ x, x ∈ pairAddrs pairs ↔ lo ≤ x ∧ x < lo + vals.length := by
  have hlen : (pairAddrs pairs).length = pairs.length := by simp [pairAddrs]
  simp only [pairsArg, Config.maxWrite]
  by_cases hb : (pairAddrs pairs).length < 1 ∨ (pairAddrs pairs).length > 10
  · exact .inl ⟨_, if_pos hb⟩
  rw [if_neg hb]
  by_cases hnd : (pairAddrs pairs).Nodup
  swap
  · exact .inl ⟨_, if_pos hnd⟩
  rw [if_neg (not_not.2 hnd)]
  by_cases hc : contiguousFrom (minAddr pairs) (pairAddrs pairs) = true
  swap
  · exact .inl ⟨_, if_pos hc⟩
  rw [if_neg (not_not.2 hc)]
  simp only [contiguousFrom, Bool.and_eq_true, List.all_eq_true, decide_eq_true_eq, List.contains_iff_mem,
    List.mem_range] at hc
  have hmem : ∀ x, x ∈ pairAddrs pairs ↔ minAddr pairs ≤ x ∧ x < minAddr pairs + (pairAddrs pairs).length := by
    intro x
    refine ⟨fun hx => hc.1 x hx, fun ⟨h, h'⟩ => ?_⟩
    have := hc.2 (x - minAddr pairs) (by omega)
    rwa [show minAddr pairs + (x - minAddr pairs) = x by omega] at this
  have hbound : ∀ x ∈ pairAddrs pairs, x < 256 := by
    intro x hx
    obtain ⟨p, -, rfl⟩ := List.mem_map.1 hx
    exact p.1.isLt
  have htop := hbound _ ((hmem (minAddr pairs + (pairAddrs pairs).length - 1)).2 (by omega))
  refine .inr ⟨_, _, rfl, ?_, ?_, ?_, ?_, ?_⟩
  · simpa using hlen
  · simp only [pairVals_length]; omega
  · simp only [pairVals_length]; omega
  · simp only [pairVals_length]; omega
  · simpa using hmem

/-- Pairs that pass are accepted: without a gap or a repetition, as many addresses as pairs are exactly the run from the
least one (42_register_map.md R191). -/
theorem pairsArg_of_pass {pairs : List (Byte × Byte)} (h : PairsPass pairs) :
    ∃ lo vals, pairsArg pairs = .ok (lo, vals) := by
  obtain ⟨h1, h10, hnd, hgap⟩ := h
  have hlen : (pairAddrs pairs).length = pairs.length := by simp [pairAddrs]
  have hnd' := (nodup_pairAddrs pairs).2 hnd
  have hne : (pairAddrs pairs).toFinset.Nonempty := by
    rw [List.toFinset_nonempty_iff]
    rintro h
    simp [h] at hlen
    omega
  obtain ⟨lo, hlo, hmin⟩ := (pairAddrs pairs).toFinset.exists_min_image id hne
  obtain ⟨hi, hhi, hmax⟩ := (pairAddrs pairs).toFinset.exists_max_image id hne
  simp only [List.mem_toFinset, id] at hlo hmin hhi hmax
  have hmem : ∀ x, x ∈ pairAddrs pairs ↔ lo ≤ x ∧ x ≤ hi := by
    refine fun x => ⟨fun hx => ⟨hmin x hx, hmax x hx⟩, fun ⟨hl, hh⟩ => ?_⟩
    rcases Nat.eq_or_lt_of_le hl with rfl | hl
    · exact hlo
    rcases Nat.eq_or_lt_of_le hh with rfl | hh
    · exact hhi
    obtain ⟨p, hp, rfl⟩ := List.mem_map.1 hlo
    obtain ⟨q, hq, rfl⟩ := List.mem_map.1 hhi
    obtain ⟨r, hr, rfl⟩ := hgap p hp q hq x hl hh
    exact List.mem_map.2 ⟨r, hr, rfl⟩
  have hcard : hi + 1 - lo = (pairAddrs pairs).length := by
    rw [← List.toFinset_card_of_nodup hnd', ← Nat.card_Icc]
    congr 1
    ext x
    simp [hmem]
  have hle : lo ≤ hi := hmin hi hhi
  have hfold : minAddr pairs = lo :=
    foldl_min_eq _ _ _ hmin ((hmin _ hlo).trans (by have := (hmem hi).1 hhi; obtain ⟨p, -, rfl⟩ := List.mem_map.1 hlo; omega))
      (.inl hlo)
  have hcont : contiguousFrom lo (pairAddrs pairs) = true := by
    simp only [contiguousFrom, Bool.and_eq_true, List.all_eq_true, decide_eq_true_eq, List.contains_iff_mem,
      List.mem_range]
    refine ⟨fun x hx => ?_, fun i hi' => (hmem _).2 (by omega)⟩
    have := (hmem x).1 hx
    omega
  refine ⟨lo, pairVals pairs lo (pairAddrs pairs).length, ?_⟩
  simp only [pairsArg, hfold, hcont, Config.maxWrite]
  rw [if_neg (by omega), if_neg (by simp [hnd']), if_neg (by simp)]

theorem groupPairs_eq_runPairs (a : Byte) (bs : List Byte) : groupPairs a bs = runPairs a.toNat bs := by
  induction bs generalizing a with
  | nil => rfl
  | cons b bs ih =>
    rw [groupPairs, ih]
    simp only [runPairs, List.length_cons, List.range_succ_eq_map, List.map_cons, List.map_map, Nat.add_zero,
      BitVec.ofNat_toNat, BitVec.setWidth_eq, List.getD_cons_zero, List.cons.injEq, true_and]
    refine List.map_congr_left fun i _ => ?_
    simp only [Function.comp_apply, List.getD_cons_succ, Prod.mk.injEq, and_true]
    apply BitVec.eq_of_toNat_eq
    simp
    omega

/-- The cells of a setting field, its checksum included, lie in the map (00_scope.md R6(e)). -/
theorem addr_in_map (cfg : Config) (f : SettingField) :
    (cfg.params.addr f).toNat + f.size ≤ 0xC1 := by
  have h := cfg.ok.2.2.2.2.2.2.1 f (by cases f <;> first | decide | (rename_i m; revert m; decide))
  simpa [Config.nominalLastAddr] using h

/-- Two setting fields share no cell, checksums included (00_scope.md R6(e)). -/
theorem fields_apart (cfg : Config) {f g : SettingField} (h : f ≠ g) : cfg.params.Apart f g := by
  have hp := cfg.ok.2.2.2.2.2.2.2
  have hall : ∀ f : SettingField, f ∈ SettingField.all := by
    intro f
    cases f <;> first | decide | (rename_i m; revert m; decide)
  obtain ⟨i, hi, rfl⟩ := List.getElem_of_mem (hall f)
  obtain ⟨j, hj, rfl⟩ := List.getElem_of_mem (hall g)
  rcases Nat.lt_trichotomy i j with hl | rfl | hl
  · exact List.pairwise_iff_getElem.1 hp i j hi hj hl
  · exact absurd rfl h
  · exact (List.pairwise_iff_getElem.1 hp j i hj hi hl).symm

/-- A setter's pairs are taken as the group and its checksum: the range checks always pass (42_register_map.md R200). -/
theorem pairsArg_settingPairs {cfg : Config} {f : SettingField} {raw : List Byte} (hl : raw.length = f.size) :
    pairsArg (settingPairs cfg f raw) = .ok ((cfg.params.addr f).toNat, raw ++ [Sys2Proof.cksum raw]) := by
  have ha := addr_in_map cfg f
  have hs : f.size ≤ 3 := by cases f <;> simp [SettingField.size]
  refine pairsArg_of_perm (by simp) (by simp; omega) (by simp; omega) ?_
  rw [settingPairs, groupPairs_eq_runPairs]

/-! ## MAP_WRITE -/

/-- A range of 1 to 10 cells inside the map is accepted (41_payload.md R152). -/
theorem rangeArg_of_range {a : Byte} {n : Nat} (h1 : 1 ≤ n) (h10 : n ≤ 10) (h : a.toNat + n ≤ 256) :
    rangeArg a n = .ok () := by
  simp only [rangeArg, Config.maxWrite]
  rw [if_neg (by omega)]

/-- Any other range raises InvalidRange (41_payload.md R152). -/
theorem rangeArg_of_not_range {a : Byte} {n : Nat} (h : n < 1 ∨ 10 < n ∨ 256 < a.toNat + n) :
    rangeArg a n = .error ⟨.invalidRange, .pair a.toNat n⟩ := by
  simp only [rangeArg, Config.maxWrite]
  rw [if_pos (by omega)]

/-- A memory request's range inside the map is accepted (41_payload.md R153). -/
theorem encMemwrite_of_range {cfg : Config} {lo : Nat} {vals : List Byte} (h1 : 1 ≤ vals.length)
    (h10 : vals.length ≤ 10) (hlo : lo + vals.length ≤ 256) :
    encMemwrite cfg (BitVec.ofNat 8 lo) vals = .ok (memwriteQFrame cfg (BitVec.ofNat 8 lo) vals) := by
  have : lo % 256 = lo := Nat.mod_eq_of_lt (by omega)
  simp only [encMemwrite, rangeArg, Config.maxWrite, BitVec.toNat_ofNat, Nat.reducePow, this]
  rw [if_neg (by omega)]

/-- MAP_WRITE of accepted pairs under one valid reply (42_register_map.md R191). -/
theorem mapWrite_of_reply {s : State} {cfg : Config} {pairs : List (Byte × Byte)} {lo : Nat} {vals : List Byte}
    {b : List Byte} {more : List (List Byte)} {ss : List LinkResult} {rs : List RecvDraw} {f : Frame}
    (hc : s.sess = .connected) (hp : pairsArg pairs = .ok (lo, vals)) (h1 : 1 ≤ vals.length) (h10 : vals.length ≤ 10)
    (hlo : lo + vals.length ≤ 256) (hr : s.RepliedBy b more ss rs) (hf : Frame.parse b = .ok f) :
    mapWrite cfg pairs s = .done ()
      { s.exchanged (memwriteQFrame cfg (BitVec.ofNat 8 lo) vals) more ss rs with
        cache := Memory.writeRun s.cache lo vals } := by
  rw [mapWrite, hp, Op.lift_ok_bind, Op.bind_of_done (requireConnected_of_connected hc),
    encMemwrite_of_range h1 h10 hlo, Op.lift_ok_bind, request_awaitAny _ hr hf]
  rfl

/-- MAP_WRITE of accepted pairs whose exchange fails: the request is sent, no cell is written (42_register_map.md R191). -/
theorem mapWrite_of_fails {s : State} {cfg : Config} {pairs : List (Byte × Byte)} {lo : Nat} {vals : List Byte}
    {st : Status} {rxq : List (List Byte)} {e : Env} (hc : s.sess = .connected)
    (hp : pairsArg pairs = .ok (lo, vals)) (h1 : 1 ≤ vals.length) (h10 : vals.length ≤ 10)
    (hlo : lo + vals.length ≤ 256) (h : s.env.ReplyFails st rxq e) :
    ∃ v, mapWrite cfg pairs s =
      .raised ⟨st, v⟩ (s.waited (memwriteQFrame cfg (BitVec.ofNat 8 lo) vals) rxq e) := by
  rw [mapWrite, hp, Op.lift_ok_bind, Op.bind_of_done (requireConnected_of_connected hc),
    encMemwrite_of_range h1 h10 hlo, Op.lift_ok_bind]
  exact request_awaitAny_of_fails _ h

/-- Everything MAP_WRITE can do: an error of its checks, NotConnected, or one request sent; then a reply and the cells, or
an error and no cell (42_register_map.md R191, 60_exceptions.md R342). -/
theorem mapWrite_cases (cfg : Config) (pairs : List (Byte × Byte)) (s : State) :
    (∃ v, mapWrite cfg pairs s = .raised ⟨.invalidRange, v⟩ s) ∨
    (s.sess = .disconnected ∧ mapWrite cfg pairs s = .raised ⟨.notConnected, .none⟩ s) ∨
    (s.sess = .connected ∧ ∃ lo vals env rxq, pairsArg pairs = .ok (lo, vals) ∧ 1 ≤ vals.length ∧
      vals.length ≤ 10 ∧ lo + vals.length ≤ 256 ∧
      (mapWrite cfg pairs s = .done ()
          { s with cache := Memory.writeRun s.cache lo vals, rxq := rxq, env := env,
                   tx := s.tx ++ [memwriteQFrame cfg (BitVec.ofNat 8 lo) vals] } ∨
        ∃ e, e.status ∈ recvErrors ∧ mapWrite cfg pairs s = .raised e
          { s with rxq := rxq, env := env, tx := s.tx ++ [memwriteQFrame cfg (BitVec.ofNat 8 lo) vals] })) := by
  obtain ⟨v, hp⟩ | ⟨lo, vals, hp, -, h1, h10, hlo, -⟩ := pairsArg_cases pairs
  · exact .inl ⟨v, by rw [mapWrite, hp]; rfl⟩
  · obtain ⟨hc, hr⟩ | ⟨hc, hr⟩ := requireConnected_cases s
    · refine .inr (.inr ⟨hc, lo, vals, ?_⟩)
      obtain ⟨env, hq | hq⟩ := request_cases (memwriteQFrame cfg (BitVec.ofNat 8 lo) vals) s
      · obtain ⟨env', rxq, ⟨f, ha, -⟩ | ⟨e, ha, he⟩⟩ := awaitAny_cases
          { s with rxq := [], env := env, tx := s.tx ++ [memwriteQFrame cfg (BitVec.ofNat 8 lo) vals] }
        · refine ⟨env', rxq, hp, h1, h10, hlo, .inl ?_⟩
          rw [mapWrite, hp, Op.lift_ok_bind, Op.bind_of_done hr, encMemwrite_of_range h1 h10 hlo, Op.lift_ok_bind,
            Op.bind_of_done hq, Op.bind_of_done ha]
          rfl
        · refine ⟨env', rxq, hp, h1, h10, hlo, .inr ⟨e, he, ?_⟩⟩
          rw [mapWrite, hp, Op.lift_ok_bind, Op.bind_of_done hr, encMemwrite_of_range h1 h10 hlo, Op.lift_ok_bind,
            Op.bind_of_done hq, Op.bind_of_raised ha]
      · refine ⟨env, [], hp, h1, h10, hlo, .inr ⟨⟨.ioError, .none⟩, by decide, ?_⟩⟩
        rw [mapWrite, hp, Op.lift_ok_bind, Op.bind_of_done hr, encMemwrite_of_range h1 h10 hlo, Op.lift_ok_bind,
          Op.bind_of_raised hq]
    · exact .inr (.inl ⟨hc, by rw [mapWrite, hp, Op.lift_ok_bind, Op.bind_of_raised hr]⟩)

/-! ## Setters -/

/-- An encoder answers as many bytes as its field has value cells, or raises InvalidValue or AlignmentError. -/
theorem codecEnc_cases (cfg : Config) (f : SettingField) (v : Word32) (text : List Ascii) :
    (∃ raw, codecEnc cfg (codecOf f) v text = .ok raw ∧ raw.length = f.size) ∨
      ∃ e, codecEnc cfg (codecOf f) v text = .error e ∧ e.status ∈ [Status.invalidValue, .alignmentError] := by
  have hone : ∀ x : Except Raise Byte, (∀ e, x = .error e → e.status = .invalidValue) →
      (∃ raw, mapOk (fun b => [b]) x = .ok raw ∧ raw.length = 1) ∨
        ∃ e, mapOk (fun b => [b]) x = .error e ∧ e.status ∈ [Status.invalidValue, .alignmentError] := by
    intro x hx
    cases x with
    | ok b => exact .inl ⟨[b], rfl, rfl⟩
    | error e => exact .inr ⟨e, rfl, by simp [hx e rfl]⟩
  have hif : ∀ (p : Prop) [Decidable p] (r : Raise) (b : Byte) (e : Raise), r.status = .invalidValue →
      (if p then Except.error r else Except.ok b) = Except.error e → e.status = .invalidValue := by
    intro p _ r b e hr h
    split at h
    · cases h
      exact hr
    · cases h
  cases f with
  | poll =>
    refine hone (pollEnc cfg v) fun e h => ?_
    simp only [pollEnc] at h
    split at h <;> cases h
    rfl
  | ledEffect =>
    refine hone (effectEnc cfg v) fun e h => ?_
    simp only [effectEnc] at h
    split at h <;> cases h
    rfl
  | dpiIdx => exact hone (idxEnc v) fun e h => hif _ _ _ _ (by rfl) h
  | lodMm => exact hone (byteEnc v) fun e h => hif _ _ _ _ (by rfl) h
  | debounce => exact hone (byteEnc v) fun e h => hif _ _ _ _ (by rfl) h
  | ledBright => exact hone (byteEnc v) fun e h => hif _ _ _ _ (by rfl) h
  | breatheSpeed => exact hone (byteEnc v) fun e h => hif _ _ _ _ (by rfl) h
  | lodRipple => exact hone (boolEnc v) fun e h => hif _ _ _ _ (by rfl) h
  | motionSync => exact hone (boolEnc v) fun e h => hif _ _ _ _ (by rfl) h
  | angleSnap => exact hone (boolEnc v) fun e h => hif _ _ _ _ (by rfl) h
  | ledEnabled => exact hone (boolEnc v) fun e h => hif _ _ _ _ (by rfl) h
  | autosleep => exact hone (sleepEnc v) fun e h => hif _ _ _ _ (by rfl) h
  | dpi m =>
    simp only [codecOf, codecEnc, dpiEnc, SettingField.size]
    split
    · exact .inr ⟨_, rfl, by simp⟩
    · split
      · exact .inr ⟨_, rfl, by simp⟩
      · exact .inl ⟨_, rfl, rfl⟩
  | color m =>
    simp only [codecOf, codecEnc, colorEnc, SettingField.size]
    split
    · exact .inl ⟨_, rfl, rfl⟩
    · exact .inr ⟨_, rfl, by simp⟩

/-- The generic setter with an encoded value under one valid reply: the group and its checksum sent and stored
(42_register_map.md R200). -/
theorem setField_of_reply {s : State} {cfg : Config} {f : SettingField} {v : Word32} {text : List Ascii}
    {raw : List Byte} {b : List Byte} {more : List (List Byte)} {ss : List LinkResult} {rs : List RecvDraw} {r : Frame}
    (hc : s.sess = .connected) (he : codecEnc cfg (codecOf f) v text = .ok raw) (hr : s.RepliedBy b more ss rs)
    (hf : Frame.parse b = .ok r) :
    setField cfg f v text s = .done ()
      { s.exchanged (memwriteQFrame cfg (cfg.params.addr f) (raw ++ [Sys2Proof.cksum raw])) more ss rs with
        cache := Memory.writeRun s.cache (cfg.params.addr f).toNat (raw ++ [Sys2Proof.cksum raw]) } := by
  have hl : raw.length = f.size := by
    obtain ⟨raw', h, hl⟩ | ⟨e, h, -⟩ := codecEnc_cases cfg f v text
    · rw [he] at h
      cases h
      exact hl
    · rw [he] at h
      cases h
  have ha := addr_in_map cfg f
  have hs : f.size ≤ 3 := by cases f <;> simp [SettingField.size]
  rw [setField, he, Op.lift_ok_bind,
    mapWrite_of_reply hc (pairsArg_settingPairs hl) (by simp) (by simp; omega) (by simp; omega) hr hf]
  simp

/-- The generic setter with a value its encoder refuses: nothing is sent and nothing changes (42_register_map.md R200). -/
theorem setField_of_error {s : State} {cfg : Config} {f : SettingField} {v : Word32} {text : List Ascii} {e : Raise}
    (he : codecEnc cfg (codecOf f) v text = .error e) : setField cfg f v text s = .raised e s := by
  rw [setField, he]
  rfl

/-- Everything the generic setter can do: its encoder's error, NotConnected, or one request sent; then a reply and the
cells of its field with their checksum, or an error and no cell (42_register_map.md R200). -/
theorem setField_cases (cfg : Config) (f : SettingField) (v : Word32) (text : List Ascii) (s : State) :
    (∃ e, codecEnc cfg (codecOf f) v text = .error e ∧ e.status ∈ [Status.invalidValue, .alignmentError] ∧
      setField cfg f v text s = .raised e s) ∨
    (s.sess = .disconnected ∧ setField cfg f v text s = .raised ⟨.notConnected, .none⟩ s) ∨
    (s.sess = .connected ∧ ∃ raw env rxq, codecEnc cfg (codecOf f) v text = .ok raw ∧ raw.length = f.size ∧
      (setField cfg f v text s = .done ()
          { s with cache := Memory.writeRun s.cache (cfg.params.addr f).toNat (raw ++ [Sys2Proof.cksum raw]),
                   rxq := rxq, env := env,
                   tx := s.tx ++ [memwriteQFrame cfg (cfg.params.addr f) (raw ++ [Sys2Proof.cksum raw])] } ∨
        ∃ e, e.status ∈ recvErrors ∧ setField cfg f v text s = .raised e
          { s with rxq := rxq, env := env,
                   tx := s.tx ++ [memwriteQFrame cfg (cfg.params.addr f) (raw ++ [Sys2Proof.cksum raw])] })) := by
  obtain ⟨raw, he, hl⟩ | ⟨e, he, hs⟩ := codecEnc_cases cfg f v text
  · have hp := pairsArg_settingPairs (cfg := cfg) hl
    obtain ⟨x, h⟩ | h | ⟨hc, lo, vals, env, rxq, hp', -, -, -, h⟩ := mapWrite_cases cfg (settingPairs cfg f raw) s
    · rw [mapWrite, hp, Op.lift_ok_bind] at h
      obtain ⟨-, hr⟩ | ⟨-, hr⟩ := requireConnected_cases s
      · have ha := addr_in_map cfg f
        have hs : f.size ≤ 3 := by cases f <;> simp [SettingField.size]
        rw [Op.bind_of_done hr, encMemwrite_of_range (by simp) (by simp; omega) (by simp; omega), Op.lift_ok_bind] at h
        rcases Op.bind_eq_raised h with h' | ⟨_, u, h', h''⟩
        · obtain ⟨env, hq | hq⟩ :=
            request_cases (memwriteQFrame cfg (BitVec.ofNat 8 (cfg.params.addr f).toNat) (raw ++ [Sys2Proof.cksum raw])) s
          · rw [hq] at h'
            cases h'
          · rw [hq] at h'
            cases h'
        · rcases Op.bind_eq_raised h'' with h3 | ⟨_, w, -, h4⟩
          · obtain ⟨env, rxq, ⟨g, hg, -⟩ | ⟨e, hg, hge⟩⟩ := awaitAny_cases u
            · rw [hg] at h3
              cases h3
            · rw [hg] at h3
              cases h3
              simp [recvErrors] at hge
          · cases h4
      · rw [Op.bind_of_raised hr] at h
        cases h
    · exact .inr (.inl ⟨h.1, by rw [setField, he, Op.lift_ok_bind, h.2]⟩)
    · rw [hp] at hp'
      cases hp'
      refine .inr (.inr ⟨hc, raw, env, rxq, he, hl, ?_⟩)
      rw [setField, he, Op.lift_ok_bind]
      simpa using h
  · exact .inl ⟨e, he, hs, setField_of_error he⟩

/-! ## MAP_BULK_READ -/

@[simp] theorem windowBytes_length (f : Frame) : (windowBytes f).length = 10 := by
  simp [windowBytes, Config.memDataPos, Config.window]

/-- The request of window k is in range (42_register_map.md R192). -/
theorem encMemread_window {cfg : Config} {k : Nat} (hk : k < 20) :
    encMemread cfg (BitVec.ofNat 8 (10 * k)) (BitVec.ofNat 8 10) =
      .ok (memreadQFrame cfg (BitVec.ofNat 8 (10 * k)) 10) := by
  have : 10 * k % 256 = 10 * k := Nat.mod_eq_of_lt (by omega)
  simp only [encMemread, rangeArg, Config.maxWrite, BitVec.toNat_ofNat, Nat.reducePow, this]
  rw [if_neg (by omega)]
  rfl

/-- The data bytes of a window's reply (42_register_map.md R192). -/
theorem windowBytes_getElem? (f : Frame) {i : Nat} (hi : i < 10) : (windowBytes f)[i]? = some (f.byteAt (6 + i)) := by
  simp only [windowBytes, Config.memDataPos, Config.window, Frame.byteAt]
  rw [List.getElem?_take_of_lt hi, List.getElem?_drop, List.getElem?_eq_getElem (by simp; omega)]
  simp [List.getD, List.getElem?_eq_getElem (show 6 + i < f.toBytes.length by simp; omega)]

/-- The windows held, and the cells of the next one written: one window more held (20_memory.md R71). -/
theorem HoldsWindows.snoc {m m0 : Memory} {fs : List Frame} (h : HoldsWindows m m0 fs) (f : Frame) :
    HoldsWindows (Memory.writeRun m (10 * fs.length) (windowBytes f)) m0 (fs ++ [f]) := by
  intro a
  rw [Memory.read_writeRun, windowBytes_length, List.length_append, List.length_singleton]
  by_cases h1 : a < 10 * fs.length
  · rw [if_neg (by omega), h a, if_pos h1, if_pos (by omega), List.getElem?_append_left (by omega)]
  · by_cases h2 : a < 10 * fs.length + 10
    · rw [if_pos ⟨by omega, h2⟩, if_pos (by omega), List.getElem?_append_right (by omega),
        show a / 10 - fs.length = 0 by omega, windowBytes_getElem? f (by omega)]
      simp only [List.getElem?_cons_zero, Option.map_some, show a - 10 * fs.length = a % 10 by omega]
    · rw [if_neg (by omega), h a, if_neg h1, if_neg (by omega)]

/-- One window of MAP_BULK_READ whose request is answered: the ten cells where the reply echoes the window, else
ProtocolViolation (42_register_map.md R192). -/
theorem bulkWindow_of_answers {cfg : Config} {s : State} {f : Frame} {rxq : List (List Byte)} {e : Env}
    (hk : s.seqK < 20) (h : s.env.Answers cfg cfg.params.cmdMemread f rxq e) :
    ∃ d,
      (EchoesWindow s.seqK f → bulkWindow cfg s = .done ()
        { s.waited (memreadQFrame cfg (BitVec.ofNat 8 (10 * s.seqK)) 10) rxq e with
          seqD := d, cache := Memory.writeRun s.cache (10 * s.seqK) (windowBytes f) }) ∧
      (¬ EchoesWindow s.seqK f → ∃ v, bulkWindow cfg s = .raised ⟨.protocolViolation, v⟩
        { s.waited (memreadQFrame cfg (BitVec.ofNat 8 (10 * s.seqK)) 10) rxq e with seqD := d }) := by
  rw [bulkWindow, Op.read_bind, show Config.window = 10 from rfl, encMemread_window hk, Op.lift_ok_bind]
  obtain ⟨d, hd⟩ := request_awaitCmd (α := Unit) (q := memreadQFrame cfg (BitVec.ofNat 8 (10 * s.seqK)) 10) h
  refine ⟨d, fun he => ?_, fun he => ⟨.numberedFrame (10 * s.seqK) f, ?_⟩⟩
  · rw [hd, if_neg (by simp only [EchoesWindow] at he; simp only [Config.memAddrPos, Config.memLenPos]; omega)]
    rfl
  · rw [hd, if_pos (by simp only [EchoesWindow] at he; simp only [Config.memAddrPos, Config.memLenPos]; omega)]
    rfl

/-- One window of MAP_BULK_READ whose request is not answered: no cell is written (42_register_map.md R192). -/
theorem bulkWindow_of_fails {cfg : Config} {s : State} {st : Status} {rxq : List (List Byte)} {e : Env}
    (hk : s.seqK < 20) (h : s.env.AwaitFails cfg cfg.params.cmdMemread st rxq e) :
    ∃ v d, bulkWindow cfg s = .raised ⟨st, v⟩
        { s.waited (memreadQFrame cfg (BitVec.ofNat 8 (10 * s.seqK)) 10) rxq e with seqD := d } ∧
      (st = .noMatch → v = .byte cfg.params.cmdMemread) := by
  rw [bulkWindow, Op.read_bind, show Config.window = 10 from rfl, encMemread_window hk, Op.lift_ok_bind]
  exact request_awaitCmd_of_fails _ h

/-- One window of MAP_BULK_READ: one request sent; then a valid reply that echoes the window and its ten cells written, or
an error and none (42_register_map.md R192). -/
theorem bulkWindow_cases (cfg : Config) (s : State) (hk : s.seqK < 20) :
    ∃ env rxq d,
      (∃ f : Frame, f.command = cfg.params.cmdMemread ∧ f.checksum = Sys2Proof.cksum f.body ∧
        EchoesWindow s.seqK f ∧ bulkWindow cfg s = .done ()
        { s with cache := Memory.writeRun s.cache (10 * s.seqK) (windowBytes f), rxq := rxq, env := env, seqD := d,
                 tx := s.tx ++ [memreadQFrame cfg (BitVec.ofNat 8 (10 * s.seqK)) 10] }) ∨
      ∃ e, bulkWindow cfg s = .raised e
        { s with rxq := rxq, env := env, seqD := d,
                 tx := s.tx ++ [memreadQFrame cfg (BitVec.ofNat 8 (10 * s.seqK)) 10] } ∧
        e.status ∈ Status.protocolViolation :: .noMatch :: recvErrors := by
  rw [bulkWindow, Op.read_bind, show Config.window = 10 from rfl, encMemread_window hk, Op.lift_ok_bind]
  obtain ⟨env, hq | hq⟩ := request_cases (memreadQFrame cfg (BitVec.ofNat 8 (10 * s.seqK)) 10) s
  · rw [Op.bind_of_done hq]
    obtain ⟨env', rxq, d, ⟨f, ha, hc, hck⟩ | ⟨e, ha, he⟩⟩ := awaitCmd_cases cfg cfg.params.cmdMemread
      { s with rxq := [], env := env, tx := s.tx ++ [memreadQFrame cfg (BitVec.ofNat 8 (10 * s.seqK)) 10] }
    · rw [Op.bind_of_done ha]
      refine ⟨env', rxq, d, ?_⟩
      split
      · exact .inr ⟨_, rfl, by simp⟩
      · rename_i hn
        refine .inl ⟨f, hc, hck, ?_, rfl⟩
        simp only [Config.memAddrPos, Config.memLenPos, not_or, not_not] at hn
        exact hn
    · rw [Op.bind_of_raised ha]
      exact ⟨env', rxq, d, .inr ⟨e, rfl, by simp [he]⟩⟩
  · rw [Op.bind_of_raised hq]
    exact ⟨env, [], s.seqD, .inr ⟨_, rfl, by simp [recvErrors]⟩⟩

end Sys2Proof.Machine
end

