-- ==== Sys2Proof/Laws/Session.lean ====
section
/-! SUPPORT. What each session operation can do: one inversion lemma for each, over the request and reply they share. -/

namespace Sys2Proof.Machine

/-- The state with one more frame sent and the receive side moved: what a request and its wait leave, whatever the
transport and the device do. -/
def State.moved (s : State) (q : Frame) (rxq : List (List Byte)) (env : Env) (d : Nat) : State :=
  { s with rxq := rxq, env := env, seqD := d, tx := s.tx ++ [q] }

@[simp] theorem State.moved_cache (s : State) (q : Frame) (rxq : List (List Byte)) (env : Env) (d : Nat) :
    (s.moved q rxq env d).cache = s.cache := rfl
@[simp] theorem State.moved_sess (s : State) (q : Frame) (rxq : List (List Byte)) (env : Env) (d : Nat) :
    (s.moved q rxq env d).sess = s.sess := rfl
@[simp] theorem State.moved_profile (s : State) (q : Frame) (rxq : List (List Byte)) (env : Env) (d : Nat) :
    (s.moved q rxq env d).profile = s.profile := rfl
@[simp] theorem State.moved_rxq (s : State) (q : Frame) (rxq : List (List Byte)) (env : Env) (d : Nat) :
    (s.moved q rxq env d).rxq = rxq := rfl
@[simp] theorem State.moved_tx (s : State) (q : Frame) (rxq : List (List Byte)) (env : Env) (d : Nat) :
    (s.moved q rxq env d).tx = s.tx ++ [q] := rfl
@[simp] theorem State.moved_seqK (s : State) (q : Frame) (rxq : List (List Byte)) (env : Env) (d : Nat) :
    (s.moved q rxq env d).seqK = s.seqK := rfl
@[simp] theorem State.moved_seqD (s : State) (q : Frame) (rxq : List (List Byte)) (env : Env) (d : Nat) :
    (s.moved q rxq env d).seqD = d := rfl
@[simp] theorem State.moved_result (s : State) (q : Frame) (rxq : List (List Byte)) (env : Env) (d : Nat) :
    (s.moved q rxq env d).result = s.result := rfl
@[simp] theorem State.moved_inputs (s : State) (q : Frame) (rxq : List (List Byte)) (env : Env) (d : Nat) :
    (s.moved q rxq env d).inputs = s.inputs := rfl
@[simp] theorem State.moved_env (s : State) (q : Frame) (rxq : List (List Byte)) (env : Env) (d : Nat) :
    (s.moved q rxq env d).env = env := rfl
@[simp] theorem State.moved_cfg (s : State) (q : Frame) (rxq : List (List Byte)) (env : Env) (d : Nat) :
    (s.moved q rxq env d).cfg = s.cfg := rfl

/-- The statuses an exchange of a request and a filtered reply can raise (44_session.md R290 to R292). -/
def exchangeErrors : List Status := .noMatch :: recvErrors

/-- A request and its filtered wait: a valid frame of the command awaited goes to the rest of the operation, or an error
ends it; either way one frame is sent and only the receive side moves. -/
theorem exchange_cases (cfg : Config) (c : Byte) (q : Frame) (s : State) :
    ∃ env rxq d,
      (∃ f : Frame, f.command = c ∧ f.checksum = Sys2Proof.cksum f.body ∧ ∀ {α : Type} (k : Frame → Op α),
        ((request q).bind fun _ => (awaitCmd cfg c).bind k) s = k f (s.moved q rxq env d)) ∨
      ∃ e : Raise, e.status ∈ exchangeErrors ∧ ∀ {α : Type} (k : Frame → Op α),
        ((request q).bind fun _ => (awaitCmd cfg c).bind k) s = .raised e (s.moved q rxq env d) := by
  obtain ⟨env, hq | hq⟩ := request_cases q s
  · obtain ⟨env', rxq, d, ⟨f, ha, hc, hk⟩ | ⟨e, ha, he⟩⟩ := awaitCmd_cases cfg c
      { s with rxq := [], env := env, tx := s.tx ++ [q] }
    · refine ⟨env', rxq, d, .inl ⟨f, hc, hk, fun k => ?_⟩⟩
      rw [Op.bind_of_done hq, Op.bind_of_done ha]
      rfl
    · refine ⟨env', rxq, d, .inr ⟨e, he, fun k => ?_⟩⟩
      rw [Op.bind_of_done hq, Op.bind_of_raised ha]
      rfl
  · refine ⟨env, [], s.seqD, .inr ⟨⟨.ioError, .none⟩, by decide, fun k => ?_⟩⟩
    rw [Op.bind_of_raised hq]
    rfl

/-- OPEN: no effect while connected; else the transport's answer opens the session with the partial reset, or raises
IOError with nothing but the draws moved (44_session.md R300). -/
theorem openOperation_cases (s : State) :
    (s.sess = .connected ∧ openOperation s = .done () s) ∨
      (s.sess = .disconnected ∧ ∃ env,
        openOperation s = .done ()
            { s with sess := .connected, profile := none, cache := [], rxq := [], env := env } ∨
          openOperation s = .raised ⟨.ioError, .none⟩ { s with env := env }) := by
  by_cases hc : s.sess = .connected
  · exact .inl ⟨hc, by simp [openOperation, hc]⟩
  · have hd : s.sess = .disconnected := by
      cases h : s.sess with
      | connected => exact absurd h hc
      | disconnected => rfl
    refine .inr ⟨hd, s.env.nextOpen.2, ?_⟩
    have h : openStep s = .done s.env.nextOpen.1 { s with env := s.env.nextOpen.2 } := rfl
    rw [openOperation, Op.read_bind, if_neg hc, Op.bind_of_done h]
    cases s.env.nextOpen.1 with
    | ok => exact .inl rfl
    | ioError => exact .inr rfl

/-- OPEN where the transport answers ok. -/
theorem openOperation_of_ok {s : State} {os : List LinkResult} (hc : s.sess = .disconnected)
    (h : s.env.opens = .ok :: os) :
    openOperation s = .done ()
      { s with sess := .connected, profile := none, cache := [], rxq := [], env := { s.env with opens := os } } := by
  have h : openStep s = .done .ok { s with env := { s.env with opens := os } } := by
    simp [openStep, Env.nextOpen, h]
  rw [openOperation, Op.read_bind, if_neg (by simp [hc]), Op.bind_of_done h]
  rfl

/-- OPEN where the transport answers IOError. -/
theorem openOperation_of_ioError {s : State} {os : List LinkResult} (hc : s.sess = .disconnected)
    (h : s.env.opens = .ioError :: os) :
    openOperation s = .raised ⟨.ioError, .none⟩ { s with env := { s.env with opens := os } } := by
  have h : openStep s = .done .ioError { s with env := { s.env with opens := os } } := by
    simp [openStep, Env.nextOpen, h]
  rw [openOperation, Op.read_bind, if_neg (by simp [hc]), Op.bind_of_done h]
  rfl

/-- RESTORE: NotConnected, or one request; then the cache cleared after a whole echo, or an error and the cache kept
(44_session.md R296). -/
theorem restoreOperation_cases (cfg : Config) (s : State) :
    (s.sess = .disconnected ∧ restoreOperation cfg s = .raised ⟨.notConnected, .none⟩ s) ∨
      (s.sess = .connected ∧ ∃ env rxq d,
        restoreOperation cfg s = .done () { s.moved (restoreQFrame cfg) rxq env d with cache := [] } ∨
          ∃ e, e.status ∈ Status.protocolViolation :: exchangeErrors ∧
            restoreOperation cfg s = .raised e (s.moved (restoreQFrame cfg) rxq env d)) := by
  obtain ⟨hc, hr⟩ | ⟨hc, hr⟩ := requireConnected_cases s
  · refine .inr ⟨hc, ?_⟩
    obtain ⟨env, rxq, d, ⟨f, -, -, hk⟩ | ⟨e, he, hk⟩⟩ :=
      exchange_cases cfg cfg.params.cmdRestore (restoreQFrame cfg) s
    · refine ⟨env, rxq, d, ?_⟩
      rw [restoreOperation, Op.bind_of_done hr, hk]
      split
      · exact .inr ⟨_, by simp, rfl⟩
      · exact .inl rfl
    · refine ⟨env, rxq, d, .inr ⟨e, by simp [he], ?_⟩⟩
      rw [restoreOperation, Op.bind_of_done hr, hk]
  · exact .inl ⟨hc, by rw [restoreOperation, Op.bind_of_raised hr]⟩

/-- GET_PROFILE: NotConnected, the known profile, or one request; then the profile learned, or an error and it stays
unknown (44_session.md R297). -/
theorem getProfile_cases (cfg : Config) (s : State) :
    (s.sess = .disconnected ∧ getProfile cfg s = .raised ⟨.notConnected, .none⟩ s) ∨
      (s.sess = .connected ∧ ((∃ n, s.profile = some n ∧ getProfile cfg s = .done n s) ∨
        (s.profile = none ∧ ∃ env rxq d,
          (∃ n, getProfile cfg s = .done n { s.moved (profgetQFrame cfg) rxq env d with profile := some n }) ∨
            ∃ e, e.status ∈ exchangeErrors ∧
              getProfile cfg s = .raised e (s.moved (profgetQFrame cfg) rxq env d)))) := by
  obtain ⟨hc, hr⟩ | ⟨hc, hr⟩ := requireConnected_cases s
  · refine .inr ⟨hc, ?_⟩
    rw [getProfile, Op.bind_of_done hr, Op.read_bind]
    cases hp : s.profile with
    | some n => exact .inl ⟨n, rfl, rfl⟩
    | none =>
      refine .inr ⟨rfl, ?_⟩
      obtain ⟨env, rxq, d, ⟨f, -, -, hk⟩ | ⟨e, he, hk⟩⟩ :=
        exchange_cases cfg cfg.params.cmdProfget (profgetQFrame cfg) s
      · exact ⟨env, rxq, d, .inl ⟨_, hk _⟩⟩
      · exact ⟨env, rxq, d, .inr ⟨e, he, hk _⟩⟩
  · exact .inl ⟨hc, by rw [getProfile, Op.bind_of_raised hr]⟩

/-- SET_PROFILE: NotConnected, or one request; then the profile stored, or an error and it stays as it was
(44_session.md R298). -/
theorem setProfile_cases (cfg : Config) (n : Byte) (s : State) :
    (s.sess = .disconnected ∧ setProfile cfg n s = .raised ⟨.notConnected, .none⟩ s) ∨
      (s.sess = .connected ∧ ∃ env rxq d,
        setProfile cfg n s = .done () { s.moved (profsetQFrame cfg n) rxq env d with profile := some n } ∨
          ∃ e, e.status ∈ Status.protocolViolation :: exchangeErrors ∧
            setProfile cfg n s = .raised e (s.moved (profsetQFrame cfg n) rxq env d)) := by
  obtain ⟨hc, hr⟩ | ⟨hc, hr⟩ := requireConnected_cases s
  · refine .inr ⟨hc, ?_⟩
    obtain ⟨env, rxq, d, ⟨f, -, -, hk⟩ | ⟨e, he, hk⟩⟩ :=
      exchange_cases cfg cfg.params.cmdProfset (profsetQFrame cfg n) s
    · refine ⟨env, rxq, d, ?_⟩
      rw [setProfile, Op.bind_of_done hr, hk]
      split
      · exact .inr ⟨_, by simp, rfl⟩
      · exact .inl rfl
    · refine ⟨env, rxq, d, .inr ⟨e, by simp [he], ?_⟩⟩
      rw [setProfile, Op.bind_of_done hr, hk]
  · exact .inl ⟨hc, by rw [setProfile, Op.bind_of_raised hr]⟩

/-- POWER_QUERY: NotConnected, or one request; then the decoded status, or an error (44_session.md R299). -/
theorem powerQuery_cases (cfg : Config) (s : State) :
    (s.sess = .disconnected ∧ powerQuery cfg s = .raised ⟨.notConnected, .none⟩ s) ∨
      (s.sess = .connected ∧ ∃ env rxq d,
        (∃ p, powerQuery cfg s = .done p (s.moved (powerQFrame cfg) rxq env d)) ∨
          ∃ e, e.status ∈ Status.invalidEncoding :: exchangeErrors ∧
            powerQuery cfg s = .raised e (s.moved (powerQFrame cfg) rxq env d)) := by
  obtain ⟨hc, hr⟩ | ⟨hc, hr⟩ := requireConnected_cases s
  · refine .inr ⟨hc, ?_⟩
    obtain ⟨env, rxq, d, ⟨f, -, -, hk⟩ | ⟨e, he, hk⟩⟩ :=
      exchange_cases cfg cfg.params.cmdPower (powerQFrame cfg) s
    · refine ⟨env, rxq, d, ?_⟩
      rw [powerQuery, Op.bind_of_done hr, hk]
      by_cases h0 : f.byteAt cfg.params.powerFlagPos = 0
      · exact .inl ⟨_, by simp [decPower, boolOfByte, h0]; rfl⟩
      · by_cases h1 : f.byteAt cfg.params.powerFlagPos = 1
        · exact .inl ⟨_, by simp [decPower, boolOfByte, h1]; rfl⟩
        · refine .inr ⟨⟨.invalidEncoding, .byte (f.byteAt cfg.params.powerFlagPos)⟩, by simp, ?_⟩
          have hb : boolOfByte (f.byteAt cfg.params.powerFlagPos) =
              .error ⟨.invalidEncoding, .byte (f.byteAt cfg.params.powerFlagPos)⟩ := by
            rw [boolOfByte, if_neg h0, if_neg h1]
          simp only [decPower, hb, Op.lift_error_apply]
    · refine ⟨env, rxq, d, .inr ⟨e, by simp [he], ?_⟩⟩
      rw [powerQuery, Op.bind_of_done hr, hk]
  · exact .inl ⟨hc, by rw [powerQuery, Op.bind_of_raised hr]⟩

/-- RECV: NotConnected, or one receive, which moves nothing but the RX queue and the draws (44_session.md R302). -/
theorem recvOperation_cases (cfg : Config) (s : State) :
    (s.sess = .disconnected ∧ recvOperation cfg s = .raised ⟨.notConnected, .none⟩ s) ∨
      (s.sess = .connected ∧ ∃ env rxq, (∃ v, recvOperation cfg s = .done v { s with rxq := rxq, env := env }) ∨
        ∃ e, recvOperation cfg s = .raised e { s with rxq := rxq, env := env }) := by
  obtain ⟨hc, hr⟩ | ⟨hc, hr⟩ := requireConnected_cases s
  · refine .inr ⟨hc, ?_⟩
    rw [recvOperation, Op.bind_of_done hr]
    obtain ⟨env, rxq, ⟨f, ha, -⟩ | ⟨e, ha, -⟩⟩ := awaitAny_cases s
    · refine ⟨env, rxq, ?_⟩
      rw [Op.bind_of_done ha]
      cases classifyFrame cfg f with
      | ok d => exact .inl ⟨_, rfl⟩
      | error e => exact .inr ⟨_, rfl⟩
    · refine ⟨env, rxq, .inr ⟨e, ?_⟩⟩
      rw [Op.bind_of_raised ha]
  · exact .inl ⟨hc, by rw [recvOperation, Op.bind_of_raised hr]⟩

/-- SEND_EVTACK: InvalidValue, NotConnected, or the acknowledgement sent, with OK or IOError (44_session.md R303). -/
theorem sendEvtack_cases (cfg : Config) (a : Byte) (s : State) :
    (3 ≤ a.toNat ∧ sendEvtack cfg a s = .raised ⟨.invalidValue, .nat a.toNat⟩ s) ∨
      (∃ k : Fin 3, a.toNat = k.val ∧
        ((s.sess = .disconnected ∧ sendEvtack cfg a s = .raised ⟨.notConnected, .none⟩ s) ∨
          (s.sess = .connected ∧ ∃ env,
            sendEvtack cfg a s = .done () { s with env := env, tx := s.tx ++ [evtackFrame cfg k] } ∨
              sendEvtack cfg a s = .raised ⟨.ioError, .none⟩
                { s with env := env, tx := s.tx ++ [evtackFrame cfg k] }))) := by
  by_cases h : a.toNat < 3
  · refine .inr ⟨⟨a.toNat, h⟩, rfl, ?_⟩
    rw [sendEvtack, show kindArg a = .ok ⟨a.toNat, h⟩ by simp [kindArg, h], Op.lift_ok_bind]
    obtain ⟨hc, hr⟩ | ⟨hc, hr⟩ := requireConnected_cases s
    · rw [Op.bind_of_done hr]
      exact .inr ⟨hc, sendOrRaise_cases _ s⟩
    · rw [Op.bind_of_raised hr]
      exact .inl ⟨hc, rfl⟩
  · refine .inl ⟨by omega, ?_⟩
    rw [sendEvtack, show kindArg a = .error ⟨.invalidValue, .nat a.toNat⟩ by simp [kindArg, h]]
    rfl

/-! ## Reading the cache changes nothing -/

/-- However the step ends, the state is as before. -/
def Op.Reads {α : Type} (op : Op α) : Prop := ∀ s, (op s).state = s

theorem Op.reads_bind {α β : Type} {m : Op α} {f : α → Op β} (hm : m.Reads) (hf : ∀ a, (f a).Reads) :
    (m.bind f).Reads := by
  intro s
  have h := hm s
  simp only [Op.bind]
  cases hms : m s with
  | done a u =>
    rw [hms] at h
    cases h
    exact hf a u
  | raised e u =>
    rw [hms] at h
    exact h

theorem Op.reads_pure {α : Type} (a : α) : (Op.pure a).Reads := fun _ => rfl

theorem Op.reads_lift {α : Type} (x : Except Raise α) : (Op.lift x).Reads := by
  intro s
  cases x <;> rfl

theorem mapGet_reads (a : Nat) : (mapGet a).Reads := by
  intro s
  cases h : Memory.read s.cache a with
  | some v => rw [mapGet_of_some h]; rfl
  | none => rw [mapGet_of_none h]; rfl

theorem readGroup_reads (cfg : Config) (f : SettingField) : (readGroup cfg f).Reads := by
  intro s
  obtain ⟨bs, -, -, h⟩ | ⟨i, -, -, h⟩ := readRun_cases (cfg.params.addr f).toNat f.size s
  · rw [readGroup, h]; rfl
  · rw [readGroup, h]; rfl

theorem getField_reads (cfg : Config) (f : SettingField) : (getField cfg f).Reads :=
  Op.reads_bind (readGroup_reads cfg f) fun _ => Op.reads_lift _

theorem getTyped_reads {α : Type} (cfg : Config) (f : SettingField) (dec : List Byte → Except Raise α) :
    (getTyped cfg f dec).Reads :=
  Op.reads_bind (readGroup_reads cfg f) fun _ => Op.reads_lift _

theorem ledBlock_reads (cfg : Config) : (ledBlock cfg).Reads := by
  refine Op.reads_bind (getTyped_reads cfg _ _) fun en => ?_
  intro s
  by_cases h : en = false
  · simp [h]
  · simp only [h]
    refine Op.reads_bind (getTyped_reads cfg _ _) (fun e => ?_) s
    cases e with
    | off => exact Op.reads_pure _
    | steady => exact Op.reads_bind (getTyped_reads cfg _ _) fun _ => Op.reads_pure _
    | breathe => exact Op.reads_bind (getTyped_reads cfg _ _) fun _ => Op.reads_pure _

theorem modeSettings_reads (cfg : Config) (ms : List (Fin 4)) : (modeSettings cfg ms).Reads := by
  induction ms with
  | nil => exact Op.reads_pure _
  | cons m ms ih =>
    exact Op.reads_bind (getTyped_reads cfg _ _) fun _ => Op.reads_bind (getTyped_reads cfg _ _) fun _ =>
      Op.reads_bind ih fun _ => Op.reads_pure _

end Sys2Proof.Machine
end

