-- ==== Sys2Proof/Laws/ValueCodecs.lean ====
section
/-! SUPPORT. What each value codec and each argument check answers (43_value_codecs.md, 42_register_map.md R202): the
operations and the setters both cite these. -/

namespace Sys2Proof.Machine

/-! ## Whole operations that compute a value -/

theorem pureOperation_of_ok {r : Except Raise Value} {v : Value} (h : r = .ok v) (s : State) :
    pureOperation r s = .next (s.ended .ok v) := by
  rw [h]
  rfl

theorem pureOperation_of_error {r : Except Raise Value} {e : Raise} (h : r = .error e) (s : State) :
    pureOperation r s = .next (s.ended e.status e.value) := by
  rw [h]
  rfl

/-! ## DPI -/

/-- DPI_ENC refuses a value out of range (43_value_codecs.md R250). -/
theorem dpiEnc_of_range {v : Word32} (h : v.toNat < 50 ∨ 26000 < v.toNat) :
    dpiEnc v = .error ⟨.invalidValue, .nat v.toNat⟩ := if_pos h

/-- DPI_ENC refuses a value in range that is no multiple of 50 (43_value_codecs.md R250). -/
theorem dpiEnc_of_misaligned {v : Word32} (h : ¬ (v.toNat < 50 ∨ 26000 < v.toNat)) (h' : v.toNat % 50 ≠ 0) :
    dpiEnc v = .error ⟨.alignmentError, .nat v.toNat⟩ := (if_neg h).trans (if_pos h')

/-- DPI_ENC packs every other value; the third byte is 68 times the high part (43_value_codecs.md R250). -/
theorem dpiEnc_of_valid {v : Word32} (h : ¬ (v.toNat < 50 ∨ 26000 < v.toNat)) (h' : v.toNat % 50 = 0) {lo p : Byte}
    (hl : lo.toNat = (v.toNat / 50 - 1) % 256) (hp : p.toNat = (v.toNat / 50 - 1) / 256 * 68) :
    dpiEnc v = .ok [lo, lo, p] := by
  refine (if_neg h).trans ((if_neg (not_not.2 h')).trans ?_)
  have e1 : BitVec.ofNat 8 ((v.toNat / 50 - 1) % 256) = lo := by
    rw [← hl]
    simp
  have e2 : (BitVec.ofNat 8 ((v.toNat / 50 - 1) / 256) <<< 2) |||
      (BitVec.ofNat 8 ((v.toNat / 50 - 1) / 256) <<< 6) = p := by
    have hhi : (v.toNat / 50 - 1) / 256 ≤ 2 := by omega
    apply BitVec.eq_of_toNat_eq
    rw [hp]
    generalize (v.toNat / 50 - 1) / 256 = hi at hhi
    have : hi = 0 ∨ hi = 1 ∨ hi = 2 := by omega
    rcases this with rfl | rfl | rfl <;> decide
  show Except.ok [BitVec.ofNat 8 ((v.toNat / 50 - 1) % 256), BitVec.ofNat 8 ((v.toNat / 50 - 1) % 256), _] = _
  rw [e1]
  exact congrArg (fun x => Except.ok [lo, lo, x]) e2

/-- DPI_DEC unpacks bytes that pass its three checks (43_value_codecs.md R251). -/
theorem dpiDec_of_valid {b0 b1 b2 : Byte} (h : b0 = b1 ∧ b2.toNat / 16 = b2.toNat % 16 ∧ b2.toNat % 4 = 0) :
    dpiDec [b0, b1, b2] = .ok ((b1.toNat + 1) * 50 + b2.toNat % 16 / 4 * 12800) :=
  (if_neg (not_not.2 h.1)).trans ((if_neg (not_not.2 h.2.1)).trans (if_neg (by simp only [lowNibble]; omega)))

/-- DPI_DEC refuses bytes that fail one of them (43_value_codecs.md R251). -/
theorem dpiDec_of_invalid {b0 b1 b2 : Byte} (h : ¬ (b0 = b1 ∧ b2.toNat / 16 = b2.toNat % 16 ∧ b2.toNat % 4 = 0)) :
    ∃ v, dpiDec [b0, b1, b2] = .error ⟨.invalidEncoding, v⟩ := by
  simp only [dpiDec]
  split
  · exact ⟨_, rfl⟩
  · split
    · exact ⟨_, rfl⟩
    · split
      · exact ⟨_, rfl⟩
      · rename_i h1 h2 h3
        simp only [highNibble, lowNibble] at h2 h3
        exact absurd ⟨not_not.1 h1, not_not.1 h2, by omega⟩ h

/-- A decoder of three bytes refuses any other number of them (43_value_codecs.md, D50). -/
theorem dpiDec_of_length {bs : List Byte} (h : bs.length ≠ 3) : dpiDec bs = .error ⟨.invalidEncoding, .bytes bs⟩ := by
  match bs, h with
  | [], _ => rfl
  | [_], _ => rfl
  | [_, _], _ => rfl
  | [_, _, _], h => exact absurd rfl h
  | _ :: _ :: _ :: _ :: _, _ => rfl

theorem colorDec_of_length {bs : List Byte} (h : bs.length ≠ 3) :
    colorDec bs = .error ⟨.invalidEncoding, .bytes bs⟩ := by
  match bs, h with
  | [], _ => rfl
  | [_], _ => rfl
  | [_, _], _ => rfl
  | [_, _, _], h => exact absurd rfl h
  | _ :: _ :: _ :: _ :: _, _ => rfl

/-! ## Colour -/

/-- `hexVal` is the value of a hexadecimal digit of either case (43_value_codecs.md R252). -/
theorem hexVal_eq_some {c : Ascii} {n : Nat} : hexVal c = some n ↔ IsHexDigit c n := by
  unfold IsHexDigit
  simp only [hexVal]
  constructor
  · intro h
    split at h
    · cases h
      omega
    · split at h
      · cases h
        omega
      · split at h
        · cases h
          omega
        · cases h
  · rintro (⟨h1, h2⟩ | ⟨h1, h2, h3 | h3⟩)
    · rw [if_pos (by omega), h2]
      congr 1
      omega
    · rw [if_neg (by omega), if_pos (by omega), h3]
      congr 1
      omega
    · rw [if_neg (by omega), if_neg (by omega), if_pos (by omega), h3]
      congr 1
      omega

theorem mapM_hexVal_eq_some {cs : List Ascii} {ds : List Nat} :
    cs.mapM hexVal = some ds ↔ List.Forall₂ IsHexDigit cs ds := by
  induction cs generalizing ds with
  | nil => simp [eq_comm]
  | cons c cs ih =>
    simp only [List.mapM_cons, Option.bind_eq_bind, Option.bind_eq_some_iff, Option.pure_def, Option.some.injEq]
    constructor
    · rintro ⟨d, hd, ds', hds, rfl⟩
      exact .cons (hexVal_eq_some.1 hd) (ih.1 hds)
    · intro h
      cases h with
      | cons h1 h2 => exact ⟨_, hexVal_eq_some.2 h1, _, ih.2 h2, rfl⟩

/-- COLOR_ENC's reading of a text is its digits after at most one `#` (43_value_codecs.md R252). -/
theorem isHexText_iff {text : List Ascii} {ds : List Nat} (hne : ds ≠ []) :
    IsHexText text ds ↔ (dropHash text).mapM hexVal = some ds := by
  rw [mapM_hexVal_eq_some]
  constructor
  · rintro ⟨cs, rfl | rfl, h⟩
    · cases h with
      | nil => exact absurd rfl hne
      | @cons a b l1 l2 h1 h2 =>
        have : a ≠ hashSign := by
          rintro rfl
          unfold IsHexDigit at h1
          simp only [hashSign] at h1
          have : (0x23 : Ascii).toNat = 0x23 := rfl
          omega
        simp only [dropHash, if_neg this]
        exact .cons h1 h2
    · simpa [dropHash] using h
  · intro h
    cases text with
    | nil => exact ⟨[], .inl rfl, h⟩
    | cons c t =>
      simp only [dropHash] at h
      split at h
      · exact ⟨t, .inr (by simp [*]), h⟩
      · exact ⟨_, .inl rfl, h⟩

/-- The digits of a colour text are below 16. -/
theorem IsHexText.bounds {text : List Ascii} {r1 r0 g1 g0 b1 b0 : Nat}
    (h : IsHexText text [r1, r0, g1, g0, b1, b0]) :
    r1 ≤ 15 ∧ r0 ≤ 15 ∧ g1 ≤ 15 ∧ g0 ≤ 15 ∧ b1 ≤ 15 ∧ b0 ≤ 15 := by
  have hd : ∀ {c n}, IsHexDigit c n → n ≤ 15 := by
    intro c n h
    unfold IsHexDigit at h
    omega
  obtain ⟨cs, -, h⟩ := h
  rcases h with _ | ⟨h1, _ | ⟨h2, _ | ⟨h3, _ | ⟨h4, _ | ⟨h5, _ | ⟨h6, _⟩⟩⟩⟩⟩⟩
  exact ⟨hd h1, hd h2, hd h3, hd h4, hd h5, hd h6⟩

/-- COLOR_ENC of six digits (43_value_codecs.md R252). -/
theorem colorEnc_of_digits {text : List Ascii} {r1 r0 g1 g0 b1 b0 : Nat} {r g b : Byte}
    (h : IsHexText text [r1, r0, g1, g0, b1, b0]) (hr : r.toNat = 16 * r1 + r0) (hg : g.toNat = 16 * g1 + g0)
    (hb : b.toNat = 16 * b1 + b0) : colorEnc text = .ok [r, g, b] := by
  rw [isHexText_iff (by simp)] at h
  simp only [colorEnc, h, ← hr, ← hg, ← hb]
  simp

/-- COLOR_ENC of anything else (43_value_codecs.md R252). -/
theorem colorEnc_of_not_digits {text : List Ascii} (h : ∀ ds : List Nat, ds.length = 6 → ¬ IsHexText text ds) :
    colorEnc text = .error ⟨.invalidValue, .text text⟩ := by
  simp only [colorEnc]
  split
  · rename_i heq
    exact absurd ((isHexText_iff (by simp)).2 heq) (h _ rfl)
  · rfl

/-- A number below 16 is written with its lower-case digit (43_value_codecs.md R253). -/
theorem isLowerHexDigit_hexDigit {n : Nat} (h : n ≤ 15) : IsLowerHexDigit (hexDigit n) n := by
  unfold IsLowerHexDigit hexDigit
  split
  · refine .inl ⟨by omega, ?_⟩
    simp
    omega
  · refine .inr ⟨by omega, h, ?_⟩
    simp
    omega

/-- A lower-case digit is a digit. -/
theorem IsLowerHexDigit.isHexDigit {c : Ascii} {n : Nat} (h : IsLowerHexDigit c n) : IsHexDigit c n := by
  unfold IsLowerHexDigit at h
  unfold IsHexDigit
  omega

/-! ## One-byte codings -/

/-- A one-byte decoder refuses any other number of bytes (43_value_codecs.md, D50). -/
theorem oneByte_of_length {bs : List Byte} (h : bs.length ≠ 1) : oneByte bs = .error ⟨.invalidEncoding, .bytes bs⟩ := by
  match bs, h with
  | [], _ => rfl
  | [_], h => exact absurd rfl h
  | _ :: _ :: _, _ => rfl

/-- A raw boolean byte 0 or 1 (43_value_codecs.md R255). -/
theorem boolOfByte_of_le {b : Byte} (h : b.toNat ≤ 1) : boolOfByte b = .ok (b.toNat == 1) := by
  have : b = 0 ∨ b = 1 := by
    rcases Nat.le_one_iff_eq_zero_or_eq_one.1 h with h | h
    · exact .inl (BitVec.eq_of_toNat_eq h)
    · exact .inr (BitVec.eq_of_toNat_eq h)
  rcases this with rfl | rfl <;> rfl

/-- Any other raw boolean byte (43_value_codecs.md R255). -/
theorem boolOfByte_of_two_le {b : Byte} (h : 2 ≤ b.toNat) : boolOfByte b = .error ⟨.invalidEncoding, .byte b⟩ := by
  rw [boolOfByte, if_neg (by rintro rfl; simp at h), if_neg (by rintro rfl; simp at h)]

theorem ofNat_toNat_of_eq {v : Word32} {b : Byte} (h : v.toNat = b.toNat) : BitVec.ofNat 8 v.toNat = b := by
  rw [h]
  simp

/-- BYTE_ENC of a value that fits (43_value_codecs.md R260). -/
theorem byteEnc_of_byte {v : Word32} {b : Byte} (h : v.toNat = b.toNat) : byteEnc v = .ok b := by
  have := b.isLt
  rw [byteEnc, if_neg (by omega), ofNat_toNat_of_eq h]

/-- BOOL_ENC of 0 or 1 (43_value_codecs.md R254). -/
theorem boolEnc_of_le {v : Word32} {b : Byte} (h : v.toNat = b.toNat) (h1 : v.toNat ≤ 1) : boolEnc v = .ok b := by
  rw [boolEnc, if_neg (by omega), ofNat_toNat_of_eq h]

/-- IDX_ENC of 0..3 (43_value_codecs.md R262). -/
theorem idxEnc_of_le {v : Word32} {b : Byte} (h : v.toNat = b.toNat) (h3 : v.toNat ≤ 3) : idxEnc v = .ok b := by
  rw [idxEnc, if_neg (by omega), ofNat_toNat_of_eq h]

/-- SLEEP_ENC of a multiple of ten that fits (43_value_codecs.md R264). -/
theorem sleepEnc_of_units {v : Word32} {b : Byte} (h : v.toNat = 10 * b.toNat) : sleepEnc v = .ok b := by
  have := b.isLt
  rw [sleepEnc, if_neg (by omega), h, Nat.mul_div_cancel_left _ (by omega)]
  simp

/-- The three effect codes are distinct, so each is decoded to its effect (00_scope.md R6(b), 43_value_codecs.md R257). -/
theorem effectDec_effectCode (cfg : Config) (e : Effect) : effectDec cfg [cfg.params.effectCode e] = .ok e := by
  have hn := cfg.ok.2.2.1
  simp only [List.nodup_cons, List.mem_cons, List.not_mem_nil, or_false, not_or] at hn
  cases e <;> simp [effectDec, oneByte, Params.effectCode, hn, eq_comm]

/-- The four polling codes are distinct, so each is decoded to its rate (00_scope.md R6(c), 43_value_codecs.md R259). -/
theorem pollDec_pollCode (cfg : Config) (r : PollRate) : pollDec cfg [cfg.params.pollCode r] = .ok (pollHz r) := by
  have hn := cfg.ok.2.2.2.1
  simp only [List.nodup_cons, List.mem_cons, List.not_mem_nil, or_false, not_or] at hn
  cases r <;> simp [pollDec, oneByte, Params.pollCode, pollHz, hn, eq_comm]

/-! ## Host arguments -/

/-- The mode argument 0..3 (42_register_map.md R202). -/
theorem modeArg_of_eq {a : Byte} {m : Fin 4} (h : a.toNat = m.val) : modeArg a = .ok m := by
  have := m.isLt
  simp [modeArg, h]

/-- Any other mode argument (42_register_map.md R202). -/
theorem modeArg_of_four_le {a : Byte} (h : 4 ≤ a.toNat) : modeArg a = .error ⟨.invalidValue, .nat a.toNat⟩ := by
  simp [modeArg, show ¬ a.toNat < 4 by omega]

/-- The event kind 0..2 (44_session.md R303). -/
theorem kindArg_of_eq {a : Byte} {k : Fin 3} (h : a.toNat = k.val) : kindArg a = .ok k := by
  have := k.isLt
  simp [kindArg, h]

end Sys2Proof.Machine
end

