-- ==== Sys2Proof/Laws/Instructions.lean ====
section
/-! SUPPORT. What every instruction keeps: one relation between the state before and the state after, kept by every shared
operation, and from it the shape of everything `exec` can answer. -/

namespace Sys2Proof.Machine

/-- A frame the block builds: its header and a right checksum. -/
def BuiltFrame (cfg : Config) (f : Frame) : Prop := f.header = cfg.params.header ∧ f.checksum = Sys2Proof.cksum f.body

theorem builtFrame_build (cfg : Config) (c : Byte) (fields : List (Nat × Byte)) :
    BuiltFrame cfg (Frame.build cfg c fields) := ⟨rfl, rfl⟩

/-- What a step of an operation keeps. `c` says that it may write cells, `p` that it may write the profile; no such step
writes the session, the configuration or the port, takes a frame out of the history, sends a frame the block did not build,
unpopulates a cell or forgets the profile. OPEN, CLOSE and RESTORE do more and stand apart. -/
structure Kept (cfg : Config) (c p : Bool) (s u : State) : Prop where
  cfgEq : u.cfg = s.cfg
  inputs : u.inputs = s.inputs
  tx : ∃ sent, u.tx = s.tx ++ sent ∧ ∀ f ∈ sent, BuiltFrame cfg f
  wf : Memory.wf s.cache = true → Memory.wf u.cache = true
  cache : c = false → u.cache = s.cache
  populated : ∀ a, s.valid a = true → u.valid a = true
  profile : p = false → u.profile = s.profile
  known : s.profile ≠ none → u.profile ≠ none
  sess : u.sess = s.sess

section
variable {cfg : Config} {c p : Bool} {α β : Type}

theorem Kept.refl (s : State) : Kept cfg c p s s :=
  ⟨rfl, rfl, ⟨[], by simp⟩, id, fun _ => rfl, fun _ => id, fun _ => rfl, id, rfl⟩

theorem Kept.trans (s u v : State) (h : Kept cfg c p s u) (h' : Kept cfg c p u v) : Kept cfg c p s v := by
  obtain ⟨x, hx, gx⟩ := h.tx
  obtain ⟨y, hy, gy⟩ := h'.tx
  refine ⟨h'.cfgEq.trans h.cfgEq, h'.inputs.trans h.inputs,
    ⟨x ++ y, by rw [hy, hx, List.append_assoc], fun f hf => ?_⟩, h'.wf ∘ h.wf,
    fun e => (h'.cache e).trans (h.cache e), fun a => h'.populated a ∘ h.populated a,
    fun e => (h'.profile e).trans (h.profile e), h'.known ∘ h.known, h'.sess.trans h.sess⟩
  rcases List.mem_append.1 hf with h | h
  · exact gx f h
  · exact gy f h

/-- A state that differs only in the receive side and the counters is kept. -/
theorem Kept.of_receive (s : State) (rxq : List (List Byte)) (env : Env) (k d : Nat) :
    Kept cfg c p s { s with rxq := rxq, env := env, seqK := k, seqD := d } :=
  ⟨rfl, rfl, ⟨[], by simp⟩, id, fun _ => rfl, fun _ => id, fun _ => rfl, id, rfl⟩

/-- So is one that also sent a frame the block built. -/
theorem Kept.of_sent (s : State) {q : Frame} (hq : BuiltFrame cfg q) (rxq : List (List Byte)) (env : Env)
    (k d : Nat) : Kept cfg c p s { s with rxq := rxq, env := env, seqK := k, seqD := d, tx := s.tx ++ [q] } :=
  ⟨rfl, rfl, ⟨[q], rfl, by simpa using hq⟩, id, fun _ => rfl, fun _ => id, fun _ => rfl, id, rfl⟩

theorem keepsBind {m : Op α} {f : α → Op β} (hm : m.Keeps (Kept cfg c p)) (hf : ∀ a, (f a).Keeps (Kept cfg c p)) :
    (m.bind f).Keeps (Kept cfg c p) := Op.keeps_bind Kept.trans hm hf

theorem keepsPure (a : α) : (Op.pure a).Keeps (Kept cfg c p) := Op.keeps_pure Kept.refl a

theorem keepsLift (x : Except Raise α) : (Op.lift x).Keeps (Kept cfg c p) := Op.keeps_lift Kept.refl x

/-- Reading the cache keeps all. -/
theorem Op.Reads.keeps {op : Op α} (h : op.Reads) : op.Keeps (Kept cfg c p) := fun s => by
  rw [h s]
  exact Kept.refl s

theorem requireConnected_keeps : requireConnected.Keeps (Kept cfg c p) := by
  intro s
  obtain ⟨_, h⟩ | ⟨_, h⟩ := requireConnected_cases s <;> rw [h] <;> exact Kept.refl s

theorem sendOrRaise_keeps {q : Frame} (hq : BuiltFrame cfg q) : (sendOrRaise q).Keeps (Kept cfg c p) := by
  intro s
  obtain ⟨env, h | h⟩ := sendOrRaise_cases q s <;> rw [h] <;> exact Kept.of_sent s hq _ _ _ _

theorem request_keeps {q : Frame} (hq : BuiltFrame cfg q) : (request q).Keeps (Kept cfg c p) := by
  intro s
  obtain ⟨env, h | h⟩ := request_cases q s <;> rw [h] <;> exact Kept.of_sent s hq _ _ _ _

theorem awaitAny_keeps : awaitAny.Keeps (Kept cfg c p) := by
  intro s
  obtain ⟨env, rxq, ⟨f, h, _⟩ | ⟨e, h, _⟩⟩ := awaitAny_cases s <;> rw [h] <;> exact Kept.of_receive s _ _ _ _

theorem awaitCmd_keeps (x : Byte) : (awaitCmd cfg x).Keeps (Kept cfg c p) := by
  intro s
  obtain ⟨env, rxq, d, ⟨f, h, _⟩ | ⟨e, h, _⟩⟩ := awaitCmd_cases cfg x s <;> rw [h] <;> exact Kept.of_receive s _ _ _ _

theorem flushStep_keeps : flushStep.Keeps (Kept cfg c p) := fun s => Kept.of_receive s _ _ _ _

theorem mapWrite_keeps (pairs : List (Byte × Byte)) : (mapWrite cfg pairs).Keeps (Kept cfg true p) := by
  intro s
  obtain ⟨v, h⟩ | ⟨_, h⟩ | ⟨_, lo, vals, env, rxq, _, _, _, hlo, h | ⟨e, _, h⟩⟩ := mapWrite_cases cfg pairs s <;> rw [h]
  · exact Kept.refl s
  · exact Kept.refl s
  · exact ⟨rfl, rfl, ⟨_, rfl, fun f hf => List.mem_singleton.1 hf ▸ builtFrame_build _ _ _⟩,
      fun h => Memory.writeRun_wf _ _ _ hlo h, nofun, fun a h => Memory.read_writeRun_isSome _ _ _ _ h, fun _ => rfl, id,
      rfl⟩
  · exact Kept.of_sent s (builtFrame_build _ _ _) _ _ _ _

theorem setField_keeps (f : SettingField) (v : Word32) (text : List Ascii) :
    (setField cfg f v text).Keeps (Kept cfg true p) := keepsBind (keepsLift _) fun _ => mapWrite_keeps _

theorem bulkWindows_keeps (ks : List Nat) (hk : ∀ k ∈ ks, k < 20) : (bulkWindows cfg ks).Keeps (Kept cfg true p) := by
  induction ks with
  | nil => exact keepsPure _
  | cons k ks ih =>
    intro s
    rw [bulkWindows, Op.update_bind]
    have hk20 : k < 20 := hk k (by simp)
    obtain ⟨env, rxq, d, ⟨f, -, -, -, h⟩ | ⟨e, h, _⟩⟩ := bulkWindow_cases cfg { s with seqK := k } hk20
    · rw [Op.bind_of_done h]
      refine Kept.trans _ _ _ ?_ (ih (fun k h => hk k (by simp [h])) _)
      exact ⟨rfl, rfl, ⟨_, rfl, fun f hf => List.mem_singleton.1 hf ▸ builtFrame_build _ _ _⟩,
        fun h => Memory.writeRun_wf _ _ _ (by rw [windowBytes_length]; show 10 * k + 10 ≤ 256; omega) h, nofun,
        fun a h => Memory.read_writeRun_isSome _ _ _ _ h, fun _ => rfl, id, rfl⟩
    · rw [Op.bind_of_raised h]
      exact Kept.of_sent s (builtFrame_build _ _ _) _ _ _ _

theorem mapBulkRead_keeps : (mapBulkRead cfg).Keeps (Kept cfg true p) :=
  keepsBind requireConnected_keeps fun _ => bulkWindows_keeps _ (by decide)

theorem getProfile_keeps : (getProfile cfg).Keeps (Kept cfg c true) := by
  intro s
  obtain ⟨_, h⟩ | ⟨_, ⟨n, _, h⟩ | ⟨_, env, rxq, d, ⟨n, h⟩ | ⟨e, _, h⟩⟩⟩ := getProfile_cases cfg s <;> rw [h]
  · exact Kept.refl s
  · exact Kept.refl s
  · exact ⟨rfl, rfl, ⟨_, rfl, fun f hf => List.mem_singleton.1 hf ▸ builtFrame_build _ _ _⟩, id, fun _ => rfl,
      fun _ => id, nofun, fun _ => by simp, rfl⟩
  · exact Kept.of_sent s (builtFrame_build _ _ _) _ _ _ _

theorem setProfile_keeps (n : Byte) : (setProfile cfg n).Keeps (Kept cfg c true) := by
  intro s
  obtain ⟨_, h⟩ | ⟨_, env, rxq, d, h | ⟨e, _, h⟩⟩ := setProfile_cases cfg n s <;> rw [h]
  · exact Kept.refl s
  · exact ⟨rfl, rfl, ⟨_, rfl, fun f hf => List.mem_singleton.1 hf ▸ builtFrame_build _ _ _⟩, id, fun _ => rfl,
      fun _ => id, nofun, fun _ => by simp, rfl⟩
  · exact Kept.of_sent s (builtFrame_build _ _ _) _ _ _ _

theorem powerQuery_keeps : (powerQuery cfg).Keeps (Kept cfg c p) :=
  keepsBind requireConnected_keeps fun _ => keepsBind (request_keeps (builtFrame_build _ _ _)) fun _ =>
    keepsBind (awaitCmd_keeps _) fun _ => keepsLift _

theorem recvOperation_keeps : (recvOperation cfg).Keeps (Kept cfg c p) :=
  keepsBind requireConnected_keeps fun _ => keepsBind awaitAny_keeps fun _ => keepsLift _

theorem sendEvtack_keeps (a : Byte) : (sendEvtack cfg a).Keeps (Kept cfg c p) :=
  keepsBind (keepsLift _) fun _ => keepsBind requireConnected_keeps fun _ =>
    sendOrRaise_keeps (builtFrame_build _ _ _)

theorem snapshotOperation_keeps : (snapshotOperation cfg).Keeps (Kept cfg c true) :=
  keepsBind requireConnected_keeps fun _ => keepsBind getProfile_keeps fun _ =>
  keepsBind (getTyped_reads _ _ _).keeps fun _ => keepsBind (modeSettings_reads _ _).keeps fun _ =>
  keepsBind (getTyped_reads _ _ _).keeps fun _ => keepsBind (ledBlock_reads _).keeps fun _ =>
  keepsBind (getTyped_reads _ _ _).keeps fun _ => keepsBind (getTyped_reads _ _ _).keeps fun _ =>
  keepsBind (getTyped_reads _ _ _).keeps fun _ => keepsBind (getTyped_reads _ _ _).keeps fun _ =>
  keepsBind (getTyped_reads _ _ _).keeps fun _ => keepsBind (getTyped_reads _ _ _).keeps fun _ =>
  keepsBind powerQuery_keeps fun _ => keepsPure _

theorem noValue_keeps {op : Op Unit} (h : op.Keeps (Kept cfg c p)) : (noValue op).Keeps (Kept cfg c p) :=
  keepsBind h fun _ => keepsPure _

/-- A request row's step: its encoder's check, the session, the request and its await. -/
theorem requestStep_keeps {x : Except Raise Frame} {await : Op Frame} (h : ∀ f, x = .ok f → BuiltFrame cfg f)
    (ha : await.Keeps (Kept cfg c p)) :
    ((Op.lift x).bind fun f => requireConnected.bind fun _ => (request f).bind fun _ =>
      await.bind fun r => Op.pure (Value.frame r)).Keeps (Kept cfg c p) := by
  cases x with
  | error e => exact fun s => Kept.refl s
  | ok f =>
    exact fun s => (keepsBind requireConnected_keeps fun _ => keepsBind (request_keeps (h f rfl)) fun _ =>
      keepsBind ha fun _ => keepsPure _) s

theorem encMemread_built {a n : Byte} {f : Frame} (h : encMemread cfg a n = .ok f) : BuiltFrame cfg f := by
  rw [encMemread] at h
  split at h <;> cases h
  exact builtFrame_build _ _ _

theorem encMemwrite_built {a : Byte} {vals : List Byte} {f : Frame} (h : encMemwrite cfg a vals = .ok f) :
    BuiltFrame cfg f := by
  rw [encMemwrite] at h
  split at h <;> cases h
  exact builtFrame_build _ _ _

/-- A check of the mode before a step that keeps what it may. -/
theorem modeArg_keeps (a : Byte) {f : Fin 4 → Op α} (h : ∀ m, (f m).Keeps (Kept cfg c p)) :
    ((Op.lift (modeArg a)).bind f).Keeps (Kept cfg c p) := keepsBind (keepsLift _) h

/-- An operation whose steps keep what they may ends with one result over a state so kept. -/
theorem runOperation_kept {op : Op Value} (h : op.Keeps (Kept cfg c p)) (s : State) :
    ∃ u st v, Host.Outcome.next (φ := Fault) (ρ := Refusal) (runOperation op s) = .next (u.ended st v) ∧
      Kept cfg c p s u := by
  have hk := h (beginOperation s)
  have hb : Kept cfg c p s (beginOperation s) := Kept.of_receive s _ _ _ _
  obtain ⟨v, u, h1, h2⟩ | ⟨e, u, h1, h2⟩ := runOperation_cases op s
  · rw [h1] at hk
    exact ⟨u, _, _, by rw [h2], Kept.trans _ _ _ hb hk⟩
  · rw [h1] at hk
    exact ⟨u, _, _, by rw [h2], Kept.trans _ _ _ hb hk⟩

end

/-- A received row only appends its frame to the RX queue. -/
theorem exec_of_isArrival {i : Instr} (h : i.isArrival = true) (s : State) :
    ∃ f : Frame, exec i s = .next { s with rxq := s.rxq ++ [f.toBytes] } := by
  cases i <;> first | exact ⟨_, rfl⟩ | cases h

/-- Every operation and request row but OPEN, CLOSE and RESTORE ends with one result over a state kept as its kind
allows. -/
theorem exec_kept {i : Instr} (s : State) (ha : i.isArrival = false) (h1 : i ≠ .restore) (h2 : i ≠ .openSession)
    (h3 : i ≠ .closeSession) :
    ∃ u st v, exec i s = .next (u.ended st v) ∧ Kept s.cfg i.writesCache i.writesProfile s u := by
  cases i
  case restore => exact absurd rfl h1
  case openSession => exact absurd rfl h2
  case closeSession => exact absurd rfl h3
  case powerR | restoreR | memreadR | memwriteR | profgetR | profsetR | statusR | eventN0 | eventN1 | eventN2 => cases ha
  case cksum | frameEnc | frameDec | encPowerQ | encRestore | encMemread | encMemwrite | encProfget | encProfset
      | encEvtack0 | encEvtack1 | encEvtack2 | classify | dpiEnc | dpiDec | colorEnc | colorDec | boolEnc | boolDec
      | effectEnc | effectDec | pollEnc | pollDec | byteEnc | byteDec | idxEnc | idxDec | sleepEnc | sleepDec =>
    exact runOperation_kept (keepsLift _) s
  case mapGet => exact runOperation_kept (keepsBind (mapGet_reads _).keeps fun _ => keepsPure _) s
  case mapWrite => exact runOperation_kept (noValue_keeps (mapWrite_keeps _)) s
  case mapBulkRead => exact runOperation_kept (noValue_keeps mapBulkRead_keeps) s
  case getPoll | getDpiIdx | getLodMm | getLodRipple | getDebounce | getMotionSync | getAngleSnap | getLedEffect
      | getLedBright | getLedEnabled | getBreatheSpeed | getAutosleep =>
    exact runOperation_kept (getField_reads _ _).keeps s
  case getDpi | getColor => exact runOperation_kept (modeArg_keeps _ fun _ => (getField_reads _ _).keeps) s
  case snapshot => exact runOperation_kept (keepsBind snapshotOperation_keeps fun _ => keepsPure _) s
  case setPoll | setDpiIdx | setLodMm | setLodRipple | setDebounce | setMotionSync | setAngleSnap | setLedEffect
      | setLedBright | setLedEnabled | setBreatheSpeed | setAutosleep =>
    exact runOperation_kept (noValue_keeps (setField_keeps _ _ _)) s
  case setDpi | setColor =>
    exact runOperation_kept (noValue_keeps (modeArg_keeps _ fun _ => setField_keeps _ _ _)) s
  case getProfile => exact runOperation_kept (keepsBind getProfile_keeps fun _ => keepsPure _) s
  case setProfile => exact runOperation_kept (noValue_keeps (setProfile_keeps _)) s
  case powerQuery => exact runOperation_kept (keepsBind powerQuery_keeps fun _ => keepsPure _) s
  case recv => exact runOperation_kept recvOperation_keeps s
  case sendEvtack => exact runOperation_kept (noValue_keeps (sendEvtack_keeps _)) s
  case flush =>
    exact runOperation_kept (noValue_keeps (keepsBind requireConnected_keeps fun _ => flushStep_keeps)) s
  case powerQ | restoreQ | profgetQ | profsetQ =>
    exact runOperation_kept
      (requestStep_keeps (fun f h => by cases h; exact builtFrame_build _ _ _) (awaitCmd_keeps _)) s
  case evtack0 | evtack1 | evtack2 =>
    exact runOperation_kept (noValue_keeps (keepsBind requireConnected_keeps fun _ =>
      sendOrRaise_keeps (builtFrame_build _ _ _))) s
  case memreadQ =>
    exact runOperation_kept (requestStep_keeps (fun _ h => encMemread_built h) (awaitCmd_keeps _)) s
  case memwriteQ => exact runOperation_kept (requestStep_keeps (fun _ h => encMemwrite_built h) awaitAny_keeps) s

/-- RESTORE's end: an error before any frame, or one frame sent, with the cache cleared where it answers OK and kept where
it does not (44_session.md R296). -/
theorem execRestore_cases (s : State) :
    ∃ u st v, exec .restore s = .next (u.ended st v) ∧
      ((st ≠ .ok ∧ u = s) ∨ ∃ env rxq,
        (st = .ok ∧ u = { s with cache := [], tx := s.tx ++ [restoreQFrame s.cfg], env := env, rxq := rxq }) ∨
        (st ≠ .ok ∧ u = { s with tx := s.tx ++ [restoreQFrame s.cfg], env := env, rxq := rxq })) := by
  obtain ⟨-, h⟩ | ⟨-, env, rxq, d, h | ⟨e, he, h⟩⟩ := restoreOperation_cases s.cfg (beginOperation s)
  · exact ⟨s, _, _, congrArg _ (runOperation_of_raised (noValue_of_raised h)), .inl ⟨by simp, rfl⟩⟩
  · exact ⟨{ s with cache := [], tx := s.tx ++ [restoreQFrame s.cfg], env := env, rxq := rxq }, _, _,
      congrArg _ (runOperation_of_done (noValue_of_done h)), .inr ⟨env, rxq, .inl ⟨rfl, rfl⟩⟩⟩
  · refine ⟨{ s with tx := s.tx ++ [restoreQFrame s.cfg], env := env, rxq := rxq }, _, _,
      congrArg _ (runOperation_of_raised (noValue_of_raised h)), .inr ⟨env, rxq, .inr ⟨?_, rfl⟩⟩⟩
    rintro hk
    simp [hk, exchangeErrors, recvErrors] at he

/-- OPEN's end: nothing, the partial reset, or only the draws moved (44_session.md R300). -/
theorem execOpenSession_cases (s : State) :
    ∃ u st v, exec .openSession s = .next (u.ended st v) ∧
      ((st = .ok ∧ u = s) ∨ ∃ env,
        (st = .ok ∧ u = { s with sess := .connected, profile := none, cache := [], rxq := [], env := env }) ∨
        (st ≠ .ok ∧ u = { s with env := env })) := by
  obtain ⟨-, h⟩ | ⟨-, env, h | h⟩ := openOperation_cases (beginOperation s)
  · exact ⟨s, _, _, congrArg _ (runOperation_of_done (noValue_of_done h)), .inl ⟨rfl, rfl⟩⟩
  · exact ⟨{ s with sess := .connected, profile := none, cache := [], rxq := [], env := env }, _, _,
      congrArg _ (runOperation_of_done (noValue_of_done h)), .inr ⟨env, .inl ⟨rfl, rfl⟩⟩⟩
  · exact ⟨{ s with env := env }, _, _, congrArg _ (runOperation_of_raised (noValue_of_raised h)),
      .inr ⟨env, .inr ⟨by simp, rfl⟩⟩⟩

end Sys2Proof.Machine
end

