-- ==== Sys2Proof/Laws/PerInstr.lean ====
section
/-! SUPPORT. A law of every instruction: what a well-formed one is encoded to fits where it goes. -/

namespace Sys2Proof.Laws

/-- An input its port can carry: a record of at most 255 bytes (10_state.md R36), a link string of 17 (30_encoding.md
R90). -/
def fitsPort : Input → Prop
  | .op r => r.bytes.length ≤ 255
  | .tx b => b.length = 17
  | .rx b => b.length = 17

/-- The encoding of a well-formed instruction fits its port, under every configuration. -/
def FitsPort.Statement (i : Instr) : Prop := ∀ cfg : Config, i.wf cfg = true → fitsPort (encode cfg i)

theorem fitsPort_bytes {bytes : List Byte} (h : portBytesWf bytes = true) : bytes.length ≤ 255 := by
  simpa [portBytesWf] using h

theorem FitsPort.cksum (bytes : List Byte) : FitsPort.Statement (.cksum bytes) := fun _ h => fitsPort_bytes h
theorem FitsPort.frameEnc (a : Byte) (bytes : List Byte) : FitsPort.Statement (.frameEnc a bytes) :=
  fun _ h => fitsPort_bytes h
theorem FitsPort.frameDec (bytes : List Byte) : FitsPort.Statement (.frameDec bytes) := fun _ h => fitsPort_bytes h
theorem FitsPort.encPowerQ : FitsPort.Statement .encPowerQ := fun _ _ => Nat.zero_le _
theorem FitsPort.encRestore : FitsPort.Statement .encRestore := fun _ _ => Nat.zero_le _
theorem FitsPort.encMemread (a n : Byte) : FitsPort.Statement (.encMemread a n) := fun _ _ => Nat.zero_le _
theorem FitsPort.encMemwrite (a : Byte) (bytes : List Byte) : FitsPort.Statement (.encMemwrite a bytes) :=
  fun _ h => fitsPort_bytes h
theorem FitsPort.encProfget : FitsPort.Statement .encProfget := fun _ _ => Nat.zero_le _
theorem FitsPort.encProfset (a : Byte) : FitsPort.Statement (.encProfset a) := fun _ _ => Nat.zero_le _
theorem FitsPort.encEvtack0 : FitsPort.Statement .encEvtack0 := fun _ _ => Nat.zero_le _
theorem FitsPort.encEvtack1 : FitsPort.Statement .encEvtack1 := fun _ _ => Nat.zero_le _
theorem FitsPort.encEvtack2 : FitsPort.Statement .encEvtack2 := fun _ _ => Nat.zero_le _
theorem FitsPort.classify (bytes : List Byte) : FitsPort.Statement (.classify bytes) := fun _ h => fitsPort_bytes h
theorem FitsPort.mapGet (a : Byte) : FitsPort.Statement (.mapGet a) := fun _ _ => Nat.zero_le _
theorem FitsPort.mapWrite (pairs : List (Byte × Byte)) : FitsPort.Statement (.mapWrite pairs) :=
  fun _ _ => Nat.zero_le _
theorem FitsPort.mapBulkRead : FitsPort.Statement .mapBulkRead := fun _ _ => Nat.zero_le _
theorem FitsPort.dpiEnc (v : Word32) : FitsPort.Statement (.dpiEnc v) := fun _ _ => Nat.zero_le _
theorem FitsPort.dpiDec (bytes : List Byte) : FitsPort.Statement (.dpiDec bytes) := fun _ h => fitsPort_bytes h
theorem FitsPort.colorEnc (text : List Ascii) : FitsPort.Statement (.colorEnc text) := fun _ _ => Nat.zero_le _
theorem FitsPort.colorDec (bytes : List Byte) : FitsPort.Statement (.colorDec bytes) := fun _ h => fitsPort_bytes h
theorem FitsPort.boolEnc (v : Word32) : FitsPort.Statement (.boolEnc v) := fun _ _ => Nat.zero_le _
theorem FitsPort.boolDec (bytes : List Byte) : FitsPort.Statement (.boolDec bytes) := fun _ h => fitsPort_bytes h
theorem FitsPort.effectEnc (v : Word32) : FitsPort.Statement (.effectEnc v) := fun _ _ => Nat.zero_le _
theorem FitsPort.effectDec (bytes : List Byte) : FitsPort.Statement (.effectDec bytes) := fun _ h => fitsPort_bytes h
theorem FitsPort.pollEnc (v : Word32) : FitsPort.Statement (.pollEnc v) := fun _ _ => Nat.zero_le _
theorem FitsPort.pollDec (bytes : List Byte) : FitsPort.Statement (.pollDec bytes) := fun _ h => fitsPort_bytes h
theorem FitsPort.byteEnc (v : Word32) : FitsPort.Statement (.byteEnc v) := fun _ _ => Nat.zero_le _
theorem FitsPort.byteDec (bytes : List Byte) : FitsPort.Statement (.byteDec bytes) := fun _ h => fitsPort_bytes h
theorem FitsPort.idxEnc (v : Word32) : FitsPort.Statement (.idxEnc v) := fun _ _ => Nat.zero_le _
theorem FitsPort.idxDec (bytes : List Byte) : FitsPort.Statement (.idxDec bytes) := fun _ h => fitsPort_bytes h
theorem FitsPort.sleepEnc (v : Word32) : FitsPort.Statement (.sleepEnc v) := fun _ _ => Nat.zero_le _
theorem FitsPort.sleepDec (bytes : List Byte) : FitsPort.Statement (.sleepDec bytes) := fun _ h => fitsPort_bytes h
theorem FitsPort.getPoll : FitsPort.Statement .getPoll := fun _ _ => Nat.zero_le _
theorem FitsPort.getDpiIdx : FitsPort.Statement .getDpiIdx := fun _ _ => Nat.zero_le _
theorem FitsPort.getLodMm : FitsPort.Statement .getLodMm := fun _ _ => Nat.zero_le _
theorem FitsPort.getLodRipple : FitsPort.Statement .getLodRipple := fun _ _ => Nat.zero_le _
theorem FitsPort.getDebounce : FitsPort.Statement .getDebounce := fun _ _ => Nat.zero_le _
theorem FitsPort.getMotionSync : FitsPort.Statement .getMotionSync := fun _ _ => Nat.zero_le _
theorem FitsPort.getAngleSnap : FitsPort.Statement .getAngleSnap := fun _ _ => Nat.zero_le _
theorem FitsPort.getLedEffect : FitsPort.Statement .getLedEffect := fun _ _ => Nat.zero_le _
theorem FitsPort.getLedBright : FitsPort.Statement .getLedBright := fun _ _ => Nat.zero_le _
theorem FitsPort.getLedEnabled : FitsPort.Statement .getLedEnabled := fun _ _ => Nat.zero_le _
theorem FitsPort.getBreatheSpeed : FitsPort.Statement .getBreatheSpeed := fun _ _ => Nat.zero_le _
theorem FitsPort.getAutosleep : FitsPort.Statement .getAutosleep := fun _ _ => Nat.zero_le _
theorem FitsPort.getDpi (a : Byte) : FitsPort.Statement (.getDpi a) := fun _ _ => Nat.zero_le _
theorem FitsPort.getColor (a : Byte) : FitsPort.Statement (.getColor a) := fun _ _ => Nat.zero_le _
theorem FitsPort.snapshot : FitsPort.Statement .snapshot := fun _ _ => Nat.zero_le _
theorem FitsPort.setPoll (v : Word32) : FitsPort.Statement (.setPoll v) := fun _ _ => Nat.zero_le _
theorem FitsPort.setDpiIdx (v : Word32) : FitsPort.Statement (.setDpiIdx v) := fun _ _ => Nat.zero_le _
theorem FitsPort.setLodMm (v : Word32) : FitsPort.Statement (.setLodMm v) := fun _ _ => Nat.zero_le _
theorem FitsPort.setLodRipple (v : Word32) : FitsPort.Statement (.setLodRipple v) := fun _ _ => Nat.zero_le _
theorem FitsPort.setDebounce (v : Word32) : FitsPort.Statement (.setDebounce v) := fun _ _ => Nat.zero_le _
theorem FitsPort.setMotionSync (v : Word32) : FitsPort.Statement (.setMotionSync v) := fun _ _ => Nat.zero_le _
theorem FitsPort.setAngleSnap (v : Word32) : FitsPort.Statement (.setAngleSnap v) := fun _ _ => Nat.zero_le _
theorem FitsPort.setLedEffect (v : Word32) : FitsPort.Statement (.setLedEffect v) := fun _ _ => Nat.zero_le _
theorem FitsPort.setLedBright (v : Word32) : FitsPort.Statement (.setLedBright v) := fun _ _ => Nat.zero_le _
theorem FitsPort.setLedEnabled (v : Word32) : FitsPort.Statement (.setLedEnabled v) := fun _ _ => Nat.zero_le _
theorem FitsPort.setBreatheSpeed (v : Word32) : FitsPort.Statement (.setBreatheSpeed v) := fun _ _ => Nat.zero_le _
theorem FitsPort.setAutosleep (v : Word32) : FitsPort.Statement (.setAutosleep v) := fun _ _ => Nat.zero_le _
theorem FitsPort.setDpi (a : Byte) (v : Word32) : FitsPort.Statement (.setDpi a v) := fun _ _ => Nat.zero_le _
theorem FitsPort.setColor (a : Byte) (text : List Ascii) : FitsPort.Statement (.setColor a text) :=
  fun _ _ => Nat.zero_le _
theorem FitsPort.openSession : FitsPort.Statement .openSession := fun _ _ => Nat.zero_le _
theorem FitsPort.closeSession : FitsPort.Statement .closeSession := fun _ _ => Nat.zero_le _
theorem FitsPort.restore : FitsPort.Statement .restore := fun _ _ => Nat.zero_le _
theorem FitsPort.getProfile : FitsPort.Statement .getProfile := fun _ _ => Nat.zero_le _
theorem FitsPort.setProfile (a : Byte) : FitsPort.Statement (.setProfile a) := fun _ _ => Nat.zero_le _
theorem FitsPort.powerQuery : FitsPort.Statement .powerQuery := fun _ _ => Nat.zero_le _
theorem FitsPort.recv : FitsPort.Statement .recv := fun _ _ => Nat.zero_le _
theorem FitsPort.sendEvtack (a : Byte) : FitsPort.Statement (.sendEvtack a) := fun _ _ => Nat.zero_le _
theorem FitsPort.flush : FitsPort.Statement .flush := fun _ _ => Nat.zero_le _
theorem FitsPort.powerQ : FitsPort.Statement .powerQ := fun _ _ => Frame.toBytes_length _
theorem FitsPort.powerR (header : Byte) (data : FrameData) : FitsPort.Statement (.powerR header data) :=
  fun _ _ => Frame.toBytes_length _
theorem FitsPort.restoreQ : FitsPort.Statement .restoreQ := fun _ _ => Frame.toBytes_length _
theorem FitsPort.restoreR : FitsPort.Statement .restoreR := fun _ _ => Frame.toBytes_length _
theorem FitsPort.memreadQ (a n : Byte) : FitsPort.Statement (.memreadQ a n) := fun _ _ => Frame.toBytes_length _
theorem FitsPort.memreadR (header : Byte) (data : FrameData) : FitsPort.Statement (.memreadR header data) :=
  fun _ _ => Frame.toBytes_length _
theorem FitsPort.memwriteQ (a : Byte) (bytes : List Byte) : FitsPort.Statement (.memwriteQ a bytes) :=
  fun _ _ => Frame.toBytes_length _
theorem FitsPort.memwriteR (header command : Byte) (data : FrameData) : FitsPort.Statement (.memwriteR header command data) :=
  fun _ _ => Frame.toBytes_length _
theorem FitsPort.profgetQ : FitsPort.Statement .profgetQ := fun _ _ => Frame.toBytes_length _
theorem FitsPort.profgetR (header : Byte) (data : FrameData) : FitsPort.Statement (.profgetR header data) :=
  fun _ _ => Frame.toBytes_length _
theorem FitsPort.profsetQ (a : Byte) : FitsPort.Statement (.profsetQ a) := fun _ _ => Frame.toBytes_length _
theorem FitsPort.profsetR (header : Byte) (data : FrameData) : FitsPort.Statement (.profsetR header data) :=
  fun _ _ => Frame.toBytes_length _
theorem FitsPort.statusR (header : Byte) (data : FrameData) : FitsPort.Statement (.statusR header data) :=
  fun _ _ => Frame.toBytes_length _
theorem FitsPort.eventN0 (header : Byte) (data : FrameData) : FitsPort.Statement (.eventN0 header data) :=
  fun _ _ => Frame.toBytes_length _
theorem FitsPort.evtack0 : FitsPort.Statement .evtack0 := fun _ _ => Frame.toBytes_length _
theorem FitsPort.eventN1 (header : Byte) (data : FrameData) : FitsPort.Statement (.eventN1 header data) :=
  fun _ _ => Frame.toBytes_length _
theorem FitsPort.evtack1 : FitsPort.Statement .evtack1 := fun _ _ => Frame.toBytes_length _
theorem FitsPort.eventN2 (header : Byte) (data : FrameData) : FitsPort.Statement (.eventN2 header data) :=
  fun _ _ => Frame.toBytes_length _
theorem FitsPort.evtack2 : FitsPort.Statement .evtack2 := fun _ _ => Frame.toBytes_length _

end Sys2Proof.Laws
end

