-- ==== Sys2Proof/Tests/Slice0.lean ====
section
/-! SUPPORT. Tests of the model under the test configuration TC: ill-formed terms that the checks refuse, words written
out from 30_encoding.md R92 and R97, vectors of 95_test_vectors.md, and for every obligation with hypotheses a state and
operands that meet them, each clause at a boundary value. -/

namespace Sys2Proof.Tests

open Sys2Proof Sys2Proof.Machine

/- The kernel evaluations below are checked one after another: each in a thread of its own would take a stack of its own. -/
set_option Elab.async false

/-! ## Helpers -/

/-- The state after reset under TC. -/
def fresh : State := { State.reset with cfg := Config.tc }

/-- A receive that brings the given strings and delivers. -/
def brings (strings : List (List Byte)) : RecvDraw := ⟨strings, .deliver⟩

/-- A connected block whose next write succeeds and whose next receive brings the given strings. -/
def linked (strings : List (List Byte)) : State :=
  { fresh with sess := .connected, env := ⟨[], [.ok], [brings strings], 0⟩ }

/-- The state of a block whose instruction or step answered with a next state. -/
def ran : Host.Outcome State Fault Refusal → Option State
  | .next s => some s
  | .fault _ => none
  | .refused _ => none

/-- The result an instruction leaves at the host port. -/
def answer (i : Instr) (s : State) : Option Result := (ran (exec i s)).bind State.result

/-- The status an instruction leaves at the host port. -/
def status (i : Instr) (s : State) : Option Status := (answer i s).map Result.status

/-- The strings an instruction has sent when it ends. -/
def sent (i : Instr) (s : State) : Option (List (List Byte)) := (ran (exec i s)).map fun t => t.tx.map Frame.toBytes

/-- The cache an instruction leaves. -/
def cacheAfter (i : Instr) (s : State) : Option Memory := (ran (exec i s)).map State.cache

/-- The decoder under TC reads this input as this instruction. -/
def reads (x : Input) (i : Instr) : Bool :=
  match decode Config.tc x with
  | .ok j => decide (j = i)
  | .error _ => false

/-- n zero bytes. -/
def zeros (n : Nat) : List Byte := List.replicate n 0

/-- Fourteen data bytes, zero but for those given from frame position 2 on. -/
def dataOf (bytes : List Byte) : FrameData := .pad bytes

/-- The frames of 95_test_vectors.md, byte by byte. -/
def powerQ : List Byte := [0xA0, 0xB1, 0, 0, 0, 0, 0, 0, 0, 0, 0, 0, 0, 0, 0, 0, 0x04]
def restoreQ : List Byte := [0xA0, 0xB2, 0, 0, 0, 0, 0, 0, 0, 0, 0, 0, 0, 0, 0, 0, 0x03]
def profgetQ : List Byte := [0xA0, 0xB7, 0, 0, 0, 0, 0, 0, 0, 0, 0, 0, 0, 0, 0, 0, 0xFE]
def ev0 : List Byte := [0xA0, 0xB4, 0, 0, 0, 0, 1, 0, 0, 0, 0, 0, 0, 0, 0, 0, 0x00]
def ev1 : List Byte := [0xA0, 0xB4, 0, 0, 0, 0, 2, 0, 0, 0, 0, 0, 0, 0, 0, 0, 0xFF]
def ev2 : List Byte := [0xA0, 0xB4, 0, 0, 0, 0, 3, 0, 0, 0, 0, 0, 0, 0, 0, 0, 0xFE]
def wack : List Byte := [0xA0, 0xB5, 0, 0, 0, 0, 0, 0, 0, 0, 0, 0, 0, 0, 0, 0, 0x00]
/-- POWER_R of V33: 100 percent, 4200 millivolts, not connected. -/
def powerR : List Byte := [0xA0, 0xB1, 0, 0, 0, 0, 0x64, 0x10, 0x68, 0, 0, 0, 0, 0, 0, 0, 0x28]
/-- PROFGET_R of V36: profile 1. -/
def profgetR : List Byte := [0xA0, 0xB7, 0, 0, 0, 0, 1, 0, 0, 0, 0, 0, 0, 0, 0, 0, 0xFD]
/-- PROFSET_R of V37: profile 2. -/
def profsetR : List Byte := [0xA0, 0xB8, 0, 0, 0, 0, 2, 0, 0, 0, 0, 0, 0, 0, 0, 0, 0xFB]
/-- The altered restore echo of V109. -/
def badEcho : List Byte := [0xA0, 0xB2, 0, 0, 0, 0, 1, 0, 0, 0, 0, 0, 0, 0, 0, 0, 0x02]
/-- POWER_R of V34: connected flag 02. -/
def badFlag : List Byte := [0xA0, 0xB1, 0, 0, 0, 0, 0x32, 0x0E, 0x74, 2, 0, 0, 0, 0, 0, 0, 0x4E]

/-- The frame of 17 bytes whose checksum is right. -/
def frameOf (s : List Byte) : Frame :=
  match Frame.parse s with
  | .ok f => f
  | .error _ => restoreQFrame Config.tc

/-! ## Ill-formed terms are refused -/

theorem test_wf_refuses_256_bytes :
    [Instr.cksum (zeros 256), .frameEnc 0 (zeros 256), .frameDec (zeros 256), .encMemwrite 0 (zeros 256),
      .classify (zeros 256), .dpiDec (zeros 256), .colorDec (zeros 256), .boolDec (zeros 256),
      .effectDec (zeros 256), .pollDec (zeros 256), .byteDec (zeros 256), .idxDec (zeros 256),
      .sleepDec (zeros 256)].all (fun i => !i.wf Config.tc) = true := by decide +kernel

theorem test_wf_takes_255_bytes : (Instr.cksum (zeros 255)).wf Config.tc = true := by decide +kernel

theorem test_wf_refuses_memory_spans :
    [Instr.memreadQ 0 0, .memreadQ 0 11, .memreadQ 0xF7 10, .memwriteQ 0 [], .memwriteQ 0 (zeros 11),
      .memwriteQ 0xFF [1, 2]].all (fun i => !i.wf Config.tc) = true := by decide

theorem test_wf_refuses_narrower_replies :
    [Instr.memwriteR 0 0xB1 (dataOf []), .memwriteR 0xA0 0xB2 (dataOf []), .memwriteR 0 0xB3 (dataOf []),
      .memwriteR 0 0xB4 (dataOf [0, 0, 0, 0, 1]), .memwriteR 0 0xB4 (dataOf [0, 0, 0, 0, 2]),
      .memwriteR 0 0xB4 (dataOf [0, 0, 0, 0, 3]), .memwriteR 0 0xB6 (dataOf []), .memwriteR 0 0xB7 (dataOf []),
      .memwriteR 0 0xB8 (dataOf [])].all (fun i => !i.wf Config.tc) = true := by decide

theorem test_wf_refuses_wrong_selectors :
    [Instr.eventN0 0xA0 (dataOf [0, 0, 0, 0, 2]), .eventN1 0xA0 (dataOf [0, 0, 0, 0, 3]),
      .eventN2 0xA0 (dataOf [0, 0, 0, 0, 1])].all (fun i => !i.wf Config.tc) = true := by decide

/-- 00_scope.md R6: one broken configuration for each clause. -/
theorem test_config_refuses_each_clause :
    [{ Params.tc with cmdProfset := 0xB1 }, { Params.tc with evtSel1 := 0x01 }, { Params.tc with effectBreathe := 0 },
      { Params.tc with poll125 := 0x01 }, { Params.tc with profilePos := 1 }, { Params.tc with profilePos := 16 },
      { Params.tc with powerMvPos := 15, powerFlagPos := 5 }, { Params.tc with powerFlagPos := 8 },
      { Params.tc with addrColor3 := 0xBF }, { Params.tc with addrDpiIdx := 0x01 }].all
        (fun p => (Config.make? p).isNone) = true := by decide +kernel

theorem test_config_takes_tc : (Config.make? Params.tc).isSome = true := by decide +kernel

/-! ## Words written out from the encodings -/

/-- 30_encoding.md R97, the frame codec, the payload registry and the raw cache; record fields an operation does not
read hold junk. -/
theorem test_decode_codec_and_map :
    [(Input.op ⟨0x01, 7, 7, 7, [1, 2], [], []⟩, Instr.cksum [1, 2]),
      (.op ⟨0x02, 0xB1, 7, 7, [1, 2, 3], [], []⟩, .frameEnc 0xB1 [1, 2, 3]),
      (.op ⟨0x03, 7, 7, 7, [9], [], []⟩, .frameDec [9]),
      (.op ⟨0x10, 7, 7, 7, [], [], []⟩, .encPowerQ),
      (.op ⟨0x11, 7, 7, 7, [], [], []⟩, .encRestore),
      (.op ⟨0x12, 0xF6, 10, 7, [], [], []⟩, .encMemread 0xF6 10),
      (.op ⟨0x13, 0x28, 7, 7, [0x1F], [], []⟩, .encMemwrite 0x28 [0x1F]),
      (.op ⟨0x14, 7, 7, 7, [], [], []⟩, .encProfget),
      (.op ⟨0x15, 2, 7, 7, [], [], []⟩, .encProfset 2),
      (.op ⟨0x16, 7, 7, 7, [], [], []⟩, .encEvtack0),
      (.op ⟨0x17, 7, 7, 7, [], [], []⟩, .encEvtack1),
      (.op ⟨0x18, 7, 7, 7, [], [], []⟩, .encEvtack2),
      (.op ⟨0x20, 7, 7, 7, [4, 5], [], []⟩, .classify [4, 5]),
      (.op ⟨0x30, 0xC8, 7, 7, [], [], []⟩, .mapGet 0xC8),
      (.op ⟨0x31, 7, 7, 7, [], [(0xC8, 0x77)], []⟩, .mapWrite [(0xC8, 0x77)]),
      (.op ⟨0x32, 7, 7, 7, [], [], []⟩, .mapBulkRead)].all (fun p => reads p.1 p.2) = true := by decide

/-- 30_encoding.md R97, the value codecs. -/
theorem test_decode_value_codecs :
    [(Input.op ⟨0x40, 7, 7, 1600, [], [], []⟩, Instr.dpiEnc 1600),
      (.op ⟨0x41, 7, 7, 7, [1, 1, 0], [], []⟩, .dpiDec [1, 1, 0]),
      (.op ⟨0x42, 7, 7, 7, [], [], [0x23]⟩, .colorEnc [0x23]),
      (.op ⟨0x43, 7, 7, 7, [1, 2, 3], [], []⟩, .colorDec [1, 2, 3]),
      (.op ⟨0x44, 7, 7, 1, [], [], []⟩, .boolEnc 1),
      (.op ⟨0x45, 7, 7, 7, [1], [], []⟩, .boolDec [1]),
      (.op ⟨0x46, 7, 7, 2, [], [], []⟩, .effectEnc 2),
      (.op ⟨0x47, 7, 7, 7, [2], [], []⟩, .effectDec [2]),
      (.op ⟨0x48, 7, 7, 500, [], [], []⟩, .pollEnc 500),
      (.op ⟨0x49, 7, 7, 7, [4], [], []⟩, .pollDec [4]),
      (.op ⟨0x4A, 7, 7, 255, [], [], []⟩, .byteEnc 255),
      (.op ⟨0x4B, 7, 7, 7, [255], [], []⟩, .byteDec [255]),
      (.op ⟨0x4C, 7, 7, 3, [], [], []⟩, .idxEnc 3),
      (.op ⟨0x4D, 7, 7, 7, [3], [], []⟩, .idxDec [3]),
      (.op ⟨0x4E, 7, 7, 600, [], [], []⟩, .sleepEnc 600),
      (.op ⟨0x4F, 7, 7, 7, [60], [], []⟩, .sleepDec [60])].all (fun p => reads p.1 p.2) = true := by decide

/-- 30_encoding.md R97, the getters and SNAPSHOT. -/
theorem test_decode_getters :
    [(Input.op ⟨0x50, 7, 7, 7, [], [], []⟩, Instr.getPoll), (.op ⟨0x51, 7, 7, 7, [], [], []⟩, .getDpiIdx),
      (.op ⟨0x52, 7, 7, 7, [], [], []⟩, .getLodMm), (.op ⟨0x53, 7, 7, 7, [], [], []⟩, .getLodRipple),
      (.op ⟨0x54, 7, 7, 7, [], [], []⟩, .getDebounce), (.op ⟨0x55, 7, 7, 7, [], [], []⟩, .getMotionSync),
      (.op ⟨0x56, 7, 7, 7, [], [], []⟩, .getAngleSnap), (.op ⟨0x57, 7, 7, 7, [], [], []⟩, .getLedEffect),
      (.op ⟨0x58, 7, 7, 7, [], [], []⟩, .getLedBright), (.op ⟨0x59, 7, 7, 7, [], [], []⟩, .getLedEnabled),
      (.op ⟨0x5A, 7, 7, 7, [], [], []⟩, .getBreatheSpeed), (.op ⟨0x5B, 7, 7, 7, [], [], []⟩, .getAutosleep),
      (.op ⟨0x5C, 1, 7, 7, [], [], []⟩, .getDpi 1), (.op ⟨0x5D, 3, 7, 7, [], [], []⟩, .getColor 3),
      (.op ⟨0x5F, 7, 7, 7, [], [], []⟩, .snapshot)].all (fun p => reads p.1 p.2) = true := by decide

/-- 30_encoding.md R97, the setters. -/
theorem test_decode_setters :
    [(Input.op ⟨0x60, 7, 7, 1000, [], [], []⟩, Instr.setPoll 1000), (.op ⟨0x61, 7, 7, 3, [], [], []⟩, .setDpiIdx 3),
      (.op ⟨0x62, 7, 7, 2, [], [], []⟩, .setLodMm 2), (.op ⟨0x63, 7, 7, 1, [], [], []⟩, .setLodRipple 1),
      (.op ⟨0x64, 7, 7, 8, [], [], []⟩, .setDebounce 8), (.op ⟨0x65, 7, 7, 1, [], [], []⟩, .setMotionSync 1),
      (.op ⟨0x66, 7, 7, 1, [], [], []⟩, .setAngleSnap 1), (.op ⟨0x67, 7, 7, 2, [], [], []⟩, .setLedEffect 2),
      (.op ⟨0x68, 7, 7, 200, [], [], []⟩, .setLedBright 200),
      (.op ⟨0x69, 7, 7, 1, [], [], []⟩, .setLedEnabled 1),
      (.op ⟨0x6A, 7, 7, 5, [], [], []⟩, .setBreatheSpeed 5),
      (.op ⟨0x6B, 7, 7, 600, [], [], []⟩, .setAutosleep 600),
      (.op ⟨0x6C, 2, 7, 1600, [], [], []⟩, .setDpi 2 1600),
      (.op ⟨0x6D, 3, 7, 7, [], [], [0x23]⟩, .setColor 3 [0x23])].all (fun p => reads p.1 p.2) = true := by decide

/-- 30_encoding.md R97, the session operations. -/
theorem test_decode_session :
    [(Input.op ⟨0x70, 7, 7, 7, [], [], []⟩, Instr.openSession), (.op ⟨0x71, 7, 7, 7, [], [], []⟩, .closeSession),
      (.op ⟨0x72, 7, 7, 7, [], [], []⟩, .restore), (.op ⟨0x73, 7, 7, 7, [], [], []⟩, .getProfile),
      (.op ⟨0x74, 2, 7, 7, [], [], []⟩, .setProfile 2), (.op ⟨0x75, 7, 7, 7, [], [], []⟩, .powerQuery),
      (.op ⟨0x76, 7, 7, 7, [], [], []⟩, .recv), (.op ⟨0x77, 1, 7, 7, [], [], []⟩, .sendEvtack 1),
      (.op ⟨0x78, 7, 7, 7, [], [], []⟩, .flush)].all (fun p => reads p.1 p.2) = true := by decide

/-- 30_encoding.md R92, the request rows: V22, V28, V30 and the named frames of 95_test_vectors.md. -/
theorem test_decode_requests :
    [(powerQ, Instr.powerQ), (restoreQ, .restoreQ),
      ([0xA0, 0xB6, 0, 0, 0xF6, 0x0A, 0, 0, 0, 0, 0, 0, 0, 0, 0, 0, 0xFF], .memreadQ 0xF6 10),
      ([0xA0, 0xB5, 0, 0, 0x28, 4, 0x1F, 0x1F, 0, 0x17, 0, 0, 0, 0, 0, 0, 0x7F],
        .memwriteQ 0x28 [0x1F, 0x1F, 0, 0x17]),
      (profgetQ, .profgetQ), (profsetR, .profsetQ 2), (ev0, .evtack0), (ev1, .evtack1), (ev2, .evtack2)].all
        (fun p => reads (.tx p.1) p.2) = true := by decide +kernel

/-- 30_encoding.md R92, the received rows: the named frames, a reply of P1, and V13 (the header is not checked). -/
theorem test_decode_arrivals :
    [(powerR, Instr.powerR 0xA0 (dataOf [0, 0, 0, 0, 0x64, 0x10, 0x68])), (restoreQ, .restoreR),
      ([0xA0, 0xB6, 0, 0, 0, 0x0A, 1, 0x54, 1, 0x54, 0, 0, 0, 0, 0, 0, 0x4B],
        .memreadR 0xA0 (dataOf [0, 0, 0, 0x0A, 1, 0x54, 1, 0x54])),
      (wack, .memwriteR 0xA0 0xB5 (dataOf [])), (badEcho, .memwriteR 0xA0 0xB2 (dataOf [0, 0, 0, 0, 1])),
      (profgetR, .profgetR 0xA0 (dataOf [0, 0, 0, 0, 1])), (profsetR, .profsetR 0xA0 (dataOf [0, 0, 0, 0, 2])),
      ([0xA0, 0xB3, 0, 0, 0, 0, 0, 0, 0, 0, 0, 0, 0, 0, 0, 0, 0x02], .statusR 0xA0 (dataOf [])),
      ([0, 0xB4, 0, 0, 0, 0, 1, 0, 0, 0, 0, 0, 0, 0, 0, 0, 0xA0], .eventN0 0 (dataOf [0, 0, 0, 0, 1])),
      (ev1, .eventN1 0xA0 (dataOf [0, 0, 0, 0, 2])), (ev2, .eventN2 0xA0 (dataOf [0, 0, 0, 0, 3]))].all
        (fun p => reads (.rx p.1) p.2) = true := by decide +kernel

/-- 40_frame_codec.md R133, 30_encoding.md R92: strings of a wrong length, a wrong checksum or no request layout. -/
theorem test_decode_rejects_link_words :
    [Input.rx (zeros 16), .rx (zeros 18), .rx (zeros 17), .tx (zeros 17), .tx wack, .tx badEcho].all
      (fun x => match decode Config.tc x with | .ok _ => false | .error _ => true) = true := by decide +kernel

/-- spec/opcode_table.json numbers bit 0 as the least significant bit of the first byte. -/
theorem test_table_words :
    decodeTableWord 8 0x40 = some (.dpiEnc 0) ∧ decodeTableWord 8 0x5E = none ∧
      tableBytes 24 0x030201 = [1, 2, 3] := by decide

/-! ## Vectors of 95_test_vectors.md -/

/-- V1 to V5. -/
theorem test_cksum_vectors :
    answer (.cksum []) fresh = some ⟨.ok, .byte 0x55⟩ ∧ answer (.cksum [0x55]) fresh = some ⟨.ok, .byte 0⟩ ∧
      answer (.cksum [0x56]) fresh = some ⟨.ok, .byte 0xFF⟩ ∧
      answer (.cksum [0x1F, 0x1F, 0]) fresh = some ⟨.ok, .byte 0x17⟩ ∧
      answer (.cksum (zeros 17)) fresh = some ⟨.invalidValue, .nat 17⟩ := by decide

/-- S4, V6 to V8. -/
theorem test_frame_enc_vectors :
    answer (.frameEnc 0xB1 [1, 2, 3]) fresh = some ⟨.ok, .frame (frameOf
        [0xA0, 0xB1, 1, 2, 3, 0, 0, 0, 0, 0, 0, 0, 0, 0, 0, 0, 0xFE])⟩ ∧
      answer (.frameEnc 0xFF (List.replicate 14 0xFF)) fresh = some ⟨.ok, .frame (frameOf
        [0xA0, 0xFF, 0xFF, 0xFF, 0xFF, 0xFF, 0xFF, 0xFF, 0xFF, 0xFF, 0xFF, 0xFF, 0xFF, 0xFF, 0xFF, 0xFF, 0xC4])⟩ ∧
      answer (.frameEnc 0xB1 (zeros 15)) fresh = some ⟨.invalidValue, .nat 15⟩ := by decide +kernel

/-- V9 to V12. -/
theorem test_frame_dec_vectors :
    answer (.frameDec powerQ) fresh = some ⟨.ok, .frame (powerQFrame Config.tc)⟩ ∧
      status (.frameDec (powerQ.dropLast ++ [5])) fresh = some .formatError ∧
      status (.frameDec (powerQ.dropLast)) fresh = some .formatError ∧
      status (.frameDec (powerQ ++ [0])) fresh = some .formatError := by decide +kernel

/-- V20 to V24, V27 to V31: the frames byte by byte. -/
theorem test_encoder_vectors :
    [(Instr.encPowerQ, powerQ), (.encRestore, restoreQ), (.encProfget, profgetQ), (.encProfset 2, profsetR),
      (.encEvtack0, ev0), (.encEvtack1, ev1), (.encEvtack2, ev2),
      (.encMemread 0xF6 10, [0xA0, 0xB6, 0, 0, 0xF6, 0x0A, 0, 0, 0, 0, 0, 0, 0, 0, 0, 0, 0xFF]),
      (.encMemwrite 0x28 [0x1F], [0xA0, 0xB5, 0, 0, 0x28, 1, 0x1F, 0, 0, 0, 0, 0, 0, 0, 0, 0, 0xB8])].all
        (fun p => decide (answer p.1 fresh = some ⟨.ok, .frame (frameOf p.2)⟩)) = true := by decide +kernel

/-- V25, V26. -/
theorem test_encoder_ranges :
    [Instr.encMemread 0xF7 10, .encMemread 0 0, .encMemread 0 11, .encMemwrite 0 [], .encMemwrite 0 (zeros 11),
      .encMemwrite 0xFF [1, 2]].all (fun i => decide (status i fresh = some .invalidRange)) = true := by decide +kernel

/-- V33, V35 to V38. -/
theorem test_classify_vectors :
    answer (.classify powerR) fresh = some ⟨.ok, .variant ⟨frameOf powerR, .powerEcho ⟨100, 4200, false⟩⟩⟩ ∧
      answer (.classify restoreQ) fresh = some ⟨.ok, .variant ⟨frameOf restoreQ, .restoreEcho⟩⟩ ∧
      answer (.classify profgetR) fresh = some ⟨.ok, .variant ⟨frameOf profgetR, .profileGetResp 1⟩⟩ ∧
      answer (.classify profsetR) fresh = some ⟨.ok, .variant ⟨frameOf profsetR, .profileSetEcho 2⟩⟩ ∧
      answer (.classify ev1) fresh = some ⟨.ok, .variant ⟨frameOf ev1, .event 1⟩⟩ := by decide +kernel

/-- V34, V39, V41 to V44. -/
theorem test_classify_errors :
    status (.classify badFlag) fresh = some .invalidEncoding ∧
      status (.classify [0xA0, 0xB4, 0, 0, 0, 0, 9, 0, 0, 0, 0, 0, 0, 0, 0, 0, 0xF8]) fresh = some .decodeError ∧
      answer (.classify wack) fresh = some ⟨.unsupportedDecode, .frame (frameOf wack)⟩ ∧
      status (.classify [0xA0, 0xB3, 0, 0, 0, 0, 0, 0, 0, 0, 0, 0, 0, 0, 0, 0, 0x02]) fresh =
        some .unsupportedDecode ∧
      status (.classify [0xA0, 0x42, 0, 0, 0, 0, 0, 0, 0, 0, 0, 0, 0, 0, 0, 0, 0x73]) fresh =
        some .unsupportedDecode ∧
      status (.classify (powerQ.dropLast ++ [5])) fresh = some .formatError := by decide +kernel

/-- S1, V50 to V54. -/
theorem test_dpi_enc_vectors :
    answer (.dpiEnc 12850) fresh = some ⟨.ok, .bytes [0, 0, 0x44]⟩ ∧
      answer (.dpiEnc 26000) fresh = some ⟨.ok, .bytes [7, 7, 0x88]⟩ ∧
      status (.dpiEnc 26001) fresh = some .invalidValue ∧ status (.dpiEnc 49) fresh = some .invalidValue ∧
      status (.dpiEnc 1601) fresh = some .alignmentError := by decide

/-- V55 to V60. -/
theorem test_dpi_dec_vectors :
    answer (.dpiDec [0x1F, 0x1F, 0]) fresh = some ⟨.ok, .nat 1600⟩ ∧
      answer (.dpiDec [0, 0, 0xCC]) fresh = some ⟨.ok, .nat 38450⟩ ∧
      [[1, 2, 0], [0, 0, 0x48], [0, 0, 0x11], [0x1F, 0x1F]].all
        (fun bs => decide (status (.dpiDec bs) fresh = some .invalidEncoding)) = true := by decide

/-- S9, V61, V62: "1A2B3C", "#12345g", "#12345" and the empty text; and "##a2b3c", one `#` only. -/
theorem test_color_enc_vectors :
    answer (.colorEnc [0x31, 0x41, 0x32, 0x42, 0x33, 0x43]) fresh = some ⟨.ok, .bytes [0x1A, 0x2B, 0x3C]⟩ ∧
      [[0x23, 0x31, 0x32, 0x33, 0x34, 0x35, 0x67], [0x23, 0x31, 0x32, 0x33, 0x34, 0x35], [],
        [0x23, 0x23, 0x61, 0x32, 0x62, 0x33, 0x63]].all
          (fun t => decide (status (.colorEnc t) fresh = some .invalidValue)) = true := by decide

/-- S9, V63: "#1a2b3c" and "#ffffff". -/
theorem test_color_dec_vectors :
    answer (.colorDec [0x1A, 0x2B, 0x3C]) fresh = some ⟨.ok, .text [0x23, 0x31, 0x61, 0x32, 0x62, 0x33, 0x63]⟩ ∧
      answer (.colorDec [0xFF, 0xFF, 0xFF]) fresh =
        some ⟨.ok, .text [0x23, 0x66, 0x66, 0x66, 0x66, 0x66, 0x66]⟩ := by decide

/-- V64, V67, V70, V73, V74, V76. -/
theorem test_scalar_enc_vectors :
    [(Instr.boolEnc 0, (0x00 : Byte)), (.boolEnc 1, 0x01), (.effectEnc 2, 0x02), (.pollEnc 1000, 0x01),
      (.pollEnc 125, 0x08), (.byteEnc 255, 0xFF), (.idxEnc 3, 0x03), (.sleepEnc 600, 0x3C),
      (.sleepEnc 2550, 0xFF)].all (fun p => decide (answer p.1 fresh = some ⟨.ok, .byte p.2⟩)) = true := by decide

/-- V65, V68, V71, V73, V74, V76. -/
theorem test_scalar_enc_errors :
    [Instr.boolEnc 2, .effectEnc 3, .pollEnc 2000, .byteEnc 256, .idxEnc 4, .sleepEnc 2560, .sleepEnc 605].all
      (fun i => decide (status i fresh = some .invalidValue)) = true := by decide

/-- V66, V77, and the inverses of V67, V70, V73, V74. -/
theorem test_scalar_dec_vectors :
    [(Instr.boolDec [0], Value.bool false), (.boolDec [1], .bool true), (.effectDec [2], .effect .breathe),
      (.pollDec [8], .nat 125), (.byteDec [0xFF], .nat 255), (.idxDec [3], .nat 3), (.sleepDec [0x3C], .nat 600)].all
        (fun p => decide (answer p.1 fresh = some ⟨.ok, p.2⟩)) = true := by decide

/-- V66, V69, V72, V75, and the length check of D50. -/
theorem test_scalar_dec_errors :
    [Instr.boolDec [0xFF], .effectDec [3], .pollDec [0], .pollDec [3], .idxDec [4], .byteDec [], .sleepDec [1, 2]].all
      (fun i => decide (status i fresh = some .invalidEncoding)) = true := by decide

/-- V80, V82 and V126. -/
theorem test_map_get_vectors :
    status (.mapGet 0) fresh = some .notPopulated ∧
      answer (.mapGet 0xC8) { fresh with cache := [(0xC8, 0x77)] } = some ⟨.ok, .byte 0x77⟩ ∧
      status .getPoll fresh = some .notPopulated := by decide

/-- V83: the pairs out of order, the frame and the cells. -/
theorem test_map_write_vector :
    sent (.mapWrite [(0x29, 0x1F), (0x28, 0x1F), (0x2A, 0), (0x2B, 0x17)]) (linked [wack]) =
        some [[0xA0, 0xB5, 0, 0, 0x28, 4, 0x1F, 0x1F, 0, 0x17, 0, 0, 0, 0, 0, 0, 0x7F]] ∧
      cacheAfter (.mapWrite [(0x29, 0x1F), (0x28, 0x1F), (0x2A, 0), (0x2B, 0x17)]) (linked [wack]) =
        some [(0x28, 0x1F), (0x29, 0x1F), (0x2A, 0), (0x2B, 0x17)] := by decide +kernel

/-- S5, V84, V85, V97: what MAP_WRITE refuses, and a reply that does not come. -/
theorem test_map_write_errors :
    [[], [(0x10, 1), (0x10, 2)], [(0x10, 1), (0x12, 1)], (List.range 11).map fun i => (BitVec.ofNat 8 i, 0)].all
        (fun l => decide (status (.mapWrite l) fresh = some .invalidRange)) = true ∧
      status (.mapWrite [(0, 1)]) { linked [] with env := ⟨[], [.ok], [⟨[], .timeout⟩], 0⟩ } = some .timeout ∧
      cacheAfter (.mapWrite [(0, 1)]) { linked [] with env := ⟨[], [.ok], [⟨[], .timeout⟩], 0⟩ } = some [] := by
  decide +kernel

/-- V86 to V89, V91 to V93: the frames of the one-byte setters. -/
theorem test_setter_frames :
    [(Instr.setPoll 1000, [(0xA0 : Byte), 0xB5, 0, 0, 0, 2, 1, 0x54, 0, 0, 0, 0, 0, 0, 0, 0, 0xA9]),
      (.setLedBright 200, [0xA0, 0xB5, 0, 0, 0x10, 2, 0xC8, 0x8D, 0, 0, 0, 0, 0, 0, 0, 0, 0x99]),
      (.setAutosleep 600, [0xA0, 0xB5, 0, 0, 0x16, 2, 0x3C, 0x19, 0, 0, 0, 0, 0, 0, 0, 0, 0x93]),
      (.setLedEffect 2, [0xA0, 0xB5, 0, 0, 0x0E, 2, 2, 0x53, 0, 0, 0, 0, 0, 0, 0, 0, 0x9B]),
      (.setLedEnabled 0, [0xA0, 0xB5, 0, 0, 0x12, 2, 0, 0x55, 0, 0, 0, 0, 0, 0, 0, 0, 0x97]),
      (.setDpiIdx 3, [0xA0, 0xB5, 0, 0, 2, 2, 3, 0x52, 0, 0, 0, 0, 0, 0, 0, 0, 0xA7]),
      (.setLodMm 2, [0xA0, 0xB5, 0, 0, 4, 2, 2, 0x53, 0, 0, 0, 0, 0, 0, 0, 0, 0xA5])].all
        (fun p => decide (sent p.1 (linked [wack]) = some [p.2])) = true := by decide +kernel

/-- The one-byte setters without a vector, at the TC addresses of 10_state.md R32. -/
theorem test_setter_cells :
    [(Instr.setLodRipple 1, [(6, (1 : Byte)), (7, 0x54)]), (.setDebounce 8, [(8, 8), (9, 0x4D)]),
      (.setMotionSync 1, [(0x0A, 1), (0x0B, 0x54)]), (.setAngleSnap 1, [(0x0C, 1), (0x0D, 0x54)]),
      (.setBreatheSpeed 5, [(0x14, 5), (0x15, 0x50)])].all
        (fun p => decide (cacheAfter p.1 (linked [wack]) = some p.2)) = true := by decide +kernel

/-- V90 and S11: the frames of the mode setters. -/
theorem test_mode_setter_frames :
    sent (.setColor 3 [0x23, 0x66, 0x66, 0x38, 0x30, 0x30, 0x30]) (linked [wack]) =
        some [[0xA0, 0xB5, 0, 0, 0x3C, 4, 0xFF, 0x80, 0, 0xD6, 0, 0, 0, 0, 0, 0, 0x6B]] ∧
      sent (.setDpi 2 1600) (linked [ev1, wack]) =
        some [[0xA0, 0xB5, 0, 0, 0x30, 4, 0x1F, 0x1F, 0, 0x17, 0, 0, 0, 0, 0, 0, 0x77]] ∧
      cacheAfter (.setDpi 2 1600) (linked [ev1, wack]) =
        some [(0x30, 0x1F), (0x31, 0x1F), (0x32, 0), (0x33, 0x17)] := by decide +kernel

/-- V121 to V124: the order of the checks. -/
theorem test_check_order :
    status (.setDpi 4 75) fresh = some .invalidValue ∧ status (.setDpi 0 75) fresh = some .alignmentError ∧
      status (.setDpi 0 800) fresh = some .notConnected ∧ status (.mapWrite []) fresh = some .invalidRange ∧
      status .mapBulkRead fresh = some .notConnected := by decide

/-- The cells of a populated cache, all fields set: the image of P1 but for the LED, which breathes at speed 5. -/
def image : Memory :=
  (List.range 0xC8).map fun a =>
    (a, ([(0x00, (1 : Byte)), (0x02, 1), (0x0E, 2), (0x10, 0xC8), (0x12, 1), (0x14, 5), (0x16, 0x3C), (0x04, 2),
      (0x06, 1), (0x08, 8), (0x0A, 1), (0x0C, 1), (0x24, 0x1A), (0x25, 0x2B), (0x26, 0x3C), (0x28, 0x1F),
      (0x29, 0x1F)].lookup a).getD 0)

/-- P1 steps 3 to 7, P2 step 3, and the getters beside them. -/
theorem test_getters_read_image :
    [(Instr.getPoll, Value.nat 1000), (.getDpiIdx, .nat 1), (.getLodMm, .nat 2), (.getLodRipple, .bool true),
      (.getDebounce, .nat 8), (.getMotionSync, .bool true), (.getAngleSnap, .bool true),
      (.getLedEffect, .effect .breathe), (.getLedBright, .nat 200), (.getLedEnabled, .bool true),
      (.getBreatheSpeed, .nat 5), (.getAutosleep, .nat 600), (.getDpi 1, .nat 1600),
      (.getColor 0, .text [0x23, 0x31, 0x61, 0x32, 0x62, 0x33, 0x63])].all
        (fun p => decide (answer p.1 { fresh with cache := image } = some ⟨.ok, p.2⟩)) = true := by decide +kernel

/-- V96. -/
theorem test_getter_invalid_encoding :
    status .getLodRipple { fresh with cache := [(6, 2)] } = some .invalidEncoding := by decide

/-- V100, V101, V102, V129. -/
theorem test_open_close_vectors :
    (ran (exec .openSession { fresh with env := ⟨[.ok], [], [], 0⟩ })).map State.sess = some .connected ∧
      status .openSession (linked []) = some .ok ∧ status .closeSession fresh = some .ok ∧
      status .openSession { fresh with env := ⟨[.ioError], [], [], 0⟩ } = some .ioError ∧
      (ran (exec .openSession { fresh with env := ⟨[.ioError], [], [], 0⟩ })).map State.sess =
        some .disconnected := by decide

/-- A connected block whose next write succeeds, whose first receive brings the strings, and three more deliver. -/
def filtering (strings : List (List Byte)) : State :=
  { linked [] with env := ⟨[], [.ok], brings strings :: List.replicate 3 (brings []), 0⟩ }

/-- V103, V104: three events discarded, and a fourth that ends the wait. -/
theorem test_get_profile_vectors :
    answer .getProfile (filtering [ev0, ev1, ev2, profgetR]) = some ⟨.ok, .byte 1⟩ ∧
      (ran (exec .getProfile (filtering [ev0, ev1, ev2, profgetR]))).map State.profile = some (some 1) ∧
      status .getProfile (filtering [ev0, ev1, ev2, ev0]) = some .noMatch ∧
      (ran (exec .getProfile (filtering [ev0, ev1, ev2, ev0]))).map State.profile = some none := by decide +kernel

/-- P3 steps 3 and 4. -/
theorem test_set_profile_vectors :
    (ran (exec (.setProfile 2) (linked [profsetR]))).map State.profile = some (some 2) ∧
      status (.setProfile 2) (linked [[0xA0, 0xB8, 0, 0, 0, 0, 1, 0, 0, 0, 0, 0, 0, 0, 0, 0, 0xFC]]) =
        some .protocolViolation := by decide +kernel

/-- P5 steps 1 and 4, V128. -/
theorem test_power_query_vectors :
    answer .powerQuery (filtering [ev0, ev1, powerR]) = some ⟨.ok, .power ⟨100, 4200, false⟩⟩ ∧
      status .powerQuery (linked [badFlag]) = some .invalidEncoding ∧
      status .powerQuery (linked [powerQ.dropLast]) = some .formatError := by decide +kernel

/-- P4 step 1 (the stale EV2 is flushed) and V109. -/
theorem test_restore_vectors :
    cacheAfter .restore { linked [restoreQ] with cache := [(1, 1)], rxq := [ev2] } = some [] ∧
      status .restore { linked [restoreQ] with cache := [(1, 1)], rxq := [ev2] } = some .ok ∧
      cacheAfter .restore { linked [badEcho] with cache := [(1, 1)] } = some [(1, 1)] ∧
      status .restore { linked [badEcho] with cache := [(1, 1)] } = some .protocolViolation := by decide +kernel

/-- V105 to V108, V110, P2 step 2. -/
theorem test_link_operation_vectors :
    sent (.sendEvtack 1) (linked []) = some [ev1] ∧ status (.sendEvtack 3) (linked []) = some .invalidValue ∧
      answer .recv { linked [] with rxq := [ev2] } = some ⟨.ok, .received (frameOf ev2) ⟨frameOf ev2, .event 2⟩⟩ ∧
      answer .recv { linked [] with rxq := [wack] } = some ⟨.unsupportedDecode, .frame (frameOf wack)⟩ ∧
      (ran (exec .flush { linked [] with rxq := [ev2] })).map State.rxq = some [] ∧
      status .recv fresh = some .notConnected := by decide +kernel

/-- P6 over `image`: the LED block of a breathing LED has no brightness. -/
theorem test_snapshot :
    answer .snapshot { linked [powerR] with cache := image, profile := some 0 } = some ⟨.ok, .snapshot
      ⟨0, 1, [⟨50, [0x23, 0x31, 0x61, 0x32, 0x62, 0x33, 0x63]⟩, ⟨1600, [0x23, 0x30, 0x30, 0x30, 0x30, 0x30, 0x30]⟩,
        ⟨50, [0x23, 0x30, 0x30, 0x30, 0x30, 0x30, 0x30]⟩, ⟨50, [0x23, 0x30, 0x30, 0x30, 0x30, 0x30, 0x30]⟩], 1000,
        ⟨true, some .breathe, none, some 5⟩, 2, true, true, true, 600, 8, ⟨100, 4200, false⟩⟩⟩ := by decide +kernel

/-- SNAPSHOT with an unknown profile asks for it first and keeps it (44_session.md R304). -/
theorem test_snapshot_queries_profile :
    (ran (exec .snapshot { linked [] with
        cache := image, env := ⟨[], [.ok, .ok], [brings [ev0, profgetR], brings [], brings [powerR]], 0⟩ })).map
      (fun t => (t.result.map Result.status, t.profile, t.tx.map Frame.toBytes)) =
        some (some .ok, some 1, [profgetQ, powerQ]) := by decide +kernel

/-- The replies of P1 with each window's data all k. -/
def bulkReplies : List Frame :=
  (List.range 20).map fun k =>
    .seal 0xA0 0xB6 (dataOf ([0, 0, BitVec.ofNat 8 (10 * k), 10] ++ List.replicate 10 (BitVec.ofNat 8 k)))

/-- A connected block under a device that answers the 20 windows. -/
def bulk : State :=
  { linked [] with env := ⟨[], List.replicate 20 .ok, bulkReplies.map fun f => brings [f.toBytes], 0⟩ }

/-- P1 steps 2, 8 and 9: 20 requests with the checksums of S7, cells 0x00..0xC7. -/
theorem test_bulk_read :
    status .mapBulkRead bulk = some .ok ∧
      (sent .mapBulkRead bulk).map (fun l => l.map fun b => b.getD 16 0) = some
        [0xF5, 0xEB, 0xE1, 0xD7, 0xCD, 0xC3, 0xB9, 0xAF, 0xA5, 0x9B, 0x91, 0x87, 0x7D, 0x73, 0x69, 0x5F, 0x55, 0x4B,
          0x41, 0x37] ∧
      cacheAfter .mapBulkRead bulk = some ((List.range 200).map fun a => (a, BitVec.ofNat 8 (a / 10))) := by
  decide +kernel

/-- A third window whose reply echoes another start, and one that does not come: two windows stay, three requests went out
(20_memory.md R71). -/
theorem test_bulk_read_stops :
    [(brings [(bulkReplies.map Frame.toBytes).getD 0 []], Status.protocolViolation),
        (⟨[], .timeout⟩, .timeout)].all (fun p => decide ((ran (exec .mapBulkRead
      { linked [] with env := ⟨[], List.replicate 3 .ok, (bulkReplies.take 2).map (fun f => brings [f.toBytes]) ++ [p.1],
                               0⟩ })).map (fun t => (t.result.map Result.status, t.cache, t.tx.length)) =
        some (some p.2, (List.range 20).map fun a => (a, BitVec.ofNat 8 (a / 10)), 3))) = true := by decide +kernel

/-- 60_exceptions.md R340: the numbers of the status codes, and one of them at the host port. -/
theorem test_status_codes :
    [Status.ok, .formatError, .unsupportedDecode, .decodeError, .invalidValue, .alignmentError, .invalidEncoding,
      .protocolViolation, .notPopulated, .timeout, .noMatch, .invalidRange, .ioError, .notConnected, .illegalOp].map
        Status.code = [0, 1, 2, 3, 4, 5, 6, 7, 8, 9, 10, 11, 12, 13, 14] ∧
      (ran (exec .flush fresh)).bind State.statusCode = some 13 := by decide

/-- V120, and the two stops of a step. -/
theorem test_step_rejections :
    [0x5E, 0x00, 0xFF].all (fun op => decide
        ((ran (step { fresh with inputs := [.op ⟨op, 0, 0, 0, [], [], []⟩] })).bind State.result =
          some ⟨.illegalOp, .byte op⟩)) = true ∧
      (ran (step { fresh with inputs := [.op ⟨0x01, 0, 0, 0, zeros 256, [], []⟩] })).isNone = true ∧
      (ran (step { fresh with inputs := [.tx wack] })).isNone = true := by decide +kernel

/-- A request row flushes, sends and takes its reply behind an event, which MEMWRITE_Q does not skip; an acknowledgement
row sends only; a received row enters the queue behind the others (30_encoding.md R92, 44_session.md R293). -/
theorem test_frame_rows :
    [(Instr.powerQ, powerQ, powerR), (.restoreQ, restoreQ, badEcho), (.profgetQ, profgetQ, profgetR),
        (.profsetQ 2, profsetR, profsetR),
        (.memreadQ 0xF6 10, [0xA0, 0xB6, 0, 0, 0xF6, 0x0A, 0, 0, 0, 0, 0, 0, 0, 0, 0, 0, 0xFF],
          [0xA0, 0xB6, 0, 0, 0, 0x0A, 1, 0x54, 1, 0x54, 0, 0, 0, 0, 0, 0, 0x4B])].all
        (fun p => decide ((ran (exec p.1 { filtering [ev1, p.2.2, ev0] with rxq := [ev2] })).map
          (fun t => (t.result, t.rxq, t.tx.map Frame.toBytes)) =
            some (some ⟨.ok, .frame (frameOf p.2.2)⟩, [ev0], [p.2.1]))) = true ∧
      (ran (exec (.memwriteQ 0x28 [0x1F]) { linked [ev1, wack] with rxq := [ev2] })).map
          (fun t => (t.result, t.rxq, t.tx.map Frame.toBytes)) =
        some (some ⟨.ok, .frame (frameOf ev1)⟩, [wack],
          [[0xA0, 0xB5, 0, 0, 0x28, 1, 0x1F, 0, 0, 0, 0, 0, 0, 0, 0, 0, 0xB8]]) ∧
      status .powerQ { linked [] with env := ⟨[], [.ok], [⟨[], .timeout⟩], 0⟩ } = some .timeout ∧
      [(Instr.evtack0, ev0), (.evtack1, ev1), (.evtack2, ev2)].all
        (fun p => decide ((ran (exec p.1 { linked [] with rxq := [ev2] })).map
          (fun t => (t.rxq, t.tx.map Frame.toBytes)) = some ([ev2], [p.2]))) = true ∧
      [(Instr.powerR 0xA0 (dataOf [0, 0, 0, 0, 0x64, 0x10, 0x68]), powerR), (.restoreR, restoreQ),
        (.memwriteR 0xA0 0xB5 (dataOf []), wack), (.profgetR 0xA0 (dataOf [0, 0, 0, 0, 1]), profgetR),
        (.profsetR 0xA0 (dataOf [0, 0, 0, 0, 2]), profsetR), (.eventN0 0xA0 (dataOf [0, 0, 0, 0, 1]), ev0),
        (.eventN1 0xA0 (dataOf [0, 0, 0, 0, 2]), ev1), (.eventN2 0xA0 (dataOf [0, 0, 0, 0, 3]), ev2),
        (.statusR 0xA0 (dataOf []), [0xA0, 0xB3, 0, 0, 0, 0, 0, 0, 0, 0, 0, 0, 0, 0, 0, 0, 0x02]),
        (.memreadR 0xA0 (dataOf [0, 0, 0, 0x0A, 1, 0x54, 1, 0x54]),
          [0xA0, 0xB6, 0, 0, 0, 0x0A, 1, 0x54, 1, 0x54, 0, 0, 0, 0, 0, 0, 0x4B])].all
        (fun p => decide ((ran (exec p.1 { fresh with rxq := [ev2] })).map State.rxq = some [ev2, p.2])) = true := by
  decide +kernel

/-! ## The hypotheses of the obligations are met: one theorem for each, every clause at a boundary value -/

/-- An answer at the host port is one of a next state. -/
theorem next_of_answer {i : Instr} {s : State} {r : Result} (h : answer i s = some r) :
    ∃ t, exec i s = .next t ∧ t.result = some r := by
  unfold answer at h
  cases hx : exec i s <;> simp_all [ran]

/-- A port with DPI_ENC 1600 first and a device string behind it. -/
def queued : State := { fresh with inputs := [.op ⟨0x40, 0, 0, 1600, [], [], []⟩, .rx [1, 2]] }

/-- Strings that arrive with the first of as many receives are delivered one by one, the rest stays queued. -/
theorem delivers_arrived (b : List Byte) (bs more : List (List Byte)) (ds : List RecvDraw) :
    Delivers [] (brings (b :: bs ++ more) :: (List.replicate bs.length (brings []) ++ ds)) (b :: bs) more ds := by
  refine .cons rfl ?_
  induction bs with
  | nil => exact .nil
  | cons x xs ih => exact .cons (by simp) ih

/-- The transport of a write that succeeds and of n receives that deliver, the first of which brings the strings. -/
def arriving (strings : List (List Byte)) (n : Nat) : Env :=
  ⟨[], [.ok], brings strings :: List.replicate (n - 1) (brings []), 0⟩

/-- A transport that brings at most three other frames and then the frame awaited answers a request. -/
theorem arriving_answers {c : Byte} {skip : List Frame} {f : Frame} (more : List (List Byte))
    (hl : skip.length ≤ 3) (hs : OtherThan c skip) (hk : f.checksum = cksum f.body) (hc : f.command = c) :
    (arriving (skip.map Frame.toBytes ++ f.toBytes :: more) (skip.length + 1)).Answers Config.tc c f more
      ⟨[], [], [], 0⟩ := by
  refine ⟨hk, hc, skip, [], [], hl, hs, rfl, ?_, rfl⟩
  cases skip with
  | nil => exact delivers_arrived f.toBytes [] more []
  | cons g gs =>
    have h := delivers_arrived g.toBytes (gs.map Frame.toBytes ++ [f.toBytes]) more []
    simpa [arriving] using h

/-- Three events, as many frames as TC lets a wait discard. -/
def events : List Frame := [frameOf ev0, frameOf ev1, frameOf ev2]

/-- Events are other than every command but their own. -/
theorem events_other {c : Byte} (h : c ≠ 0xB4) : OtherThan c events := by
  have hall : ∀ g ∈ events, g.checksum = cksum g.body ∧ g.command = 0xB4 := by decide +kernel
  exact fun g hg => ⟨(hall g hg).1, (hall g hg).2 ▸ fun e => h e.symm⟩

/-- The windows of `bulkReplies` up to n are answered one after another. -/
theorem windows_answered (n : Nat) (hn : n ≤ 20) (ss : List LinkResult) (rs : List RecvDraw) :
    WindowsAnswered Config.tc [] ⟨[], List.replicate n .ok ++ ss,
      (bulkReplies.take n).map (fun f => brings [f.toBytes]) ++ rs, 0⟩ (bulkReplies.take n) [] ⟨[], ss, rs, 0⟩ := by
  have hall : ∀ k, k < 20 → ∀ f ∈ bulkReplies[k]?, f.checksum = cksum f.body ∧ f.command = 0xB6 ∧
      (f.byteAt 4).toNat = 10 * k ∧ (f.byteAt 5).toNat = 10 := by decide +kernel
  induction n generalizing ss rs with
  | zero => exact .nil
  | succ n ih =>
    have hlt : n < bulkReplies.length := hn
    obtain ⟨hk, hc, he⟩ := hall n hn _ (List.getElem?_eq_getElem hlt)
    have hlen : (bulkReplies.take n).length = n := by simp; omega
    have h := ih (by omega) (.ok :: ss) (brings [bulkReplies[n].toBytes] :: rs)
    rw [List.take_succ_eq_append_getElem hlt]
    have ha : (⟨[], .ok :: ss, brings [bulkReplies[n].toBytes] :: rs, 0⟩ : Env).Answers Config.tc 0xB6 bulkReplies[n] []
        ⟨[], ss, rs, 0⟩ :=
      ⟨hk, hc, [], ss, rs, Nat.zero_le _, nofun, rfl, delivers_arrived _ [] [] rs, rfl⟩
    have hw := WindowsAnswered.next h ha (by rw [hlen]; exact he)
    simpa only [List.replicate_succ', List.map_append, List.map_cons, List.map_nil, List.append_assoc, List.cons_append,
      List.nil_append] using hw

theorem test_meets_DecodeUndoesEncode :
    [Instr.cksum (zeros 16), .mapWrite [(0xC8, 0x77)], .setColor 3 [0x23], .memreadQ 0xF6 10, .memwriteQ 0xFF [1],
      .memwriteR 0 0x42 (dataOf []), .eventN1 0 (dataOf [0, 0, 0, 0, 2])].all (Instr.wf Config.tc) = true := by decide

theorem test_meets_EncodeUndoesLinkDecode :
    (∃ i, decode Config.tc (.tx powerQ) = .ok i) ∧ (∃ i, decode Config.tc (.rx badEcho) = .ok i) :=
  ⟨⟨.powerQ, by rfl⟩, ⟨.memwriteR 0xA0 0xB2 (dataOf [0, 0, 0, 0, 1]), by rfl⟩⟩

theorem test_meets_StepRunsTheDecodedInstruction :
    queued.inputs = .op ⟨0x40, 0, 0, 1600, [], [], []⟩ :: [.rx [1, 2]] ∧
      decode queued.cfg (.op ⟨0x40, 0, 0, 1600, [], [], []⟩) = .ok (.dpiEnc 1600) := ⟨rfl, rfl⟩

theorem test_meets_IllegalOpRaises :
    [0x00, 0x04, 0x0F, 0x19, 0x1F, 0x21, 0x2F, 0x33, 0x3F, 0x5E, 0x6E, 0x6F, 0x79, 0xFF].all (fun op : Nat => decide
      ((op = 0 ∨ (0x04 ≤ op ∧ op ≤ 0x0F) ∨ (0x19 ≤ op ∧ op ≤ 0x1F) ∨ (0x21 ≤ op ∧ op ≤ 0x2F) ∨
        (0x33 ≤ op ∧ op ≤ 0x3F) ∨ op = 0x5E ∨ (0x6E ≤ op ∧ op ≤ 0x6F) ∨ 0x79 ≤ op) ∧
        (ran (step { fresh with inputs := [.op ⟨BitVec.ofNat 8 op, 0, 0, 0, zeros 255, [], []⟩] })).bind State.result =
          some ⟨.illegalOp, .byte (BitVec.ofNat 8 op)⟩)) = true := by decide +kernel

theorem test_meets_DeviceStringOnlyEntersQueue :
    ({ fresh with inputs := [.rx [1, 2], .rx wack] } : State).inputs = .rx [1, 2] :: [.rx wack] := rfl

theorem test_meets_DpiEncodeRule :
    [(49 : Word32), 26001].all (fun v => decide (v.toNat < 50 ∨ 26000 < v.toNat)) = true ∧
      [(51 : Word32), 25999].all (fun v => decide (50 ≤ v.toNat ∧ v.toNat ≤ 26000 ∧ v.toNat % 50 ≠ 0)) = true ∧
      [(50 : Word32), 26000].all (fun v => decide (50 ≤ v.toNat ∧ v.toNat ≤ 26000 ∧ v.toNat % 50 = 0)) = true := by
  decide

theorem test_meets_DpiDecodeRule :
    [((0 : Byte), (0 : Byte), (0 : Byte)), (0xFF, 0xFF, 0xCC)].all (fun p => decide
      (p.1 = p.2.1 ∧ p.2.2.toNat / 16 = p.2.2.toNat % 16 ∧ p.2.2.toNat % 4 = 0)) = true ∧
      [((1 : Byte), (2 : Byte), (0 : Byte)), (0, 0, 0x48), (0, 0, 0x11)].all (fun p => decide
        (¬ (p.1 = p.2.1 ∧ p.2.2.toNat / 16 = p.2.2.toNat % 16 ∧ p.2.2.toNat % 4 = 0))) = true ∧
      (zeros 2).length ≠ 3 ∧ (zeros 4).length ≠ 3 := by decide

theorem test_meets_DpiRoundTrip :
    ∃ t, exec (.dpiEnc 26000) fresh = .next t ∧ t.result = some ⟨.ok, .bytes [7, 7, 0x88]⟩ :=
  next_of_answer (by decide)

/-- "#1a2B3c" and "FFffFF" are colours; "#12345" is none, whatever the digits. -/
theorem test_meets_ColorEncodeRule :
    IsHexText [0x23, 0x31, 0x61, 0x32, 0x42, 0x33, 0x63] [1, 10, 2, 11, 3, 12] ∧
      IsHexText [0x46, 0x46, 0x66, 0x66, 0x46, 0x46] [15, 15, 15, 15, 15, 15] ∧
      ∀ digits : List Nat, digits.length = 6 → ¬ IsHexText [0x23, 0x31, 0x32, 0x33, 0x34, 0x35] digits := by
  refine ⟨(isHexText_iff (by simp)).2 (by decide), (isHexText_iff (by simp)).2 (by decide), fun ds h ht => ?_⟩
  have hne : ds ≠ [] := by rintro rfl; simp at h
  have h' := (isHexText_iff hne).1 ht
  have h5 : (dropHash [0x23, 0x31, 0x32, 0x33, 0x34, 0x35]).mapM hexVal = some [1, 2, 3, 4, 5] := by decide
  rw [h5] at h'
  simp only [Option.some.injEq] at h'
  subst h'
  simp at h

theorem test_meets_ColorDecodeRule : (zeros 2).length ≠ 3 ∧ (zeros 4).length ≠ 3 := by decide

theorem test_meets_BooleanCodecRules :
    2 ≤ (2 : Word32).toNat ∧ 2 ≤ (2 : Byte).toNat ∧ 2 ≤ (0xFF : Byte).toNat ∧ (zeros 0).length ≠ 1 ∧
      (zeros 2).length ≠ 1 := by decide

theorem test_meets_EffectCodecRules :
    3 ≤ (3 : Word32).toNat ∧
      (3 : Byte) ∉ [fresh.cfg.params.effectOff, fresh.cfg.params.effectSteady, fresh.cfg.params.effectBreathe] ∧
      (zeros 0).length ≠ 1 ∧ (zeros 2).length ≠ 1 := by decide

theorem test_meets_PollCodecRules :
    (124 : Word32).toNat ∉ [125, 250, 500, 1000] ∧ (1001 : Word32).toNat ∉ [125, 250, 500, 1000] ∧
      (0 : Byte) ∉ [fresh.cfg.params.poll125, fresh.cfg.params.poll250, fresh.cfg.params.poll500,
        fresh.cfg.params.poll1000] ∧ (zeros 0).length ≠ 1 ∧ (zeros 2).length ≠ 1 := by decide

theorem test_meets_ScalarCodecRules :
    (255 : Word32).toNat = (255 : Byte).toNat ∧ 255 < (256 : Word32).toNat ∧
      ((3 : Word32).toNat ≤ 3 ∧ (3 : Word32).toNat = (3 : Byte).toNat) ∧ 3 < (4 : Word32).toNat ∧
      (3 : Byte).toNat ≤ 3 ∧ 3 < (4 : Byte).toNat ∧ (2550 : Word32).toNat = 10 * (255 : Byte).toNat ∧
      (605 : Word32).toNat % 10 ≠ 0 ∧ 2550 < (2560 : Word32).toNat ∧ (zeros 0).length ≠ 1 ∧
      (zeros 2).length ≠ 1 := by decide

theorem test_meets_ChecksumRule : (zeros 16).length ≤ 16 ∧ 16 < (zeros 17).length := by decide

theorem test_meets_FrameEncodeRule :
    (zeros 14).length ≤ 14 ∧ 13 < (zeros 14).length ∧ ((zeros 13).length ≤ 13 ∧ 13 < 14) ∧ 14 < (zeros 15).length := by
  decide

theorem test_meets_FrameDecodeRule :
    (zeros 16).length ≠ 17 ∧ (zeros 18).length ≠ 17 ∧
      ((zeros 17).length = 17 ∧ (zeros 17)[16]? ≠ some (cksum ((zeros 17).take 16))) ∧
      (powerQ.length = 17 ∧ powerQ[16]? = some (cksum (powerQ.take 16))) := by decide

theorem test_meets_FrameRoundTrip : (zeros 14).length ≤ 14 ∧ (zeros 0).length ≤ 14 := by decide

theorem test_meets_MemoryRequestEncoderRules :
    [((0xF6 : Byte), (10 : Byte)), (0xFF, 1)].all (fun p => decide
      (1 ≤ p.2.toNat ∧ p.2.toNat ≤ 10 ∧ p.1.toNat + p.2.toNat ≤ 256)) = true ∧
      [((0 : Byte), (0 : Byte)), (0, 11), (0xF7, 10)].all (fun p => decide
        (p.2.toNat < 1 ∨ 10 < p.2.toNat ∨ 256 < p.1.toNat + p.2.toNat)) = true ∧
      [((0xF6 : Byte), zeros 10), (0xFF, [1])].all (fun p => decide
        (1 ≤ p.2.length ∧ p.2.length ≤ 10 ∧ p.1.toNat + p.2.length ≤ 256)) = true ∧
      [((0 : Byte), zeros 0), (0, zeros 11), (0xF7, zeros 10)].all (fun p => decide
        (p.2.length < 1 ∨ 10 < p.2.length ∨ 256 < p.1.toNat + p.2.length)) = true := by decide

/-- One valid string for each clause of the classification. -/
theorem test_meets_ClassifyRule :
    (∃ why, Frame.parse (zeros 17) = .error why) ∧
      ([powerR, powerR.set 9 1 |>.set 16 0x27, badFlag, restoreQ, profgetR, profsetR, ev0, ev1, ev2,
        [0xA0, 0xB4, 0, 0, 0, 0, 9, 0, 0, 0, 0, 0, 0, 0, 0, 0, 0xF8],
        [0xA0, 0xB6, 0, 0, 0, 0x0A, 1, 0x54, 1, 0x54, 0, 0, 0, 0, 0, 0, 0x4B], wack,
        [0xA0, 0xB3, 0, 0, 0, 0, 0, 0, 0, 0, 0, 0, 0, 0, 0, 0, 0x02],
        [0xA0, 0x42, 0, 0, 0, 0, 0, 0, 0, 0, 0, 0, 0, 0, 0, 0, 0x73]].map
          (fun b => match Frame.parse b with
            | .ok f => some (f.command, (f.byteAt fresh.cfg.params.powerFlagPos), f.byteAt 6)
            | .error _ => none)) =
        [some (0xB1, 0, 0x64), some (0xB1, 1, 0x64), some (0xB1, 2, 0x32), some (0xB2, 0, 0), some (0xB7, 0, 1),
          some (0xB8, 0, 2), some (0xB4, 0, 1), some (0xB4, 0, 2), some (0xB4, 0, 3), some (0xB4, 0, 9),
          some (0xB6, 0x54, 1), some (0xB5, 0, 0), some (0xB3, 0, 0), some (0x42, 0, 0)] :=
  ⟨⟨.checksum 0, by rfl⟩, by decide +kernel⟩

theorem test_meets_MapGetRule :
    Memory.read ({ fresh with cache := [(0xFF, 7)] } : State).cache (0xFF : Byte).toNat = some 7 ∧
      Memory.read fresh.cache (0 : Byte).toNat = none := ⟨rfl, rfl⟩

/-- Ten pairs in falling order at the end of the map, and one pair; a reply, and the ways the exchange fails. -/
theorem test_meets_MapWriteCompletes :
    (linked [wack, ev1]).sess = .connected ∧ (linked [wack, ev1]).RepliedBy wack [ev1] [] [] ∧
      Frame.parse wack = .ok (frameOf wack) ∧
      (((List.range 10).map fun i => (BitVec.ofNat 8 (255 - i), BitVec.ofNat 8 (9 - i))).Perm
        ((List.range 10).map fun i => (BitVec.ofNat 8 (246 + i),
          ((List.range 10).map (BitVec.ofNat 8)).getD i (0 : Byte)))) ∧
      [((0xC8 : Byte), (0x77 : Byte))].Perm
        ((List.range 1).map fun i => (BitVec.ofNat 8 (0xC8 + i), [(0x77 : Byte)].getD i 0)) ∧
      (⟨[], [.ioError], [], 0⟩ : Env).ReplyFails .ioError [] ⟨[], [], [], 0⟩ ∧
      (⟨[], [.ok], [⟨[ev0], .timeout⟩], 0⟩ : Env).ReplyFails .timeout [ev0] ⟨[], [], [], 0⟩ ∧
      (⟨[], [.ok], [brings [zeros 17, wack]], 0⟩ : Env).ReplyFails .formatError [wack] ⟨[], [], [], 0⟩ :=
  ⟨rfl, ⟨rfl, rfl⟩, rfl, by decide, by decide, .unsent rfl, .received rfl .timeout,
    .received rfl (.invalid (why := .checksum 0) rfl rfl)⟩

theorem test_meets_MapWriteRejectsBadRange :
    ([] : List (Byte × Byte)).length = 0 ∧
      10 < ((List.range 11).map fun i => (BitVec.ofNat 8 i, (0 : Byte))).length ∧
      ¬ ([((0x10 : Byte), (1 : Byte)), (0x10, 2)].map Prod.fst).Nodup ∧
      ∃ p ∈ [((0x10 : Byte), (1 : Byte)), (0x12, 1)], ∃ q ∈ [((0x10 : Byte), (1 : Byte)), (0x12, 1)], ∃ x : Nat,
        p.1.toNat < x ∧ x < q.1.toNat ∧ ∀ r ∈ [((0x10 : Byte), (1 : Byte)), (0x12, 1)], r.1.toNat ≠ x :=
  ⟨rfl, by decide +kernel, by decide, (0x10, 1), by decide, (0x12, 1), by decide, 0x11, by decide, by decide,
    fun r hr => by simp at hr; rcases hr with rfl | rfl <;> decide⟩

theorem test_meets_MapWriteFrame :
    (∃ t, exec (.mapWrite [(0xC8, 0x77)]) (linked [wack]) = .next t ∧ t.result = some ⟨.ok, .none⟩) ∧
      (∃ t, exec (.mapWrite [(0xC8, 0x77)]) fresh = .next t ∧ t.result = some ⟨.notConnected, .none⟩) ∧
      0xC7 ∉ [((0xC8 : Byte), (0x77 : Byte))].map (fun p => p.1.toNat) :=
  ⟨next_of_answer (by decide +kernel), next_of_answer (by decide), by decide⟩

/-- Twenty windows answered; nineteen, and a twentieth reply that echoes the first window. -/
theorem test_meets_BulkReadCompletes :
    bulk.sess = .connected ∧ bulkReplies.length = 20 ∧
      WindowsAnswered bulk.cfg bulk.rxq bulk.env bulkReplies [] ⟨[], [], [], 0⟩ ∧
      (bulkReplies.take 19).length < 20 ∧
      (arriving [(bulkReplies.getD 0 (frameOf ev0)).toBytes] 1).Answers bulk.cfg bulk.cfg.params.cmdMemread
        (bulkReplies.getD 0 (frameOf ev0)) [] ⟨[], [], [], 0⟩ ∧
      ¬ EchoesWindow (bulkReplies.take 19).length (bulkReplies.getD 0 (frameOf ev0)) :=
  ⟨rfl, rfl, by
      have h := windows_answered 20 (Nat.le_refl _) [] []
      rw [List.append_nil, List.append_nil, List.take_of_length_le (by decide)] at h
      exact h,
    by decide, arriving_answers (skip := []) [] (by decide) nofun (by decide +kernel) (by decide +kernel),
    fun h => absurd h.1 (by decide +kernel)⟩

theorem test_meets_BulkReadWindows :
    (∃ t, exec .mapBulkRead bulk = .next t ∧ t.result = some ⟨.ok, .none⟩) ∧
      ∃ t, exec .mapBulkRead fresh = .next t ∧ t.result = some ⟨.notConnected, .none⟩ :=
  ⟨next_of_answer (by decide +kernel), next_of_answer (by decide)⟩

/-- Cells at the addresses of `image`, and a flag cell that is no boolean. -/
theorem test_meets_ByteAndFlagGetterRules :
    (∀ f ∈ [SettingField.lodMm, .debounce, .ledBright, .breatheSpeed],
      (Memory.read image (fresh.cfg.params.addr f).toNat).isSome = true) ∧
      (∀ f ∈ [SettingField.lodRipple, .motionSync, .angleSnap, .ledEnabled],
        Memory.read image (fresh.cfg.params.addr f).toNat = some 1 ∧
          Memory.read [((fresh.cfg.params.addr f).toNat, (2 : Byte))] (fresh.cfg.params.addr f).toNat = some 2) := by
  decide +kernel

theorem test_meets_CodedGetterRules :
    [SettingField.poll, .dpiIdx, .ledEffect, .autosleep].all (fun f =>
        (Memory.read image (fresh.cfg.params.addr f).toNat).isSome) = true ∧
      fresh.cfg.params.pollCode .hz1000 = 1 ∧ (∀ r, (3 : Byte) ≠ fresh.cfg.params.pollCode r) ∧
      (3 : Byte).toNat ≤ 3 ∧ 3 < (4 : Byte).toNat ∧ fresh.cfg.params.effectCode .breathe = 2 ∧
      (∀ e, (3 : Byte) ≠ fresh.cfg.params.effectCode e) := by
  refine ⟨by decide +kernel, by decide, fun r => ?_, by decide, by decide, by decide, fun e => ?_⟩
  · cases r <;> decide
  · cases e <;> decide

theorem test_meets_ModeGetterRules :
    (1 : Byte).toNat = (1 : Fin 4).val ∧ (3 : Byte).toNat = (3 : Fin 4).val ∧
      HoldsRun image (fresh.cfg.params.addr (.dpi 1)).toNat [0x1F, 0x1F, 0] ∧
      HoldsRun [(0x38, (1 : Byte)), (0x39, 2), (0x3A, 0)] (fresh.cfg.params.addr (.dpi 3)).toNat [1, 2, 0] ∧
      HoldsRun image (fresh.cfg.params.addr (.color 0)).toNat [0x1A, 0x2B, 0x3C] ∧ 4 ≤ (4 : Byte).toNat := by
  unfold HoldsRun
  decide +kernel

theorem test_meets_GettersNeedPopulatedCells :
    (∀ g ∈ scalarGetters, Memory.read fresh.cache (fresh.cfg.params.addr g.2).toNat = none) ∧
      (∀ f ∈ [SettingField.dpi 3, .color 3], ∀ i, i < 3 →
        (∀ j, j < i → Memory.read ((List.range i).map fun j => ((fresh.cfg.params.addr f).toNat + j, (0 : Byte)))
          ((fresh.cfg.params.addr f).toNat + j) ≠ none) ∧
        Memory.read ((List.range i).map fun j => ((fresh.cfg.params.addr f).toNat + j, (0 : Byte)))
          ((fresh.cfg.params.addr f).toNat + i) = none) := by
  decide +kernel

theorem test_meets_NumberSettersComplete :
    (linked [wack]).sess = .connected ∧ (linked [wack]).RepliedBy wack [] [] [] ∧
      Frame.parse wack = .ok (frameOf wack) ∧ (255 : Word32).toNat = (255 : Byte).toNat ∧
      ((3 : Word32).toNat = (3 : Byte).toNat ∧ (3 : Word32).toNat ≤ 3) ∧
      (2550 : Word32).toNat = 10 * (255 : Byte).toNat := ⟨rfl, ⟨rfl, rfl⟩, rfl, rfl, by decide, rfl⟩

theorem test_meets_CodedSettersComplete :
    (linked [wack]).RepliedBy wack [] [] [] ∧ Frame.parse wack = .ok (frameOf wack) ∧
      ((1 : Word32).toNat = (1 : Byte).toNat ∧ (1 : Word32).toNat ≤ 1) ∧
      ((125 : Word32).toNat = pollHz .hz125 ∧ (1000 : Word32).toNat = pollHz .hz1000) ∧
      effectOfIndex (0 : Word32).toNat = some .off ∧ effectOfIndex (2 : Word32).toNat = some .breathe :=
  ⟨⟨rfl, rfl⟩, rfl, by decide, by decide, rfl, rfl⟩

theorem test_meets_ModeSettersComplete :
    (linked [wack]).RepliedBy wack [] [] [] ∧ Frame.parse wack = .ok (frameOf wack) ∧
      (3 : Byte).toNat = (3 : Fin 4).val ∧
      (50 ≤ (26000 : Word32).toNat ∧ (26000 : Word32).toNat ≤ 26000 ∧ (26000 : Word32).toNat % 50 = 0 ∧
        (7 : Byte).toNat = ((26000 : Word32).toNat / 50 - 1) % 256 ∧
        (0x88 : Byte).toNat = ((26000 : Word32).toNat / 50 - 1) / 256 * 68) ∧
      ((0 : Byte).toNat = ((50 : Word32).toNat / 50 - 1) % 256 ∧
        (0 : Byte).toNat = ((50 : Word32).toNat / 50 - 1) / 256 * 68) ∧
      IsHexText [0x23, 0x66, 0x66, 0x38, 0x30, 0x30, 0x30] [15, 15, 8, 0, 0, 0] ∧
      (0xFF : Byte).toNat = 16 * 15 + 15 ∧ (0x80 : Byte).toNat = 16 * 8 + 0 :=
  ⟨⟨rfl, rfl⟩, rfl, rfl, by decide, by decide, (isHexText_iff (by simp)).2 (by decide), rfl, rfl⟩

theorem test_meets_SettersRejectBeforeSending :
    255 < (256 : Word32).toNat ∧ 1 < (2 : Word32).toNat ∧ (126 : Word32).toNat ∉ [125, 250, 500, 1000] ∧
      3 < (4 : Word32).toNat ∧ 2 < (3 : Word32).toNat ∧ (605 : Word32).toNat % 10 ≠ 0 ∧
      2550 < (2560 : Word32).toNat ∧ 4 ≤ (4 : Byte).toNat ∧ (3 : Byte).toNat < 4 ∧ (49 : Word32).toNat < 50 ∧
      26000 < (26001 : Word32).toNat ∧
      (50 ≤ (75 : Word32).toNat ∧ (75 : Word32).toNat ≤ 26000 ∧ (75 : Word32).toNat % 50 ≠ 0) ∧
      codecEnc fresh.cfg (codecOf .poll) 125 [] = .ok [8] ∧ dpiEnc 26000 = .ok [7, 7, 0x88] ∧
      colorEnc [0x46, 0x46, 0x66, 0x66, 0x46, 0x46] = .ok [0xFF, 0xFF, 0xFF] := by decide

theorem test_meets_SetDpiThenGetDpi :
    ∃ t, exec (.setDpi 2 1600) (linked [ev1, wack]) = .next t ∧ t.result = some ⟨.ok, .none⟩ :=
  next_of_answer (by decide +kernel)

theorem test_meets_SettersTouchOnlyTheirField :
    ((fun v => Instr.setPoll v, SettingField.poll) ∈ scalarSetters ∧ SettingField.poll ≠ .dpiIdx) ∧
      (∃ t, exec (.setPoll 1000) (linked [wack]) = .next t ∧ t.result = some ⟨.ok, .none⟩) ∧
      ((3 : Byte).toNat = (3 : Fin 4).val ∧ SettingField.dpi 3 ≠ .color 3) ∧
      (∃ t, exec (.setDpi 3 800) (linked [wack]) = .next t ∧ t.result = some ⟨.ok, .none⟩) ∧
      ∃ t, exec (.setColor 3 [0x23, 0x66, 0x66, 0x38, 0x30, 0x30, 0x30]) (linked [wack]) = .next t ∧
        t.result = some ⟨.ok, .none⟩ :=
  ⟨⟨by simp [scalarSetters], by decide⟩, next_of_answer (by decide +kernel), by decide,
    next_of_answer (by decide +kernel), next_of_answer (by decide +kernel)⟩

theorem test_meets_OpenStartsSession :
    (linked []).sess = .connected ∧ fresh.sess = .disconnected ∧
      ({ fresh with env := ⟨[.ok], [], [], 0⟩ } : State).env.opens = .ok :: [] ∧
      ({ fresh with env := ⟨[.ioError], [], [], 0⟩ } : State).env.opens = .ioError :: [] := ⟨rfl, rfl, rfl, rfl⟩

theorem test_meets_CloseAndFlushRules : (linked []).sess = .connected ∧ fresh.sess = .disconnected := ⟨rfl, rfl⟩

/-- The exact echo behind as many discarded frames as MAX_DISCARD; an altered echo at once. -/
theorem test_meets_RestoreRule :
    (arriving (events.map Frame.toBytes ++ (restoreQFrame Config.tc).toBytes :: [ev1]) 4).Answers Config.tc
        Config.tc.params.cmdRestore (restoreQFrame Config.tc) [ev1] ⟨[], [], [], 0⟩ ∧
      (arriving ((frameOf badEcho).toBytes :: []) 1).Answers Config.tc Config.tc.params.cmdRestore (frameOf badEcho) []
        ⟨[], [], [], 0⟩ ∧
      frameOf badEcho ≠ restoreQFrame Config.tc ∧
      ∃ t, exec .restore (linked [restoreQ]) = .next t ∧ t.result = some ⟨.ok, .none⟩ :=
  ⟨arriving_answers [ev1] (by decide) (events_other (by decide)) rfl rfl,
    arriving_answers (skip := []) [] (by decide) nofun (by decide +kernel) (by decide +kernel), by decide +kernel,
    next_of_answer (by decide +kernel)⟩

/-- The known profile; then as many discarded frames as MAX_DISCARD. -/
theorem test_meets_GetProfileRule :
    (linked []).sess = .connected ∧ ({ linked [] with profile := some 5 } : State).profile = some 5 ∧
      (linked []).profile = none ∧
      (arriving (events.map Frame.toBytes ++ (frameOf profgetR).toBytes :: [ev1]) 4).Answers Config.tc
        Config.tc.params.cmdProfget (frameOf profgetR) [ev1] ⟨[], [], [], 0⟩ :=
  ⟨rfl, rfl, rfl, arriving_answers [ev1] (by decide) (events_other (by decide)) (by decide +kernel) (by decide +kernel)⟩

/-- The operations that await; a write that fails; a timeout behind MAX_DISCARD discarded frames, an empty delivery and an
invalid string at once; one frame more than MAX_DISCARD with the reply behind it; and the last window behind nineteen. -/
theorem test_meets_FilterLoopIsBounded :
    (linked []).sess = .connected ∧ (linked []).profile = none ∧
      [Instr.restore, .getProfile, .snapshot, .setProfile 2, .powerQuery, .powerQ, .restoreQ, .profgetQ, .profsetQ 2,
        .memreadQ 0xF6 10].all (fun i => (i.awaits Config.tc).isSome) = true ∧
      (Instr.memreadQ 0xF6 10).ArgsPass ∧
      (⟨[], [.ioError], [], 0⟩ : Env).AwaitFails Config.tc 0xB7 .ioError [] ⟨[], [], [], 0⟩ ∧
      (⟨[], [.ok], brings (events.map Frame.toBytes) :: [brings [], brings [], ⟨[ev0], .timeout⟩], 0⟩ : Env).AwaitFails
        Config.tc 0xB7 .timeout [ev0] ⟨[], [], [], 0⟩ ∧
      (⟨[], [.ok], [brings []], 0⟩ : Env).AwaitFails Config.tc 0xB7 .timeout [] ⟨[], [], [], 0⟩ ∧
      (⟨[], [.ok], [brings [zeros 17, profgetR]], 0⟩ : Env).AwaitFails Config.tc 0xB7 .formatError [profgetR]
        ⟨[], [], [], 0⟩ ∧
      (⟨[], [.ok], brings ((events ++ [frameOf ev0]).map Frame.toBytes ++ [profgetR]) ::
        (List.replicate 3 (brings []) ++ []), 0⟩ : Env).AwaitFails Config.tc 0xB7 .noMatch [profgetR] ⟨[], [], [], 0⟩ ∧
      WindowsAnswered Config.tc [] ⟨[], List.replicate 19 .ok ++ [.ok],
        (bulkReplies.take 19).map (fun f => brings [f.toBytes]) ++ [⟨[], .timeout⟩], 0⟩ (bulkReplies.take 19) []
        ⟨[], [.ok], [⟨[], .timeout⟩], 0⟩ ∧ (bulkReplies.take 19).length < 20 ∧
      (⟨[], [.ok], [⟨[], .timeout⟩], 0⟩ : Env).AwaitFails Config.tc Config.tc.params.cmdMemread .timeout []
        ⟨[], [], [], 0⟩ := by
  refine ⟨rfl, rfl, rfl, ⟨by decide, by decide, by decide⟩, .unsent rfl,
    .received rfl (skip := events) (by decide) (events_other (by decide)) (delivers_arrived ev0 [ev1, ev2] [] _) .timeout,
    .received rfl (skip := []) (by decide) nofun .nil .empty,
    .received rfl (skip := []) (by decide) nofun .nil (.invalid (why := .checksum 0) rfl rfl),
    .discarded rfl (skip := events ++ [frameOf ev0]) rfl (fun g hg => ?_)
      (delivers_arrived ev0 [ev1, ev2, ev0] [profgetR] []),
    windows_answered 19 (by decide) _ _, by decide, .received rfl (skip := []) (by decide) nofun .nil .timeout⟩
  rcases List.mem_append.1 hg with h | h
  · exact events_other (by decide) g h
  · exact events_other (by decide) g (List.mem_singleton.1 h ▸ by decide +kernel)

theorem test_meets_SetProfileRule :
    (arriving (events.map Frame.toBytes ++ (frameOf profsetR).toBytes :: []) 4).Answers Config.tc
        Config.tc.params.cmdProfset (frameOf profsetR) [] ⟨[], [], [], 0⟩ ∧
      (frameOf profsetR).byteAt fresh.cfg.params.profilePos = 2 ∧
      (frameOf profsetR).byteAt fresh.cfg.params.profilePos ≠ 1 :=
  ⟨arriving_answers [] (by decide) (events_other (by decide)) (by decide +kernel) (by decide +kernel), rfl,
    by decide +kernel⟩

theorem test_meets_PowerQueryRule :
    (arriving (events.map Frame.toBytes ++ (frameOf powerR).toBytes :: []) 4).Answers Config.tc
        Config.tc.params.cmdPower (frameOf powerR) [] ⟨[], [], [], 0⟩ ∧
      ((frameOf powerR).byteAt fresh.cfg.params.powerFlagPos).toNat ≤ 1 ∧
      (arriving ((frameOf badFlag).toBytes :: []) 1).Answers Config.tc Config.tc.params.cmdPower (frameOf badFlag) []
        ⟨[], [], [], 0⟩ ∧
      2 ≤ ((frameOf badFlag).byteAt fresh.cfg.params.powerFlagPos).toNat :=
  ⟨arriving_answers [] (by decide) (events_other (by decide)) (by decide +kernel) (by decide +kernel),
    by decide +kernel, arriving_answers (skip := []) [] (by decide) nofun (by decide +kernel) (by decide +kernel),
    by decide +kernel⟩

/-- A string that waited in the queue, and one that arrives at an empty queue; the three waits that fail. -/
theorem test_meets_RecvRule :
    (linked [ev1]).sess = .connected ∧ (linked [ev1]).env.recvs = ⟨[ev1], .deliver⟩ :: [] ∧
      (linked [ev1]).rxq ++ [ev1] = ev1 :: [] ∧
      ({ linked [ev1] with rxq := [ev2] } : State).rxq ++ [ev1] = ev2 :: [ev1] ∧
      Frame.parse ev2 = .ok (frameOf ev2) ∧
      classify Config.tc ev2 = .ok ⟨frameOf ev2, .event 2⟩ ∧
      classify Config.tc wack = .error ⟨.unsupportedDecode, .frame (frameOf wack)⟩ ∧
      ({ linked [] with env := ⟨[], [], [⟨[ev1], .timeout⟩], 0⟩ } : State).env.recvs = ⟨[ev1], .timeout⟩ :: [] ∧
      ({ linked [] with env := ⟨[], [], [⟨[ev1], .ioError⟩], 0⟩ } : State).env.recvs = ⟨[ev1], .ioError⟩ :: [] ∧
      (linked []).env.recvs = ⟨[], .deliver⟩ :: [] ∧ (linked []).rxq ++ [] = [] :=
  ⟨rfl, rfl, rfl, rfl, rfl, rfl, rfl, rfl, rfl, rfl, rfl⟩

theorem test_meets_SendEvtackRule :
    2 < (3 : Byte).toNat ∧ (2 : Byte).toNat ≤ 2 ∧ fresh.sess = .disconnected ∧
      (2 : Byte).toNat = (2 : Fin 3).val ∧ (linked []).sess = .connected ∧ (linked []).env.sends = .ok :: [] ∧
      ({ linked [] with env := ⟨[], [.ioError], [], 0⟩ } : State).env.sends = .ioError :: [] :=
  ⟨by decide, by decide, rfl, rfl, rfl, rfl, rfl⟩

/-- A state with cells, a sent frame and a setter at the port. -/
def busy : State :=
  { linked [wack] with
    cache := image, profile := some 1, tx := [powerQFrame Config.tc],
    inputs := [.op ⟨0x60, 0, 0, 1000, [], [], []⟩] }

/-- `image` with the given LED_ENABLED and LED_EFFECT cells. -/
def imageWith (enabled effect : Byte) : Memory := Memory.write (Memory.write image 0x12 enabled) 0x0E effect

/-- The value bytes of a field as a cache holds them. -/
def rawOf (m : Memory) (g : SettingField) : List Byte :=
  (List.range g.size).map fun i => (Memory.read m ((Params.tc.addr g).toNat + i)).getD 0

/-- A populated cache for each of the four LED cases; the fields decode, and the power reply does; the profile is known, or
its exchange and the power exchange behind it are answered. -/
theorem test_meets_SnapshotCompletes :
    (∀ m ∈ [imageWith 0 2, imageWith 1 0, imageWith 1 1, imageWith 1 2],
      (∀ g ∈ SettingField.all, (rawOf m g).length = g.size ∧
        ∀ i, i < (rawOf m g).length → Memory.read m ((fresh.cfg.params.addr g).toNat + i) = (rawOf m g)[i]?) ∧
      idxDec (rawOf m .dpiIdx) = .ok 1 ∧ pollDec Config.tc (rawOf m .poll) = .ok 1000 ∧
      byteDec (rawOf m .lodMm) = .ok 2 ∧ boolDec (rawOf m .lodRipple) = .ok true ∧
      boolDec (rawOf m .motionSync) = .ok true ∧ boolDec (rawOf m .angleSnap) = .ok true ∧
      sleepDec (rawOf m .autosleep) = .ok 600 ∧ byteDec (rawOf m .debounce) = .ok 8 ∧
      (∀ k : Fin 4, dpiDec (rawOf m (.dpi k)) = .ok (if k = 1 then 1600 else 50)) ∧
      (∀ k : Fin 4, ∃ b0 b1 b2, rawOf m (.color k) = [b0, b1, b2])) ∧
      [imageWith 0 2, imageWith 1 0, imageWith 1 1, imageWith 1 2].map
        (fun m => (boolDec (rawOf m .ledEnabled), effectDec Config.tc (rawOf m .ledEffect))) =
        [(.ok false, .ok .breathe), (.ok true, .ok .off), (.ok true, .ok .steady), (.ok true, .ok .breathe)] ∧
      byteDec (rawOf (imageWith 1 1) .ledBright) = .ok 200 ∧ byteDec (rawOf (imageWith 1 2) .breatheSpeed) = .ok 5 ∧
      decPower Config.tc (frameOf powerR) = .ok ⟨100, 4200, false⟩ ∧ busy.profile = some 1 ∧ (linked []).profile = none ∧
      (⟨[], [.ok, .ok], [brings [profgetR], brings [powerR]], 0⟩ : Env).Answers Config.tc Config.tc.params.cmdProfget
        (frameOf profgetR) [] ⟨[], [.ok], [brings [powerR]], 0⟩ ∧
      (⟨[], [.ok], [brings [powerR]], 0⟩ : Env).Answers Config.tc Config.tc.params.cmdPower (frameOf powerR) []
        ⟨[], [], [], 0⟩ := by
  refine ⟨?_, by decide +kernel, by decide +kernel, by decide +kernel, by decide +kernel, rfl, rfl,
    ⟨by decide +kernel, by decide +kernel, [], _, _, by decide, nofun, rfl, delivers_arrived profgetR [] [] _, rfl⟩,
    ⟨by decide +kernel, by decide +kernel, [], _, _, by decide, nofun, rfl, delivers_arrived powerR [] [] _, rfl⟩⟩
  intro m hm
  refine ⟨?_, ?_, ?_, ?_, ?_, ?_, ?_, ?_, ?_, ?_, fun k => ⟨_, _, _, rfl⟩⟩ <;> revert m <;> decide +kernel

/-- Every row that awaits, answered behind three events; MEMWRITE_Q answered and not; and the acknowledgements' writes. -/
theorem test_meets_RequestRowsSend :
    (linked []).sess = .connected ∧
      [(Instr.powerQ, powerR), (.restoreQ, restoreQ), (.profgetQ, profgetR), (.profsetQ 2, profsetR),
        (.memreadQ 0xF6 10, [0xA0, 0xB6, 0, 0, 0, 0x0A, 1, 0x54, 1, 0x54, 0, 0, 0, 0, 0, 0, 0x4B])].all
        (fun p => p.1.isRequest && decide ((p.1.awaits Config.tc).map Prod.snd = some (frameOf p.2).command) &&
          decide ((frameOf p.2).checksum = cksum (frameOf p.2).body)) = true ∧
      (Instr.memreadQ 0xF6 10).ArgsPass ∧
      (arriving (events.map Frame.toBytes ++ (frameOf powerR).toBytes :: []) 4).Answers Config.tc
        Config.tc.params.cmdPower (frameOf powerR) [] ⟨[], [], [], 0⟩ ∧
      (1 ≤ (zeros 10).length ∧ (zeros 10).length ≤ 10 ∧ (0xF6 : Byte).toNat + (zeros 10).length ≤ 256) ∧
      (linked [ev1]).RepliedBy ev1 [] [] [] ∧ Frame.parse ev1 = .ok (frameOf ev1) ∧
      (⟨[], [.ok], [⟨[ev0], .timeout⟩], 0⟩ : Env).ReplyFails .timeout [ev0] ⟨[], [], [], 0⟩ ∧
      (linked []).env.sends = .ok :: [] ∧
      ({ linked [] with env := ⟨[], [.ioError], [], 0⟩ } : State).env.sends = .ioError :: [] :=
  ⟨rfl, by decide +kernel, ⟨by decide, by decide, by decide⟩,
    arriving_answers [] (by decide) (events_other (by decide)) (by decide +kernel) (by decide +kernel), by decide,
    ⟨rfl, rfl⟩, rfl, .received rfl .timeout, rfl, rfl⟩

theorem test_meets_StepKeepsInv : busy.Inv ∧ ∃ t, step busy = .next t :=
  ⟨⟨by decide +kernel, by decide +kernel, by decide +kernel, by decide⟩, ⟨_, rfl⟩⟩

theorem test_meets_OperationsEndWithOneStatus :
    [Instr.cksum [], .mapBulkRead, .snapshot, .sendEvtack 3, .powerQ, .evtack2].all (fun i => !i.isArrival) = true := by
  decide

theorem test_meets_ConfigAndPortUntouched : ∃ t, exec (.setPoll 1000) busy = .next t := ⟨_, rfl⟩

theorem test_meets_PureOperationsOnlyAnswer :
    [Instr.cksum [], .frameEnc 0 [], .frameDec [], .encPowerQ, .encMemwrite 0 [], .encEvtack2, .classify [], .mapGet 0,
      .dpiEnc 0, .colorDec [], .sleepDec [], .getPoll, .getAutosleep, .getDpi 4, .getColor 0].all
        Instr.onlyAnswers = true := by decide

/-- Operations of each kind while disconnected; arguments at the ends of their ranges that pass, and such that do not. -/
theorem test_meets_TransportNeedsSession :
    ([Instr.flush, .mapWrite [], .mapBulkRead, .setPoll 0, .setColor 0 [], .restore, .getProfile, .setProfile 0,
      .powerQuery, .recv, .sendEvtack 0, .snapshot, .powerQ, .memreadQ 0 0, .evtack0].all
        Instr.usesTransport = true ∧ fresh.sess = .disconnected) ∧
      ((Instr.mapWrite [(0xFF, 1), (0xFE, 2)]).ArgsPass ∧ (Instr.sendEvtack 2).ArgsPass ∧ (Instr.setPoll 125).ArgsPass ∧
        (Instr.setLodMm 255).ArgsPass ∧ (Instr.setLodRipple 1).ArgsPass ∧ (Instr.setAutosleep 2550).ArgsPass ∧
        (Instr.setDpi 3 26000).ArgsPass ∧ (Instr.setColor 3 [0x46, 0x46, 0x66, 0x66, 0x46, 0x46]).ArgsPass ∧
        (Instr.memreadQ 0xF6 10).ArgsPass ∧ (Instr.memwriteQ 0xFF [1]).ArgsPass ∧ Instr.flush.ArgsPass) ∧
      (¬ (Instr.mapWrite [(0x10, 1), (0x12, 1)]).ArgsPass ∧ ¬ (Instr.sendEvtack 3).ArgsPass ∧
        ¬ (Instr.setPoll 126).ArgsPass ∧ ¬ (Instr.setLodMm 256).ArgsPass ∧ ¬ (Instr.setLodRipple 2).ArgsPass ∧
        ¬ (Instr.setAutosleep 605).ArgsPass ∧ ¬ (Instr.setDpi 3 26050).ArgsPass ∧ ¬ (Instr.setColor 4 []).ArgsPass ∧
        ¬ (Instr.memreadQ 0xF7 10).ArgsPass ∧ ¬ (Instr.memwriteQ 0xFF [1, 2]).ArgsPass) := by
  refine ⟨⟨by decide, rfl⟩,
    ⟨⟨by decide, by decide, by decide, fun p hp q hq x h1 h2 => ?_⟩, by unfold Instr.ArgsPass; decide,
      by unfold Instr.ArgsPass; decide, by unfold Instr.ArgsPass; decide, by unfold Instr.ArgsPass; decide,
      by unfold Instr.ArgsPass; decide, by unfold Instr.ArgsPass; decide,
      ⟨by decide, [15, 15, 15, 15, 15, 15], rfl, (isHexText_iff (by simp)).2 (by decide)⟩,
      by unfold Instr.ArgsPass; decide, by unfold Instr.ArgsPass; decide, trivial⟩,
    fun h => ?_, by unfold Instr.ArgsPass; decide, by unfold Instr.ArgsPass; decide, by unfold Instr.ArgsPass; decide,
    by unfold Instr.ArgsPass; decide, by unfold Instr.ArgsPass; decide, by unfold Instr.ArgsPass; decide,
    fun h => absurd h.1 (by decide), by unfold Instr.ArgsPass; decide, by unfold Instr.ArgsPass; decide⟩
  · simp only [List.mem_cons, List.not_mem_nil, or_false] at hp hq
    rcases hp with rfl | rfl <;> rcases hq with rfl | rfl <;> simp at h1 h2 <;> omega
  · obtain ⟨r, hr, hx⟩ := h.2.2.2 (0x10, 1) (by decide) (0x12, 1) (by decide) 0x11 (by decide) (by decide)
    simp only [List.mem_cons, List.not_mem_nil, or_false] at hr
    rcases hr with rfl | rfl <;> simp at hx

theorem test_meets_OnlyNamedOperationsWriteCache :
    (∃ t, exec .powerQuery busy = .next t) ∧ Instr.powerQuery.writesCache = false ∧
      (∃ t, exec .restore busy = .next t) ∧ (∃ t, exec (.setPoll 1000) busy = .next t) ∧ busy.valid 0 = true :=
  ⟨⟨_, rfl⟩, rfl, ⟨_, rfl⟩, ⟨_, rfl⟩, by decide +kernel⟩

theorem test_meets_SessionAndProfileWriters :
    (∃ t, exec .flush busy = .next t) ∧ Instr.flush.writesProfile = false ∧ busy.profile ≠ none :=
  ⟨⟨_, rfl⟩, rfl, by decide⟩

theorem test_meets_FailedOperationsKeepState :
    ∃ t, exec (.mapWrite []) busy = .next t ∧ t.Failed ∧ (Instr.mapWrite []).isArrival = false := by
  obtain ⟨t, ht, hr⟩ := next_of_answer (i := .mapWrite []) (s := busy) (r := ⟨.invalidRange, .nat 0⟩) (by decide +kernel)
  exact ⟨t, ht, ⟨_, hr, by decide⟩, rfl⟩

end Sys2Proof.Tests
end

/-! ## One step of the machine

What stands at the head of the port is fetched, and a decoded head is run (00_scope.md R10, 10_state.md R38). -/

namespace Sys2Proof.Machine

/-- The head of the port is taken, and the inputs behind it stay. -/
theorem fetchInput_of_cons {s : State} {x : Input} {rest : List Input} (h : s.inputs = x :: rest) :
    fetchInput s = some (x, { s with inputs := rest }) := by
  simp only [fetchInput, h]

/-- A step whose input decodes is the run of its instruction, from the state the fetch left. -/
theorem step_of_decode {s : State} {x : Input} {rest : List Input} {i : Instr} (h : s.inputs = x :: rest)
    (hd : decode s.cfg x = .ok i) : step s = exec i { s with inputs := rest } := by
  simp only [step, fetchInput_of_cons h, hd]

/-- Settles O4, by the fetch and the decoder's answer. -/
theorem stepRunsTheDecodedInstruction : Obligations.StepRunsTheDecodedInstruction :=
  fun _ _ _ _ => step_of_decode

end Sys2Proof.Machine

/-! ## The cells a setter may write

Every setter is the generic one of its field (42_register_map.md R200), and that one writes only the field's group and
its checksum cell, whatever the transport and the device do; the groups of two fields lie apart (00_scope.md R6(e)). -/

namespace Sys2Proof.Machine

/-- A one-byte setter is the generic setter of its field (42_register_map.md R230 to R241). -/
theorem exec_scalarSetter {mk : Word32 → Instr} {f : SettingField} (h : (mk, f) ∈ scalarSetters) (v : Word32)
    (s : State) : exec (mk v) s = .next (runOperation (noValue (setField s.cfg f v [])) s) := by
  fin_cases h <;> rfl

/-- SET_DPI of a mode that exists is the generic setter of the mode's DPI group (42_register_map.md R242). -/
theorem exec_setDpi_of_mode {a : Byte} {m : Fin 4} (h : a.toNat = m.val) (v : Word32) (s : State) :
    exec (.setDpi a v) s = .next (runOperation (noValue (setField s.cfg (.dpi m) v [])) s) := by
  change execSetDpi a v s = _
  rw [execSetDpi, modeArg_of_eq h]
  rfl

/-- SET_COLOR of a mode that exists is the generic setter of the mode's colour group (42_register_map.md R243). -/
theorem exec_setColor_of_mode {a : Byte} {m : Fin 4} (h : a.toNat = m.val) (text : List Ascii) (s : State) :
    exec (.setColor a text) s = .next (runOperation (noValue (setField s.cfg (.color m) 0 text)) s) := by
  change execSetColor a text s = _
  rw [execSetColor, modeArg_of_eq h]
  rfl

/-- Every cell outside a field's group and its checksum cell reads in `u` as in `s`. -/
def SameOutside (cfg : Config) (f : SettingField) (s u : State) : Prop :=
  ∀ b, b < (cfg.params.addr f).toNat ∨ (cfg.params.addr f).toNat + f.size < b →
    Memory.read u.cache b = Memory.read s.cache b

section
variable {cfg : Config} {f : SettingField}

theorem SameOutside.of_cache_eq {s u : State} (h : u.cache = s.cache) : SameOutside cfg f s u := fun b _ => by rw [h]

theorem SameOutside.trans (s u w : State) (h : SameOutside cfg f s u) (h' : SameOutside cfg f u w) :
    SameOutside cfg f s w := fun b hb => (h' b hb).trans (h b hb)

/-- The cells of another field, its checksum cell included, lie outside (00_scope.md R6(e)). -/
theorem SameOutside.read_other {s u : State} (h : SameOutside cfg f s u) {g : SettingField} (hne : f ≠ g) {j : Nat}
    (hj : j ≤ g.size) :
    Memory.read u.cache ((cfg.params.addr g).toNat + j) = Memory.read s.cache ((cfg.params.addr g).toNat + j) := by
  have hapart : (cfg.params.addr f).toNat + f.size < (cfg.params.addr g).toNat ∨
      (cfg.params.addr g).toNat + g.size < (cfg.params.addr f).toNat := fields_apart cfg hne
  exact h _ (by omega)

/-- However the generic setter ends, it writes no cell outside its field's group: only its one success writes at all, and
that the encoded bytes with their checksum (42_register_map.md R200). -/
theorem setField_keeps_sameOutside (v : Word32) (text : List Ascii) :
    (setField cfg f v text).Keeps (SameOutside cfg f) := by
  intro s
  obtain ⟨e, -, -, h⟩ | ⟨-, h⟩ | ⟨-, raw, env, rxq, -, hlen, h | ⟨e, -, h⟩⟩ := setField_cases cfg f v text s <;> rw [h]
  case inr.inr.inl =>
    intro b hb
    exact Memory.read_writeRun_outside _ _ _ _ (by simp only [List.length_append, List.length_singleton, hlen]; omega)
  all_goals exact .of_cache_eq rfl

/-- Nor does the whole operation: its start and its end write no cell. -/
theorem runOperation_setField_sameOutside (v : Word32) (text : List Ascii) (s : State) :
    SameOutside cfg f s (runOperation (noValue (setField cfg f v text)) s) :=
  runOperation_keeps (Op.keeps_bind SameOutside.trans (setField_keeps_sameOutside v text) fun _ =>
    Op.keeps_pure (fun _ => .of_cache_eq rfl) _) (fun _ _ _ _ h => h) s

end

/-- Settles O38: the setter is the generic one of its field, which writes no cell outside that field's group, and the
other field lies there. -/
theorem settersTouchOnlyTheirField : Obligations.SettersTouchOnlyTheirField := by
  intro s t f g i hi hne ht j hj
  have hgen : ∃ v text, exec i s = .next (runOperation (noValue (setField s.cfg f v text)) s) := by
    obtain ⟨v, ⟨mk, hmk, rfl⟩ | ⟨a, m, ha, rfl, rfl⟩⟩ | ⟨a, m, text, ha, rfl, rfl⟩ := hi
    · exact ⟨v, [], exec_scalarSetter hmk v s⟩
    · exact ⟨v, [], exec_setDpi_of_mode ha v s⟩
    · exact ⟨0, text, exec_setColor_of_mode ha text s⟩
  obtain ⟨v, text, hx⟩ := hgen
  rw [hx] at ht
  cases ht
  exact (runOperation_setField_sameOutside v text s).read_other hne hj

end Sys2Proof.Machine

/-! ## What a whole instruction writes

Every instruction but RESTORE, OPEN and CLOSE keeps what `Kept` says up to its end; these three write one named part of
such a state besides (10_state.md R23, R26, R27). -/

namespace Sys2Proof.Machine

/-- The end of an operation writes only the result port and the counters. -/
theorem Kept.ended {cfg : Config} {c p : Bool} {s u : State} (h : Kept cfg c p s u) (st : Status) (v : Value) :
    Kept cfg c p s (u.ended st v) :=
  ⟨h.cfgEq, h.inputs, h.tx, h.wf, h.cache, h.populated, h.profile, h.known, h.sess⟩

/-- Every instruction but RESTORE, OPEN and CLOSE keeps all but what its kind may write. -/
theorem exec_next_kept {i : Instr} {s t : State} (h1 : i ≠ .restore) (h2 : i ≠ .openSession) (h3 : i ≠ .closeSession)
    (h : exec i s = .next t) : Kept s.cfg i.writesCache i.writesProfile s t := by
  cases ha : i.isArrival with
  | true =>
    obtain ⟨f, hx⟩ := exec_of_isArrival ha s
    cases hx.symm.trans h
    exact Kept.of_receive s _ _ _ _
  | false =>
    obtain ⟨u, st, v, hx, hk⟩ := exec_kept s ha h1 h2 h3
    cases hx.symm.trans h
    exact hk.ended st v

/-- RESTORE clears the cache, or not, and writes nothing else that `Kept` names (44_session.md R296). -/
theorem exec_restore_next {s t : State} (h : exec .restore s = .next t) :
    ∃ u, Kept s.cfg false false s u ∧ (t = u ∨ t = { u with cache := [] }) := by
  obtain ⟨u, st, v, hx, hu⟩ := execRestore_cases s
  cases hx.symm.trans h
  obtain ⟨-, rfl⟩ | ⟨env, rxq, ⟨-, rfl⟩ | ⟨-, rfl⟩⟩ := hu
  · exact ⟨_, (Kept.refl _).ended st v, .inl rfl⟩
  · exact ⟨_, (Kept.of_sent s (builtFrame_build _ _ _) rxq env 0 0).ended st v, .inr rfl⟩
  · exact ⟨_, (Kept.of_sent s (builtFrame_build _ _ _) rxq env 0 0).ended st v, .inl rfl⟩

/-- OPEN makes its partial reset, or not, and writes nothing else that `Kept` names (44_session.md R300). -/
theorem exec_openSession_next {s t : State} (h : exec .openSession s = .next t) :
    ∃ u, Kept s.cfg false false s u ∧
      (t = u ∨ t = { u with sess := .connected, profile := none, cache := [] }) := by
  obtain ⟨u, st, v, hx, hu⟩ := execOpenSession_cases s
  cases hx.symm.trans h
  obtain ⟨-, rfl⟩ | ⟨env, ⟨-, rfl⟩ | ⟨-, rfl⟩⟩ := hu
  · exact ⟨_, (Kept.refl _).ended st v, .inl rfl⟩
  · exact ⟨_, (Kept.of_receive s [] env 0 0).ended st v, .inr rfl⟩
  · exact ⟨_, (Kept.of_receive s s.rxq env 0 0).ended st v, .inl rfl⟩

/-- CLOSE ends the session and writes nothing else that `Kept` names (44_session.md R301). -/
theorem exec_closeSession_next {s t : State} (h : exec .closeSession s = .next t) :
    ∃ u, Kept s.cfg false false s u ∧ t = { u with sess := .disconnected } := by
  cases h
  exact ⟨_, (Kept.refl s).ended .ok .none, rfl⟩

/-- Everything an instruction can write: what its kind may, or what RESTORE, OPEN and CLOSE write besides. -/
theorem exec_next_cases {i : Instr} {s t : State} (h : exec i s = .next t) :
    (i ≠ .restore ∧ i ≠ .openSession ∧ Kept s.cfg i.writesCache i.writesProfile s t) ∨
      ∃ u, Kept s.cfg false false s u ∧
        ((i = .restore ∧ (t = u ∨ t = { u with cache := [] })) ∨
          (i = .openSession ∧ (t = u ∨ t = { u with sess := .connected, profile := none, cache := [] })) ∨
          (i = .closeSession ∧ t = { u with sess := .disconnected })) := by
  by_cases h1 : i = .restore
  · subst h1
    exact .inr ((exec_restore_next h).imp fun _ hu => ⟨hu.1, .inl ⟨rfl, hu.2⟩⟩)
  by_cases h2 : i = .openSession
  · subst h2
    exact .inr ((exec_openSession_next h).imp fun _ hu => ⟨hu.1, .inr (.inl ⟨rfl, hu.2⟩)⟩)
  by_cases h3 : i = .closeSession
  · subst h3
    exact .inr ((exec_closeSession_next h).imp fun _ hu => ⟨hu.1, .inr (.inr ⟨rfl, hu.2⟩)⟩)
  exact .inl ⟨h1, h2, exec_next_kept h1 h2 h3 h⟩

/-- Settles O55: neither `Kept` nor what RESTORE, OPEN and CLOSE write besides touches the configuration, the port or
the frames already sent. -/
theorem configAndPortUntouched : Obligations.ConfigAndPortUntouched := by
  intro i s t h
  obtain ⟨-, -, hk⟩ | ⟨u, hk, ⟨-, rfl | rfl⟩ | ⟨-, rfl | rfl⟩ | ⟨-, rfl⟩⟩ := exec_next_cases h <;>
    exact ⟨hk.cfgEq, hk.inputs, hk.tx.imp fun _ htx => htx.1⟩

/-- Settles O58: `Kept` gives the cache of every instruction but RESTORE and OPEN, and these two keep it or empty it. -/
theorem onlyNamedOperationsWriteCache : Obligations.OnlyNamedOperationsWriteCache := by
  intro i s t h
  obtain ⟨h1, h2, hk⟩ | ⟨u, hk, ⟨rfl, rfl | rfl⟩ | ⟨rfl, rfl | rfl⟩ | ⟨rfl, rfl⟩⟩ := exec_next_cases h
  case inl => exact ⟨hk.cache, fun hi => (hi.elim h1 h2).elim, fun _ _ => hk.populated⟩
  case inr.inl.inl => exact ⟨nofun, fun _ => .inl (hk.cache rfl), fun hne => absurd rfl hne⟩
  case inr.inl.inr => exact ⟨nofun, fun _ => .inr rfl, fun hne => absurd rfl hne⟩
  case inr.inr.inl.inl => exact ⟨nofun, fun _ => .inl (hk.cache rfl), fun _ hne => absurd rfl hne⟩
  case inr.inr.inl.inr => exact ⟨nofun, fun _ => .inr rfl, fun _ hne => absurd rfl hne⟩
  case inr.inr.inr => exact ⟨fun _ => hk.cache rfl, nofun, fun _ _ => hk.populated⟩

/-- Settles O59: `Kept` gives the session and the profile of every instruction but OPEN, which may write both, and CLOSE,
which writes the session. -/
theorem sessionAndProfileWriters : Obligations.SessionAndProfileWriters := by
  intro i s t h
  obtain ⟨-, -, hk⟩ | ⟨u, hk, ⟨rfl, rfl | rfl⟩ | ⟨rfl, -⟩ | ⟨rfl, rfl⟩⟩ := exec_next_cases h
  case inl => exact ⟨fun _ _ => hk.sess, hk.profile, fun _ => hk.known⟩
  case inr.inl.inl | inr.inl.inr => exact ⟨fun _ _ => hk.sess, fun _ => hk.profile rfl, fun _ => hk.known⟩
  case inr.inr.inl => exact ⟨fun hne => absurd rfl hne, nofun, fun hne => absurd rfl hne⟩
  case inr.inr.inr => exact ⟨fun _ hne => absurd rfl hne, fun _ => hk.profile rfl, fun _ => hk.known⟩

end Sys2Proof.Machine

/-! ## Setting a DPI and reading it back

A setter that ends with OK has stored its encoded value and the checksum of it (42_register_map.md R200), and DPI_DEC
undoes DPI_ENC (43_value_codecs.md R250, R251). -/

namespace Sys2Proof.Machine

/-- The first cells of a run. -/
theorem HoldsRun.left {m : Memory} {a : Nat} {as bs : List Byte} (h : HoldsRun m a (as ++ bs)) : HoldsRun m a as :=
  fun i hi => by rw [h i (by simp; omega), List.getElem?_append_left hi]

/-- What DPI_ENC accepts and how it packs it: two equal bytes, and 68 times the high part (43_value_codecs.md R250). -/
theorem dpiEnc_eq_ok {v : Word32} {raw : List Byte} (h : dpiEnc v = .ok raw) :
    50 ≤ v.toNat ∧ v.toNat ≤ 26000 ∧ v.toNat % 50 = 0 ∧ ∃ lo p : Byte, raw = [lo, lo, p] ∧
      lo.toNat = (v.toNat / 50 - 1) % 256 ∧ p.toNat = (v.toNat / 50 - 1) / 256 * 68 := by
  by_cases hr : v.toNat < 50 ∨ 26000 < v.toNat
  · rw [dpiEnc_of_range hr] at h
    cases h
  by_cases hm : v.toNat % 50 = 0
  swap
  · rw [dpiEnc_of_misaligned hr hm] at h
    cases h
  have hl : (BitVec.ofNat 8 ((v.toNat / 50 - 1) % 256)).toNat = (v.toNat / 50 - 1) % 256 := by simp
  have hp : (BitVec.ofNat 8 ((v.toNat / 50 - 1) / 256 * 68)).toNat = (v.toNat / 50 - 1) / 256 * 68 := by
    rw [BitVec.toNat_ofNat]
    omega
  rw [dpiEnc_of_valid hr hm hl hp] at h
  cases h
  exact ⟨by omega, by omega, hm, _, _, rfl, hl, hp⟩

/-- DPI_DEC undoes DPI_ENC (43_value_codecs.md R267). -/
theorem dpiDec_of_dpiEnc {v : Word32} {raw : List Byte} (h : dpiEnc v = .ok raw) : dpiDec raw = .ok v.toNat := by
  obtain ⟨h50, hmax, hmod, lo, p, rfl, hlo, hp⟩ := dpiEnc_eq_ok h
  rw [dpiDec_of_valid ⟨rfl, by omega, by omega⟩]
  congr 1
  omega

/-- A generic setter that ends with OK had its value encoded, and the field's cells hold the bytes and their checksum
(42_register_map.md R200). -/
theorem setField_ok_stored {cfg : Config} {f : SettingField} {v : Word32} {text : List Ascii} {s t : State} {x : Value}
    (h : runOperation (noValue (setField cfg f v text)) s = t) (hr : t.result = some ⟨.ok, x⟩) :
    ∃ raw, codecEnc cfg (codecOf f) v text = .ok raw ∧ raw.length = f.size ∧
      HoldsRun t.cache (cfg.params.addr f).toNat (raw ++ [Sys2Proof.cksum raw]) := by
  subst h
  have hraised : ∀ e u, setField cfg f v text (beginOperation s) = .raised e u → e.status = .ok := by
    intro e u hx
    rw [runOperation_of_raised (noValue_of_raised hx), State.ended_result] at hr
    exact congrArg Result.status (Option.some.inj hr)
  obtain ⟨e, -, he, hx⟩ | ⟨-, hx⟩ | ⟨-, raw, env, rxq, henc, hlen, hx | ⟨e, he, hx⟩⟩ :=
    setField_cases cfg f v text (beginOperation s)
  · simp [hraised _ _ hx] at he
  · cases hraised _ _ hx
  · refine ⟨raw, henc, hlen, ?_⟩
    rw [runOperation_of_done (noValue_of_done hx)]
    exact holdsRun_writeRun _ _ _
  · simp [hraised _ _ hx, recvErrors] at he

/-- SET_DPI that ends with OK was given a mode that exists (42_register_map.md R242). -/
theorem setDpi_ok_mode {a : Byte} {v : Word32} {s t : State} {x : Value} (h : exec (.setDpi a v) s = .next t)
    (hr : t.result = some ⟨.ok, x⟩) : ∃ m : Fin 4, a.toNat = m.val := by
  by_contra hm
  have ha : 4 ≤ a.toNat := Nat.le_of_not_lt fun hlt => hm ⟨⟨a.toNat, hlt⟩, rfl⟩
  have hx : exec (.setDpi a v) s = .next (s.ended .invalidValue (.nat a.toNat)) := by
    change execSetDpi a v s = _
    rw [execSetDpi, modeArg_of_four_le ha]
    rfl
  cases hx.symm.trans h
  cases hr

/-- GET_DPI of a mode whose group holds a packed DPI answers its value (42_register_map.md R222). -/
theorem exec_getDpi_of_holds {a : Byte} {m : Fin 4} {s : State} {raw : List Byte} {d : Nat} (ha : a.toNat = m.val)
    (hl : raw.length = 3) (hh : HoldsRun s.cache (s.cfg.params.addr (.dpi m)).toNat raw) (hd : dpiDec raw = .ok d) :
    exec (.getDpi a) s = .next (s.ended .ok (.nat d)) := by
  change execGetDpi a s = _
  have hget : getField s.cfg (.dpi m) (beginOperation s) = .done (.nat d) (beginOperation s) := by
    rw [getField_of_holds (s := beginOperation s) hl hh, codecOf, codecDec, hd]
    rfl
  rw [execGetDpi, modeArg_of_eq ha]
  exact congrArg _ (runOperation_of_done (u := beginOperation s) hget)

/-- Settles O37: the setter's one success stored the packed value with its checksum, and the getter unpacks these cells. -/
theorem setDpiThenGetDpi : Obligations.SetDpiThenGetDpi := by
  intro s t a v h hr
  obtain ⟨m, ha⟩ := setDpi_ok_mode h hr
  have hcfg : t.cfg = s.cfg := (configAndPortUntouched _ s t h).1
  rw [exec_setDpi_of_mode ha] at h
  obtain ⟨raw, henc, hlen, hh⟩ := setField_ok_stored (Host.Outcome.next.inj h) hr
  have hdec := dpiDec_of_dpiEnc henc
  obtain ⟨-, -, -, lo, p, rfl, -, -⟩ := dpiEnc_eq_ok henc
  rw [← hcfg] at hh
  refine ⟨exec_getDpi_of_holds ha hlen hh.left hdec, fun m' ha' => ?_⟩
  obtain rfl : m' = m := Fin.ext (ha'.symm.trans ha)
  refine ⟨lo, lo, p, _, hh, ?_⟩
  have hsum := cksum_add_byteSum [lo, lo, p]
  simp only [byteSum_cons, byteSum_nil] at hsum
  omega

end Sys2Proof.Machine

/-! ## A string the device appends

A valid frame is one of the received rows, each of which appends the frame's own bytes; any other string is appended as
it is (10_state.md R33, 60_exceptions.md R346; log entries 8, 10, 11). -/

namespace Sys2Proof.Machine

/-- A step whose input the decoder rejects is what `rejectInput` makes of it, from the state the fetch left. -/
theorem step_of_reject {s : State} {x : Input} {rest : List Input} {why : Reject} (h : s.inputs = x :: rest)
    (hd : decode s.cfg x = .error why) : step s = rejectInput why x { s with inputs := rest } := by
  simp only [step, fetchInput_of_cons h, hd]

/-- The row of a valid received frame appends that frame, whichever row it is (30_encoding.md R92). -/
theorem exec_arrivalOf {s : State} {f : Frame} (hf : f.checksum = Sys2Proof.cksum f.body) :
    exec (arrivalOf s.cfg f) s = .next (deviceAppends [f.toBytes] s) := by
  obtain ⟨header, command, data, rfl⟩ : ∃ h c d, f = .seal h c d := ⟨_, _, _, f.eq_seal hf⟩
  dsimp only [arrivalOf, Frame.seal]
  split_ifs with hpower hrestore hprofget hprofset hevent0 hevent1 hevent2 hmemread hstatus
  · rw [hpower]; rfl
  · rw [hrestore.2]; rfl
  · rw [hprofget]; rfl
  · rw [hprofset]; rfl
  · rw [hevent0.1]; rfl
  · rw [hevent1.1]; rfl
  · rw [hevent2.1]; rfl
  · rw [hmemread]; rfl
  · rw [hstatus]; rfl
  · rfl

/-- Settles O6: whether the string parses decides only whether an arrival row or the rejected input appends it. -/
theorem deviceStringOnlyEntersQueue : Obligations.DeviceStringOnlyEntersQueue := by
  intro s b rest h
  cases hp : Frame.parse b with
  | ok f =>
    obtain ⟨rfl, hf⟩ := (Frame.parse_eq_ok b f).1 hp
    have hd : decode s.cfg (.rx f.toBytes) = .ok (arrivalOf s.cfg f) := by simp only [decode, decodeRx, hp]
    rw [step_of_decode h hd]
    exact exec_arrivalOf (s := { s with inputs := rest }) hf
  | error why =>
    have hd : decode s.cfg (.rx b) = .error (.notFrame why) := by simp only [decode, decodeRx, hp]
    rw [step_of_reject h hd]
    rfl

end Sys2Proof.Machine

/-! ## The invariant

A step is idle, runs an instruction, or rejects its input. What the last two write is `Kept`, up to the cache emptied and
the session and the profile rewritten: so the cache stays canonical (20_memory.md R60), and only frames the block built
are sent (40_frame_codec.md R132). The end of an operation puts the counters back to 0 (log entry 13). -/

namespace Sys2Proof.Machine

/-- A block with nothing at its port waits (log entry 8). -/
theorem step_of_idle {s : State} (h : s.inputs = []) : step s = .next s := by
  simp only [step, fetchInput, h]

/-- An operation or request row ends: some state with its result at the port and the counters 0. -/
theorem exec_ended {i : Instr} (ha : i.isArrival = false) (s : State) :
    ∃ u st v, exec i s = .next (State.ended u st v) := by
  by_cases h1 : i = .restore
  · obtain ⟨u, st, v, hx, -⟩ := execRestore_cases s
    exact ⟨u, st, v, h1 ▸ hx⟩
  by_cases h2 : i = .openSession
  · obtain ⟨u, st, v, hx, -⟩ := execOpenSession_cases s
    exact ⟨u, st, v, h2 ▸ hx⟩
  by_cases h3 : i = .closeSession
  · exact ⟨{ s with sess := .disconnected }, .ok, .none, h3 ▸ rfl⟩
  obtain ⟨u, st, v, hx, -⟩ := exec_kept s ha h1 h2 h3
  exact ⟨u, st, v, hx⟩

/-- The counters are 0 after an instruction where they were before it: an arrival does not touch them, and every other
instruction ends (10_state.md R38). -/
theorem exec_counters {i : Instr} {s t : State} (hs : s.seqK = 0 ∧ s.seqD = 0) (h : exec i s = .next t) :
    t.seqK = 0 ∧ t.seqD = 0 := by
  cases ha : i.isArrival with
  | true =>
    obtain ⟨f, hx⟩ := exec_of_isArrival ha s
    cases hx.symm.trans h
    exact hs
  | false =>
    obtain ⟨u, st, v, hx⟩ := exec_ended ha s
    cases hx.symm.trans h
    exact ⟨rfl, rfl⟩

/-- A rejected input that does not stop the machine ends as an IllegalOp or enters the RX queue (30_encoding.md R100,
10_state.md R33). -/
theorem rejectInput_next_cases {why : Reject} {x : Input} {s t : State} (h : rejectInput why x s = .next t) :
    (∃ v, t = s.ended .illegalOp v) ∨ ∃ b, t = deviceAppends [b] s := by
  cases why with
  | illegalOp op =>
    cases h
    exact .inl ⟨.byte op, rfl⟩
  | recordTooLong n => cases h
  | notRequest => cases h
  | notFrame r =>
    cases x with
    | rx b =>
      cases h
      exact .inr ⟨b, rfl⟩
    | tx b => cases h
    | op r => cases h

namespace State.Inv

variable {s u : State}

/-- Every frame in the history is one the block built. -/
theorem builtFrame (hi : s.Inv) {f : Frame} (hf : f ∈ s.tx) : BuiltFrame s.cfg f :=
  ⟨hi.tx_header f hf, hi.tx_checksum f hf⟩

/-- The invariant speaks of neither the port, nor the session, nor the profile. -/
theorem of_fields_eq (hi : s.Inv) (hcache : u.cache = s.cache) (htx : u.tx = s.tx) (hcfg : u.cfg = s.cfg)
    (hk : u.seqK = s.seqK) (hd : u.seqD = s.seqD) : u.Inv :=
  ⟨by rw [hcache]; exact hi.cache_wf, by rw [htx, hcfg]; exact hi.tx_header, by rw [htx]; exact hi.tx_checksum,
    by rw [hk, hd]; exact hi.counters⟩

/-- The invariant outlives the emptying of the cache. -/
theorem cache_cleared (hi : s.Inv) : State.Inv { s with cache := [] } :=
  ⟨rfl, hi.tx_header, hi.tx_checksum, hi.counters⟩

/-- What `Kept` allows keeps the invariant where the counters are 0 afterwards. -/
theorem of_kept {c p : Bool} (hi : s.Inv) (h : Kept s.cfg c p s u) (hc : u.seqK = 0 ∧ u.seqD = 0) : u.Inv := by
  obtain ⟨sent, htx, hsent⟩ := h.tx
  have hbuilt : ∀ f ∈ u.tx, BuiltFrame u.cfg f := by
    intro f hf
    rw [htx, List.mem_append] at hf
    rw [h.cfgEq]
    exact hf.elim hi.builtFrame (hsent f)
  exact ⟨h.wf hi.cache_wf, fun f hf => (hbuilt f hf).1, fun f hf => (hbuilt f hf).2, hc⟩

/-- Every instruction keeps the invariant. -/
theorem of_exec {i : Instr} {t : State} (hi : s.Inv) (h : exec i s = .next t) : t.Inv := by
  have hc := exec_counters hi.counters h
  obtain ⟨-, -, hk⟩ | ⟨u, hk, ⟨-, rfl | rfl⟩ | ⟨-, rfl | rfl⟩ | ⟨-, rfl⟩⟩ := exec_next_cases h
  case inl => exact hi.of_kept hk hc
  case inr.inl.inl | inr.inr.inl.inl => exact hi.of_kept hk hc
  case inr.inl.inr => exact (hi.of_kept hk hc).cache_cleared
  case inr.inr.inl.inr => exact (hi.of_kept hk hc).cache_cleared.of_fields_eq rfl rfl rfl rfl rfl
  case inr.inr.inr => exact (hi.of_kept hk hc).of_fields_eq rfl rfl rfl rfl rfl

/-- So does every input the decoder rejects. -/
theorem of_rejectInput {why : Reject} {x : Input} {t : State} (hi : s.Inv)
    (h : rejectInput why x s = .next t) : t.Inv := by
  obtain ⟨v, rfl⟩ | ⟨b, rfl⟩ := rejectInput_next_cases h
  · exact hi.of_kept ((Kept.refl (c := false) (p := false) s).ended _ v) ⟨rfl, rfl⟩
  · exact hi.of_fields_eq rfl rfl rfl rfl rfl

end State.Inv

/-- Settles O53, by what stands at the port: nothing, an input that decodes, or one that does not. -/
theorem stepKeepsInv : Obligations.StepKeepsInv := by
  intro s t hi h
  cases hin : s.inputs with
  | nil =>
    cases (step_of_idle hin).symm.trans h
    exact hi
  | cons x rest =>
    have hfetched : State.Inv { s with inputs := rest } := hi.of_fields_eq rfl rfl rfl rfl rfl
    cases hd : decode s.cfg x with
    | ok i => exact hfetched.of_exec ((step_of_decode hin hd).symm.trans h)
    | error why => exact hfetched.of_rejectInput ((step_of_reject hin hd).symm.trans h)

end Sys2Proof.Machine

/-! ## The decoder on what the encoder writes

The encoder writes a host operation as a record, a request as a sent frame and an arrival as a received one; each of the
three is read back on its own path (30_encoding.md R92, R97). -/

namespace Sys2Proof

/-- A record that fits the port is the operation its op byte selects (30_encoding.md R97). -/
theorem decode_op_of_decodeOp {cfg : Config} {r : OpRecord} {i : Instr} (hl : r.bytes.length ≤ 255)
    (h : decodeOp r = some i) : decode cfg (.op r) = .ok i := by
  simp only [decode, hl, ↓reduceIte, h]

/-- The op byte and the fields the encoder writes select the operation they were written for (30_encoding.md R97). -/
theorem decodeOp_of_encode {cfg : Config} {i : Instr} {r : OpRecord} (h : encode cfg i = .op r) :
    decodeOp r = some i := by
  cases i <;> cases h <;> rfl

/-- The encoder writes one frame for a request row, and it is sent (30_encoding.md R92). -/
theorem encode_of_requestFrame {cfg : Config} {i : Instr} {f : Frame} (h : requestFrame cfg i = some f) :
    encode cfg i = .tx f.toBytes := by
  cases i <;> cases h <;> rfl

/-- The encoder writes one frame for a received row, and it is received (30_encoding.md R92). -/
theorem encode_of_arrivalFrame {cfg : Config} {i : Instr} {f : Frame} (h : arrivalFrame cfg i = some f) :
    encode cfg i = .rx f.toBytes := by
  cases i <;> cases h <;> rfl

theorem isRequest_of_requestFrame {cfg : Config} {i : Instr} {f : Frame} (h : requestFrame cfg i = some f) :
    i.isRequest = true := by
  cases i <;> cases h <;> rfl

theorem isArrival_of_arrivalFrame {cfg : Config} {i : Instr} {f : Frame} (h : arrivalFrame cfg i = some f) :
    i.isArrival = true := by
  cases i <;> cases h <;> rfl

/-- Every instruction is a record, a request frame or a received frame. -/
theorem encode_cases (cfg : Config) (i : Instr) :
    (∃ r, encode cfg i = .op r) ∨ (∃ f, requestFrame cfg i = some f) ∨ ∃ f, arrivalFrame cfg i = some f := by
  cases hx : encode cfg i with
  | op r => exact .inl ⟨r, rfl⟩
  | tx b => exact .inr (.inl (by cases i <;> cases hx <;> exact ⟨_, rfl⟩))
  | rx b => exact .inr (.inr (by cases i <;> cases hx <;> exact ⟨_, rfl⟩))


/-! ## The rows of the link -/

/-- No two command bytes are equal (00_scope.md R6(a)), said in both directions so that it rewrites either way. -/
theorem Config.commands_apart (cfg : Config) : cfg.params.commands.Pairwise fun a b => a ≠ b ∧ b ≠ a :=
  cfg.ok.1.imp fun h => ⟨h, h.symm⟩

/-- No two event selectors are equal (00_scope.md R6(b)), said in both directions. -/
theorem Config.selectors_apart (cfg : Config) :
    [cfg.params.evtSel0, cfg.params.evtSel1, cfg.params.evtSel2].Pairwise fun a b => a ≠ b ∧ b ≠ a :=
  cfg.ok.2.1.imp fun h => ⟨h, h.symm⟩

theorem memSpanWf_iff (a : Byte) (n : Nat) : memSpanWf a n = true ↔ 1 ≤ n ∧ n ≤ 10 ∧ a.toNat + n ≤ 256 := by
  simp [memSpanWf, and_assoc]

/-- What keeps a received frame out of the rows narrower than MEMWRITE_R (30_encoding.md R92; log entry 10). -/
theorem memwriteReplyWf_iff (p : Params) (header command : Byte) (data : FrameData) :
    memwriteReplyWf p header command data = true ↔
      command ∉ [p.cmdPower, p.cmdMemread, p.cmdProfget, p.cmdProfset, p.cmdStatus] ∧
      ¬ (command = p.cmdRestore ∧ header = p.header ∧ data.bytes.all (· == 0) = true) ∧
      ¬ (command = p.cmdEvent ∧ data.selector ∈ [p.evtSel0, p.evtSel1, p.evtSel2]) := by
  simp only [memwriteReplyWf, Bool.and_eq_true, decide_eq_true_eq, Bool.not_eq_true', ← Bool.not_eq_true, beq_iff_eq,
    and_assoc]

/-- The restore echo is the frame with its command, the configured header and no data byte set (30_encoding.md R91). -/
theorem seal_eq_restoreQFrame_iff (cfg : Config) (header command : Byte) (data : FrameData) :
    Frame.seal header command data = restoreQFrame cfg ↔
      command = cfg.params.cmdRestore ∧ header = cfg.params.header ∧ data.bytes.all (· == 0) = true := by
  rw [data_restoreQ cfg]
  constructor
  · intro h
    exact ⟨congrArg Frame.command h, congrArg Frame.header h, congrArg Frame.data h⟩
  · rintro ⟨rfl, rfl, rfl⟩
    rfl

/-- A request row's frame carries the checksum of its body (40_frame_codec.md R132). -/
theorem checksum_of_requestFrame {cfg : Config} {i : Instr} {f : Frame} (h : requestFrame cfg i = some f) :
    f.checksum = cksum f.body := by
  cases i <;> cases h <;> rfl

/-- A received row's frame carries the checksum of its body (40_frame_codec.md R132). -/
theorem checksum_of_arrivalFrame {cfg : Config} {i : Instr} {f : Frame} (h : arrivalFrame cfg i = some f) :
    f.checksum = cksum f.body := by
  cases i <;> cases h <;> rfl

@[simp] theorem powerQFrame_command (cfg : Config) : (powerQFrame cfg).command = cfg.params.cmdPower := rfl
@[simp] theorem restoreQFrame_command (cfg : Config) : (restoreQFrame cfg).command = cfg.params.cmdRestore := rfl
@[simp] theorem memreadQFrame_command (cfg : Config) (a n : Byte) :
    (memreadQFrame cfg a n).command = cfg.params.cmdMemread := rfl
@[simp] theorem memwriteQFrame_command (cfg : Config) (a : Byte) (vals : List Byte) :
    (memwriteQFrame cfg a vals).command = cfg.params.cmdMemwrite := rfl
@[simp] theorem profgetQFrame_command (cfg : Config) : (profgetQFrame cfg).command = cfg.params.cmdProfget := rfl
@[simp] theorem profsetQFrame_command (cfg : Config) (n : Byte) :
    (profsetQFrame cfg n).command = cfg.params.cmdProfset := rfl
@[simp] theorem evtackFrame_command (cfg : Config) (k : Fin 3) :
    (evtackFrame cfg k).command = cfg.params.cmdEvent := rfl

/-- A request frame is told by its command, and an acknowledgement by its selector too; its operands stand at their
positions (30_encoding.md R92, R95). -/
theorem requestOf_requestFrame {cfg : Config} {i : Instr} {f : Frame} (hw : i.wf cfg = true)
    (h : requestFrame cfg i = some f) : requestOf cfg f = some i := by
  have hcmd := cfg.commands_apart
  have hsel := cfg.selectors_apart
  simp only [Params.commands, List.pairwise_cons, List.mem_cons, forall_eq_or_imp] at hcmd hsel
  cases i with
  | powerQ => cases h; simp [requestOf]
  | restoreQ => cases h; simp [requestOf, hcmd]
  | memreadQ a n =>
    cases h
    obtain ⟨ha, hn⟩ := byteAt_memreadQ cfg a n
    simp [requestOf, hcmd, ha, hn]
  | memwriteQ a vals =>
    cases h
    obtain ⟨-, h10, -⟩ := (memSpanWf_iff a vals.length).1 hw
    obtain ⟨ha, hn⟩ := byteAt_memwriteQ cfg a vals
    have hlen : vals.length % 256 = vals.length := Nat.mod_eq_of_lt (by omega)
    simp [requestOf, hcmd, ha, hn, hlen, values_memwriteQ cfg a vals h10]
  | profgetQ => cases h; simp [requestOf, hcmd]
  | profsetQ n => cases h; simp [requestOf, hcmd, byteAt_profsetQ]
  | evtack0 => cases h; simp [requestOf, hcmd, byteAt_evtack, Params.evtSel]
  | evtack1 => cases h; simp [requestOf, hcmd, byteAt_evtack, Params.evtSel, hsel]
  | evtack2 => cases h; simp [requestOf, hcmd, byteAt_evtack, Params.evtSel, hsel]
  | _ => cases h

/-- A well-formed received row is the one its frame is told to be: the commands are apart, the selectors are apart, and
MEMWRITE_R has no frame of a narrower row (30_encoding.md R92; log entry 10). -/
theorem arrivalOf_arrivalFrame {cfg : Config} {i : Instr} {f : Frame} (hw : i.wf cfg = true)
    (h : arrivalFrame cfg i = some f) : arrivalOf cfg f = i := by
  have hcmd := cfg.commands_apart
  have hsel := cfg.selectors_apart
  simp only [Params.commands, List.pairwise_cons, List.mem_cons, forall_eq_or_imp] at hcmd hsel
  cases i with
  | powerR header data => cases h; simp [arrivalOf]
  | restoreR => cases h; simp [arrivalOf, hcmd]
  | memreadR header data => cases h; simp [arrivalOf, hcmd]
  | memwriteR header command data =>
    cases h
    obtain ⟨hc, hr, he⟩ := (memwriteReplyWf_iff ..).1 hw
    simp only [List.mem_cons, List.not_mem_nil, or_false, not_or] at hc
    simp only [← seal_eq_restoreQFrame_iff] at hr
    simp only [List.mem_cons, List.not_mem_nil, or_false, and_or_left, not_or] at he
    simp [arrivalOf, hc, hr, he]
  | profgetR header data => cases h; simp [arrivalOf, hcmd]
  | profsetR header data => cases h; simp [arrivalOf, hcmd]
  | statusR header data => cases h; simp [arrivalOf, hcmd]
  | eventN0 header data => cases h; simp [arrivalOf, hcmd, eq_of_beq hw]
  | eventN1 header data => cases h; simp [arrivalOf, hcmd, hsel, eq_of_beq hw]
  | eventN2 header data => cases h; simp [arrivalOf, hcmd, hsel, eq_of_beq hw]
  | _ => cases h

/-- A valid frame is the sealed frame of its own header, command and data, however its command is named. -/
theorem Frame.seal_of_command {f : Frame} {c : Byte} (hf : f.checksum = Sys2Proof.cksum f.body) (hc : f.command = c) :
    Frame.seal f.header c f.data = f :=
  hc ▸ (f.eq_seal hf).symm

/-- The row told of a valid received frame is well formed and stands for that frame (30_encoding.md R92). -/
theorem arrivalOf_spec {cfg : Config} {f : Frame} (hf : f.checksum = cksum f.body) :
    (arrivalOf cfg f).wf cfg = true ∧ arrivalFrame cfg (arrivalOf cfg f) = some f := by
  have hseal {c : Byte} (hc : f.command = c) := congrArg some (Frame.seal_of_command hf hc)
  unfold arrivalOf
  dsimp only
  split_ifs with hpower hrestore hprofget hprofset hevent0 hevent1 hevent2 hmemread hstatus
  · exact ⟨rfl, hseal hpower⟩
  · exact ⟨rfl, congrArg some hrestore.2.symm⟩
  · exact ⟨rfl, hseal hprofget⟩
  · exact ⟨rfl, hseal hprofset⟩
  · exact ⟨beq_iff_eq.2 hevent0.2, hseal hevent0.1⟩
  · exact ⟨beq_iff_eq.2 hevent1.2, hseal hevent1.1⟩
  · exact ⟨beq_iff_eq.2 hevent2.2, hseal hevent2.1⟩
  · exact ⟨rfl, hseal hmemread⟩
  · exact ⟨rfl, hseal hstatus⟩
  · refine ⟨(memwriteReplyWf_iff ..).2 ⟨?command, ?restore, ?event⟩, hseal rfl⟩
    case command => simp [hpower, hmemread, hprofget, hprofset, hstatus]
    case restore =>
      rw [← seal_eq_restoreQFrame_iff, ← f.eq_seal hf]
      exact fun h => hrestore ⟨congrArg Frame.command h, h⟩
    case event =>
      simp only [List.mem_cons, List.not_mem_nil, or_false, and_or_left, not_or]
      exact ⟨hevent0, hevent1, hevent2⟩

/-- A well-formed request's frame, sent, is read back as the request (30_encoding.md R92). -/
theorem decode_encode_of_requestFrame {cfg : Config} {i : Instr} {f : Frame} (hw : i.wf cfg = true)
    (h : requestFrame cfg i = some f) : decode cfg (encode cfg i) = .ok i := by
  rw [encode_of_requestFrame h]
  exact decode_tx_of_request (checksum_of_requestFrame h) (requestOf_requestFrame hw h) hw h

/-- A valid frame, received, is read as the row `arrivalOf` tells (30_encoding.md R93). -/
theorem decode_rx_of_checksum {cfg : Config} {f : Frame} (hf : f.checksum = cksum f.body) :
    decode cfg (.rx f.toBytes) = .ok (arrivalOf cfg f) := by
  rw [f.eq_seal hf]
  exact decode_rx_seal ..

/-- A well-formed received row's frame is read back as the row (30_encoding.md R92). -/
theorem decode_encode_of_arrivalFrame {cfg : Config} {i : Instr} {f : Frame} (hw : i.wf cfg = true)
    (h : arrivalFrame cfg i = some f) : decode cfg (encode cfg i) = .ok i := by
  rw [encode_of_arrivalFrame h, decode_rx_of_checksum (checksum_of_arrivalFrame h), arrivalOf_arrivalFrame hw h]

/-- A well-formed operation's record fits the port (10_state.md R36). -/
theorem encode_op_bytes_length {cfg : Config} {i : Instr} {r : OpRecord} (hw : i.wf cfg = true)
    (h : encode cfg i = .op r) : r.bytes.length ≤ 255 := by
  cases i with
  | cksum | frameEnc | frameDec | encMemwrite | classify | dpiDec | colorDec | boolDec | effectDec | pollDec | byteDec
  | idxDec | sleepDec =>
    cases h
    exact Laws.fitsPort_bytes hw
  | _ => cases h <;> exact Nat.zero_le _

/-- Settles O1, by where the encoder puts the instruction: a record, a sent frame or a received frame. -/
theorem decodeUndoesEncode : Obligations.DecodeUndoesEncode := by
  intro cfg i hw
  obtain ⟨r, h⟩ | ⟨f, h⟩ | ⟨f, h⟩ := encode_cases cfg i
  · rw [h]
    exact decode_op_of_decodeOp (encode_op_bytes_length hw h) (decodeOp_of_encode h)
  · exact decode_encode_of_requestFrame hw h
  · exact decode_encode_of_arrivalFrame hw h

/-- A sent string the decoder takes is the frame of a well-formed request (30_encoding.md R91, R92). -/
theorem decode_tx_eq_ok {cfg : Config} {b : List Byte} {i : Instr} (h : decode cfg (.tx b) = .ok i) :
    ∃ f, f.toBytes = b ∧ i.wf cfg = true ∧ requestFrame cfg i = some f := by
  simp only [decode, decodeTx] at h
  split at h
  case h_1 => cases h
  case h_2 f hp =>
    split at h
    case h_1 => cases h
    case h_2 j _ =>
      split at h
      case isTrue hj =>
        cases h
        exact ⟨f, ((Frame.parse_eq_ok b f).1 hp).1, hj⟩
      case isFalse => cases h

/-- A received string the decoder takes is a valid frame, and the instruction its row (30_encoding.md R92, R93). -/
theorem decode_rx_eq_ok {cfg : Config} {b : List Byte} {i : Instr} (h : decode cfg (.rx b) = .ok i) :
    ∃ f, f.toBytes = b ∧ f.checksum = cksum f.body ∧ arrivalOf cfg f = i := by
  simp only [decode, decodeRx] at h
  split at h
  case h_1 => cases h
  case h_2 f hp =>
    obtain ⟨hb, hf⟩ := (Frame.parse_eq_ok b f).1 hp
    exact ⟨f, hb, hf, Except.ok.inj h⟩

/-- Settles O2: the decoder takes a sent string only as its request's own frame, and a received one only as a valid
frame, whose row stands for that frame again. -/
theorem encodeUndoesLinkDecode : Obligations.EncodeUndoesLinkDecode := by
  intro cfg b i
  constructor
  · intro h
    obtain ⟨f, rfl, hw, hf⟩ := decode_tx_eq_ok h
    exact ⟨hw, isRequest_of_requestFrame hf, encode_of_requestFrame hf⟩
  · intro h
    obtain ⟨f, rfl, hk, rfl⟩ := decode_rx_eq_ok h
    obtain ⟨hw, hf⟩ := arrivalOf_spec (cfg := cfg) hk
    exact ⟨hw, isArrival_of_arrivalFrame hf, encode_of_arrivalFrame hf⟩

/-- Settles O3: each record is the encoding of its operation, which is well formed under every configuration. -/
theorem opBytesSelectOperations : Obligations.OpBytesSelectOperations := fun cfg =>
  ⟨decodeUndoesEncode cfg (.cksum [0x1F, 0x1F, 0x00]) rfl, decodeUndoesEncode cfg (.encMemread 0xF6 10) rfl,
    decodeUndoesEncode cfg (.mapWrite [(0xC8, 0x77)]) rfl, decodeUndoesEncode cfg (.dpiEnc 1600) rfl,
    decodeUndoesEncode cfg (.getDpi 1) rfl, decodeUndoesEncode cfg (.setDpi 2 1600) rfl,
    decodeUndoesEncode cfg (.setProfile 2) rfl, decodeUndoesEncode cfg .snapshot rfl⟩

/-! ## Op bytes outside the table -/

/-- The op bytes to which the table gives no operation (30_encoding.md R100). -/
def OutsideOpTable (op : Nat) : Prop :=
  op = 0 ∨ (0x04 ≤ op ∧ op ≤ 0x0F) ∨ (0x19 ≤ op ∧ op ≤ 0x1F) ∨ (0x21 ≤ op ∧ op ≤ 0x2F) ∨ (0x33 ≤ op ∧ op ≤ 0x3F) ∨
    op = 0x5E ∨ (0x6E ≤ op ∧ op ≤ 0x6F) ∨ 0x79 ≤ op

/-- No row of the table has such an op byte: each row's own byte lies between the ranges (30_encoding.md R97, R100). -/
theorem decodeOp_eq_none {r : OpRecord} (h : OutsideOpTable r.op.toNat) : decodeOp r = none := by
  unfold OutsideOpTable at h
  cases hd : decodeOp r with
  | none => rfl
  | some i =>
    unfold decodeOp at hd
    split at hd
    case h_71 => cases hd
    all_goals omega

/-- Such a record is rejected with its op byte (30_encoding.md R100). -/
theorem decode_op_of_outside {cfg : Config} {r : OpRecord} (hl : r.bytes.length ≤ 255)
    (h : OutsideOpTable r.op.toNat) : decode cfg (.op r) = .error (.illegalOp r.op) := by
  simp only [decode, hl, ↓reduceIte, decodeOp_eq_none h]

end Sys2Proof

namespace Sys2Proof.Machine

/-- Settles O5: the record is rejected with its op byte, and the rejection is one raise. -/
theorem illegalOpRaises : Obligations.IllegalOpRaises := by
  intro s r rest hin hl h
  exact ⟨.byte r.op, step_of_reject hin (decode_op_of_outside hl h)⟩

/-! ## Received rows -/

/-- A received row appends the bytes of its frame, and nothing else changes (10_state.md R33, 60_exceptions.md R346; log
entry 6). -/
theorem exec_of_arrivalFrame {i : Instr} {s : State} {f : Frame} (h : arrivalFrame s.cfg i = some f) :
    exec i s = .next { s with rxq := s.rxq ++ [f.toBytes] } := by
  cases i <;> cases h <;> rfl

/-- Settles O50, row by row: the bytes of a row's frame are its header, its command, its data and their checksum. -/
theorem receivedRowsArrive : Obligations.ReceivedRowsArrive := by
  intro s h d
  refine ⟨exec_of_arrivalFrame rfl, fun c => exec_of_arrivalFrame (f := .seal h c d) rfl, ?_⟩
  intro i c hi
  refine exec_of_arrivalFrame (f := .seal h c d) ?_
  fin_cases hi <;> rfl

/-! ## Request rows -/

/-- ENC_MEMREAD of a range inside the map (41_payload.md R152). -/
theorem encMemread_of_range {cfg : Config} {a n : Byte} (h1 : 1 ≤ n.toNat) (h10 : n.toNat ≤ 10)
    (h : a.toNat + n.toNat ≤ 256) : encMemread cfg a n = .ok (memreadQFrame cfg a n) := by
  simp only [encMemread, rangeArg_of_range h1 h10 h]

/-- A request row that awaits a command, once its arguments pass, is the exchange of its frame (44_session.md R293; log
entries 6, 7). -/
theorem exec_of_awaits {i : Instr} {s : State} {q : Frame} {c : Byte} (hi : i.isRequest = true)
    (hq : i.awaits s.cfg = some (q, c)) (ha : i.ArgsPass) : exec i s = requestStep (.ok q) (awaitCmd s.cfg c) s := by
  cases i with
  | powerQ | restoreQ | profgetQ | profsetQ => cases hq; rfl
  | memreadQ a n =>
    cases hq
    obtain ⟨h1, h10, hr⟩ := ha
    rw [← encMemread_of_range h1 h10 hr]
    rfl
  | memwriteQ | evtack0 | evtack1 | evtack2 => cases hq
  | _ => cases hi

/-- In a session, the check at an operation's start goes on (44_session.md R295). -/
theorem requireConnected_bind_begin {α : Type} {s : State} (k : Unit → Op α) (hs : s.sess = .connected) :
    requireConnected.bind k (beginOperation s) = k () (beginOperation s) :=
  Op.bind_of_done (requireConnected_of_connected hs)

/-- In a session, the exchange of a request answered behind at most MAX_DISCARD frames ends with the reply
(44_session.md R290, R292). -/
theorem requestStep_of_answers {s : State} {q : Frame} {c : Byte} {f : Frame} {rxq : List (List Byte)} {e : Env}
    (hs : s.sess = .connected) (h : s.env.Answers s.cfg c f rxq e) :
    requestStep (.ok q) (awaitCmd s.cfg c) s = .next ((s.waited q rxq e).ended .ok (.frame f)) := by
  obtain ⟨d, hd⟩ := request_awaitCmd (α := Value) (s := beginOperation s) (q := q) h
  refine congrArg _ (runOperation_of_done (u := { (beginOperation s).waited q rxq e with seqD := d }) ?_)
  rw [Op.lift_ok_bind, requireConnected_bind_begin _ hs, hd, Op.pure_apply]

/-- In a session, the exchange of a request whose next string is a valid frame ends with it, whatever its command
(44_session.md R291). -/
theorem requestStep_of_reply {s : State} {q : Frame} {b : List Byte} {more : List (List Byte)} {ss : List LinkResult}
    {rs : List RecvDraw} {f : Frame} (hs : s.sess = .connected) (h : s.RepliedBy b more ss rs)
    (hf : Frame.parse b = .ok f) :
    requestStep (.ok q) awaitAny s = .next ((s.exchanged q more ss rs).ended .ok (.frame f)) := by
  refine congrArg _ (runOperation_of_done (u := (beginOperation s).exchanged q more ss rs) ?_)
  rw [Op.lift_ok_bind, requireConnected_bind_begin _ hs,
    request_awaitAny _ ((beginOperation_repliedBy ..).2 h) hf, Op.pure_apply]

/-- In a session, the exchange of a request whose write or receive fails ends with that failure (44_session.md R290,
R291). -/
theorem requestStep_of_replyFails {s : State} {q : Frame} {st : Status} {rxq : List (List Byte)} {e : Env}
    (hs : s.sess = .connected) (h : s.env.ReplyFails st rxq e) :
    ∃ v, requestStep (.ok q) awaitAny s = .next ((s.waited q rxq e).ended st v) := by
  obtain ⟨v, hv⟩ := request_awaitAny_of_fails (s := beginOperation s) (q := q) (fun r => Op.pure (Value.frame r)) h
  refine ⟨v, congrArg _ (runOperation_of_raised (u := (beginOperation s).waited q rxq e) (e := ⟨st, v⟩) ?_)⟩
  rw [Op.lift_ok_bind, requireConnected_bind_begin _ hs, hv]

/-- MEMWRITE_Q of a range inside the map is the exchange of its frame with any reply (44_session.md R293; log
entry 7). -/
theorem exec_memwriteQ_of_range {a : Byte} {vals : List Byte} (h1 : 1 ≤ vals.length) (h10 : vals.length ≤ 10)
    (h : a.toNat + vals.length ≤ 256) (s : State) :
    exec (.memwriteQ a vals) s = requestStep (.ok (memwriteQFrame s.cfg a vals)) awaitAny s := by
  have he : encMemwrite s.cfg a vals = .ok (memwriteQFrame s.cfg a vals) := by
    simp only [encMemwrite, rangeArg_of_range h1 h10 h]
  rw [← he]
  rfl

/-- In a session, an acknowledgement whose write succeeds is sent, and nothing else moves (44_session.md R303). -/
theorem ackStep_of_ok {s : State} {ss : List LinkResult} (f : Frame) (hs : s.sess = .connected)
    (h : s.env.sends = .ok :: ss) :
    ackStep f s = .next ({ s with tx := s.tx ++ [f], env := { s.env with sends := ss } }.ended .ok .none) := by
  refine congrArg _ (runOperation_of_done
    (u := { beginOperation s with tx := s.tx ++ [f], env := { s.env with sends := ss } }) (noValue_of_done ?_))
  rw [requireConnected_bind_begin _ hs, sendOrRaise_of_ok (s := beginOperation s) f h]
  rfl

/-- In a session, an acknowledgement whose write fails ends with IOError, its frame in the history (log entry 5). -/
theorem ackStep_of_ioError {s : State} {ss : List LinkResult} (f : Frame) (hs : s.sess = .connected)
    (h : s.env.sends = .ioError :: ss) :
    ackStep f s = .next ({ s with tx := s.tx ++ [f], env := { s.env with sends := ss } }.ended .ioError .none) := by
  refine congrArg _ (runOperation_of_raised (e := ⟨.ioError, .none⟩)
    (u := { beginOperation s with tx := s.tx ++ [f], env := { s.env with sends := ss } }) (noValue_of_raised ?_))
  rw [requireConnected_bind_begin _ hs, sendOrRaise_of_ioError (s := beginOperation s) f h]
  rfl

/-- The acknowledgement row of kind k sends that kind's frame (41_payload.md R156 to R158). -/
theorem exec_evtack {i : Instr} {k : Fin 3}
    (h : (i, k) ∈ [(Instr.evtack0, (0 : Fin 3)), (.evtack1, 1), (.evtack2, 2)]) (s : State) :
    exec i s = ackStep (evtackFrame s.cfg k) s := by
  fin_cases h <;> rfl

/-- Settles O49, by the three kinds of request row: an exchange that awaits a command, MEMWRITE_Q's with any reply, and
an acknowledgement's send. -/
theorem requestRowsSend : Obligations.RequestRowsSend := by
  intro s hs
  refine ⟨?awaits, ?memwrite, ?acknowledges⟩
  case awaits =>
    intro i q c f rxq e hi hq ha h
    rw [exec_of_awaits hi hq ha, requestStep_of_answers hs h]
  case memwrite =>
    intro a vals h1 h10 hr
    rw [exec_memwriteQ_of_range h1 h10 hr]
    exact ⟨fun b more ss rs f h hf => requestStep_of_reply hs h hf,
      fun st rxq e h => requestStep_of_replyFails hs h⟩
  case acknowledges =>
    intro i k ss hk
    rw [exec_evtack hk]
    exact ⟨ackStep_of_ok _ hs, fun h => ⟨.none, ackStep_of_ioError _ hs h⟩⟩

end Sys2Proof.Machine

/-! ## The bytes FRAME_ENC builds

The data come first, and zeros fill the positions they leave (30_encoding.md R91, 40_frame_codec.md R132). -/

namespace Sys2Proof

/-- Padded data are the data and the zeros that bring them to 14 bytes (30_encoding.md R91). -/
theorem FrameData.pad_bytes {data : List Byte} (h : data.length ≤ 14) :
    (FrameData.pad data).bytes = data ++ List.replicate (14 - data.length) 0 := by
  apply List.ext_getElem
  · simp [FrameData.pad, Nat.add_sub_of_le h]
  · intro j hj hj'
    simp only [FrameData.pad, FrameData.ofFn_bytes, List.getElem_map, List.getElem_range]
    by_cases hd : j < data.length
    · simp [hd]
    · simp [hd, List.getElem_append_right (Nat.le_of_not_lt hd)]

@[simp] theorem Frame.encode_data (cfg : Config) (c : Byte) (d : FrameData) : (Frame.encode cfg c d).data = d := rfl

/-- An encoded frame has the checksum its body calls for (40_frame_codec.md R132). -/
theorem Frame.encode_checksum (cfg : Config) (c : Byte) (d : FrameData) :
    (Frame.encode cfg c d).checksum = Sys2Proof.cksum (Frame.encode cfg c d).body := rfl

/-- The byte at each data position of an encoded frame (40_frame_codec.md R132). -/
theorem Frame.byteAt_encode_pad (cfg : Config) (c : Byte) (data : List Byte) {j : Nat} (hj : j < 14) :
    (Frame.encode cfg c (.pad data)).byteAt (2 + j) = data.getD j 0 := by
  rw [Frame.byteAt_data _ _ (by omega) (by omega), Nat.add_sub_cancel_left]
  simp [FrameData.pad, List.getElem?_range hj]

/-! ## Seventeen bytes are a frame -/

/-- Every 17 bytes are those of a frame (20_memory.md R62, R64). -/
theorem Frame.exists_toBytes_eq {b : List Byte} (h : b.length = 17) : ∃ f : Frame, f.toBytes = b :=
  ⟨_, Frame.toBytes_ofBytes b h⟩

@[simp] theorem Frame.take_toBytes (f : Frame) : f.toBytes.take 16 = f.body := by
  simp [Frame.toBytes]

@[simp] theorem Frame.getElem?_toBytes_checksum (f : Frame) : f.toBytes[16]? = some f.checksum := by
  simp [Frame.toBytes]

/-- The checksum is right exactly when the 17 bytes sum to 0x55 modulo 256 (40_frame_codec.md R135). -/
theorem Frame.checksum_eq_iff (f : Frame) :
    f.checksum = Sys2Proof.cksum f.body ↔ byteSum f.toBytes % 256 = 0x55 := by
  have hsum : byteSum f.toBytes = f.checksum.toNat + byteSum f.body := by simp [Frame.toBytes, Nat.add_comm]
  rw [hsum]
  exact ⟨fun h => h ▸ cksum_add_byteSum _, eq_cksum_of_add _ _⟩

end Sys2Proof

namespace Sys2Proof.Machine

/-! ## CKSUM -/

/-- CKSUM takes at most 16 bytes (40_frame_codec.md R131). -/
theorem cksumArg_of_length {bytes : List Byte} (h : bytes.length ≤ 16) : cksumArg bytes = .ok bytes :=
  if_neg (Nat.not_lt.2 h)

/-- CKSUM refuses more than 16 bytes (40_frame_codec.md R131). -/
theorem cksumArg_of_long {bytes : List Byte} (h : 16 < bytes.length) :
    cksumArg bytes = .error ⟨.invalidValue, .nat bytes.length⟩ :=
  if_pos h

/-- Settles O16: the answered byte is the checksum, which brings the sum to 0x55. -/
theorem checksumRule : Obligations.ChecksumRule := by
  intro bytes s
  constructor
  · intro h
    exact ⟨cksum bytes, cksum_add_byteSum bytes, pureOperation_of_ok (congrArg (mapOk _) (cksumArg_of_length h)) s⟩
  · intro h
    exact pureOperation_of_error (congrArg (mapOk _) (cksumArg_of_long h)) s

/-! ## FRAME_ENC -/

/-- FRAME_ENC takes at most 14 data bytes and pads them (40_frame_codec.md R132). -/
theorem frameEnc_of_length (cfg : Config) (c : Byte) {data : List Byte} (h : data.length ≤ 14) :
    frameEnc cfg c data = .ok (.encode cfg c (.pad data)) :=
  if_neg (Nat.not_lt.2 h)

/-- FRAME_ENC refuses more than 14 data bytes (40_frame_codec.md R132). -/
theorem frameEnc_of_long (cfg : Config) (c : Byte) {data : List Byte} (h : 14 < data.length) :
    frameEnc cfg c data = .error ⟨.invalidValue, .nat data.length⟩ :=
  if_pos h

/-- FRAME_ENC of at most 14 data bytes answers their frame (40_frame_codec.md R132). -/
theorem exec_frameEnc_of_length (c : Byte) {data : List Byte} (h : data.length ≤ 14) (s : State) :
    exec (.frameEnc c data) s = .next (s.ended .ok (.frame (.encode s.cfg c (.pad data)))) :=
  pureOperation_of_ok (congrArg (mapOk _) (frameEnc_of_length s.cfg c h)) s

/-- Settles O17: the answered frame is the encoding of the padded data. -/
theorem frameEncodeRule : Obligations.FrameEncodeRule := by
  intro c data s
  constructor
  · intro h
    refine ⟨.encode s.cfg c (.pad data), rfl, rfl, ?data, ?fill, cksum_add_byteSum _, exec_frameEnc_of_length c h s⟩
    case data =>
      intro j hj
      rw [Frame.byteAt_encode_pad _ _ _ (by omega)]
      simp [hj]
    case fill =>
      intro j hj h14
      rw [Frame.byteAt_encode_pad _ _ _ h14, List.getD_eq_default _ _ hj]
  · intro h
    exact pureOperation_of_error (congrArg (mapOk _) (frameEnc_of_long s.cfg c h)) s

/-! ## FRAME_DEC -/

/-- FRAME_DEC looks at the length first (40_frame_codec.md R133). -/
theorem frameDec_of_length_ne {b : List Byte} (h : b.length ≠ 17) :
    frameDec b = .error ⟨.formatError, .nat b.length⟩ := by
  simp [frameDec, Frame.parse, h]

/-- FRAME_DEC of a frame's bytes looks at the checksum alone (40_frame_codec.md R133, 30_encoding.md R93). -/
theorem exec_frameDec_of_checksum {f : Frame} (h : f.checksum = Sys2Proof.cksum f.body) (s : State) :
    exec (.frameDec f.toBytes) s = .next (s.ended .ok (.frame f)) :=
  pureOperation_of_ok (congrArg (mapOk _) (frameDec_of_parse ((Frame.parse_eq_ok ..).2 ⟨rfl, h⟩))) s

/-- FRAME_DEC refuses a frame's bytes whose checksum is wrong (40_frame_codec.md R133). -/
theorem exec_frameDec_of_checksum_ne {f : Frame} (h : f.checksum ≠ Sys2Proof.cksum f.body) (s : State) :
    ∃ v, exec (.frameDec f.toBytes) s = .next (s.ended .formatError v) := by
  obtain ⟨g, hg, -⟩ | ⟨-, ⟨_, v⟩, -, he, rfl⟩ := frameDec_cases f.toBytes
  · obtain ⟨hb, hk⟩ := (Frame.parse_eq_ok ..).1 hg
    exact absurd (Frame.toBytes_injective hb ▸ hk) h
  · exact ⟨v, pureOperation_of_error (congrArg (mapOk _) he) s⟩

/-- FRAME_DEC accepts a frame's bytes exactly when its checksum is right (40_frame_codec.md R133). -/
theorem exec_frameDec_ok_iff (f : Frame) (s : State) :
    (∃ g, exec (.frameDec f.toBytes) s = .next (s.ended .ok (.frame g))) ↔ f.checksum = Sys2Proof.cksum f.body := by
  constructor
  · rintro ⟨g, hg⟩
    by_contra hk
    obtain ⟨v, hv⟩ := exec_frameDec_of_checksum_ne hk s
    have hr := congrArg State.result (Host.Outcome.next.inj (hg.symm.trans hv))
    simp at hr
  · exact fun hk => ⟨f, exec_frameDec_of_checksum hk s⟩

/-- Settles O18: 17 bytes are those of a frame, whose checksum alone decides. -/
theorem frameDecodeRule : Obligations.FrameDecodeRule := by
  intro b s
  refine ⟨fun h => pureOperation_of_error (congrArg (mapOk _) (frameDec_of_length_ne h)) s, ?wrong, ?right, ?sum⟩ <;>
    intro h <;> obtain ⟨f, rfl⟩ := Frame.exists_toBytes_eq h
  case wrong =>
    intro hk
    rw [Frame.getElem?_toBytes_checksum, Frame.take_toBytes] at hk
    exact exec_frameDec_of_checksum_ne (fun h => hk (congrArg some h)) s
  case right =>
    intro hk
    rw [Frame.getElem?_toBytes_checksum, Frame.take_toBytes] at hk
    exact ⟨f, rfl, exec_frameDec_of_checksum (Option.some.inj hk) s⟩
  case sum => exact (exec_frameDec_ok_iff f s).trans f.checksum_eq_iff

/-- Settles O19: an encoded frame has its checksum, so FRAME_DEC answers the same frame. -/
theorem frameRoundTrip : Obligations.FrameRoundTrip := by
  intro c data s h
  exact ⟨_, exec_frameEnc_of_length c h s, exec_frameDec_of_checksum (Frame.encode_checksum ..) s, rfl,
    FrameData.pad_bytes h⟩

end Sys2Proof.Machine

/-! ## The payload registry

A request frame is `build` of its fields, so its bytes are the fields' lookup; a received frame is classified by its
command byte, which picks one branch because the eight commands are distinct (00_scope.md R6(a), 41_payload.md). -/

namespace Sys2Proof

/-- What `build` makes is a request whose data are the fields, zero elsewhere (41_payload.md). -/
theorem isRequest_build (cfg : Config) (c : Byte) {fields : List (Nat × Byte)} {data : Nat → Byte}
    (h : ∀ pos, (fields.lookup pos).getD 0 = data pos) : Machine.IsRequest cfg (Frame.build cfg c fields) c data :=
  ⟨rfl, rfl, fun pos h2 h15 => (Frame.byteAt_build cfg c fields pos h2 h15).trans (h pos), cksum_add_byteSum _⟩

/-- A request without parameters is zero at each data position. -/
theorem isRequest_build_nil (cfg : Config) (c : Byte) :
    Machine.IsRequest cfg (Frame.build cfg c []) c fun _ => 0 :=
  isRequest_build cfg c fun _ => rfl

/-- A request with one parameter is zero at each other data position. -/
theorem isRequest_build_single (cfg : Config) (c : Byte) (k : Nat) (a : Byte) :
    Machine.IsRequest cfg (Frame.build cfg c [(k, a)]) c fun pos => if pos = k then a else 0 :=
  isRequest_build cfg c fun pos => by
    rw [lookup_cons_eq_ite]
    split <;> rfl

/-- MEMREAD_Q holds the address at position 4 and the length at position 5 (41_payload.md R152). -/
theorem isRequest_memreadQFrame (cfg : Config) (a n : Byte) :
    Machine.IsRequest cfg (memreadQFrame cfg a n) cfg.params.cmdMemread
      fun pos => if pos = 4 then a else if pos = 5 then n else 0 :=
  isRequest_build cfg _ fun pos => by
    simp only [lookup_cons_eq_ite, Config.memAddrPos, Config.memLenPos]
    split
    · rfl
    · split <;> rfl

/-- MEMWRITE_Q holds the address, the count and, from position 6, the values in order (41_payload.md R153). -/
theorem isRequest_memwriteQFrame (cfg : Config) (a : Byte) (vals : List Byte) :
    Machine.IsRequest cfg (memwriteQFrame cfg a vals) cfg.params.cmdMemwrite fun pos =>
      if pos = 4 then a else if pos = 5 then BitVec.ofNat 8 vals.length
      else if 6 ≤ pos then vals.getD (pos - 6) 0 else 0 :=
  isRequest_build cfg _ fun pos => by
    simp only [lookup_cons_eq_ite, lookup_valueFields, Config.memAddrPos, Config.memLenPos, Config.memDataPos]
    split
    · rfl
    · split
      · rfl
      · split
        · exact (List.getD_eq_getElem?_getD ..).symm
        · rfl

end Sys2Proof

namespace Sys2Proof.Machine

/-- Settles O20: each encoder answers the frame of its command and of at most one field. -/
theorem requestEncoderRules : Obligations.RequestEncoderRules := by
  intro s
  exact ⟨⟨_, rfl, isRequest_build_nil ..⟩, ⟨_, rfl, isRequest_build_nil ..⟩, ⟨_, rfl, isRequest_build_nil ..⟩,
    fun _ => ⟨_, rfl, isRequest_build_single ..⟩, ⟨_, rfl, isRequest_build_single ..⟩,
    ⟨_, rfl, isRequest_build_single ..⟩, ⟨_, rfl, isRequest_build_single ..⟩⟩

/-! ## ENC_MEMREAD and ENC_MEMWRITE -/

/-- ENC_MEMREAD of any other range (41_payload.md R152). -/
theorem encMemread_of_not_range {cfg : Config} {a n : Byte}
    (h : n.toNat < 1 ∨ 10 < n.toNat ∨ 256 < a.toNat + n.toNat) :
    encMemread cfg a n = .error ⟨.invalidRange, .pair a.toNat n.toNat⟩ := by
  simp only [encMemread, rangeArg_of_not_range h]

/-- ENC_MEMWRITE from an address byte, of a range inside the map (41_payload.md R153). -/
theorem encMemwrite_of_byte_range {cfg : Config} {a : Byte} {vals : List Byte} (h1 : 1 ≤ vals.length)
    (h10 : vals.length ≤ 10) (h : a.toNat + vals.length ≤ 256) :
    encMemwrite cfg a vals = .ok (memwriteQFrame cfg a vals) := by
  simpa using encMemwrite_of_range (cfg := cfg) h1 h10 h

/-- ENC_MEMWRITE of any other range (41_payload.md R153). -/
theorem encMemwrite_of_not_range {cfg : Config} {a : Byte} {vals : List Byte}
    (h : vals.length < 1 ∨ 10 < vals.length ∨ 256 < a.toNat + vals.length) :
    encMemwrite cfg a vals = .error ⟨.invalidRange, .pair a.toNat vals.length⟩ := by
  simp only [encMemwrite, rangeArg_of_not_range h]

/-- Settles O21, by the range check: the frame where it passes, InvalidRange where it does not. -/
theorem memoryRequestEncoderRules : Obligations.MemoryRequestEncoderRules := by
  intro s
  refine ⟨?readInRange, ?readOutside, ?writeInRange, ?writeOutside⟩
  case readInRange =>
    intro a n h1 h10 h
    exact ⟨_, pureOperation_of_ok (congrArg (mapOk _) (encMemread_of_range h1 h10 h)) s, isRequest_memreadQFrame ..⟩
  case readOutside =>
    intro a n h
    exact pureOperation_of_error (congrArg (mapOk _) (encMemread_of_not_range h)) s
  case writeInRange =>
    intro a vals h1 h10 h
    exact ⟨_, pureOperation_of_ok (congrArg (mapOk _) (encMemwrite_of_byte_range h1 h10 h)) s,
      isRequest_memwriteQFrame ..⟩
  case writeOutside =>
    intro a vals h
    exact pureOperation_of_error (congrArg (mapOk _) (encMemwrite_of_not_range h)) s

/-! ## The payload of a power reply and of an event -/

/-- DecPower of a flag 0 or 1 (41_payload.md R161). -/
theorem decPower_of_le {cfg : Config} {f : Frame} (h : (f.byteAt cfg.params.powerFlagPos).toNat ≤ 1) :
    decPower cfg f = .ok ⟨(f.byteAt cfg.params.powerPctPos).toNat,
      (f.byteAt cfg.params.powerMvPos).toNat * 256 + (f.byteAt (cfg.params.powerMvPos + 1)).toNat,
      (f.byteAt cfg.params.powerFlagPos).toNat == 1⟩ := by
  simp only [decPower, boolOfByte_of_le h, Frame.wordAt]

/-- DecPower of any other flag (41_payload.md R161). -/
theorem decPower_of_two_le {cfg : Config} {f : Frame} (h : 2 ≤ (f.byteAt cfg.params.powerFlagPos).toNat) :
    decPower cfg f = .error ⟨.invalidEncoding, .byte (f.byteAt cfg.params.powerFlagPos)⟩ := by
  simp only [decPower, boolOfByte_of_two_le h]

/-- The selectors are distinct, so the one at position 6 tells the kind (00_scope.md R6(b), 41_payload.md R165). -/
theorem decEvent_of_selector {cfg : Config} {f : Frame} {k : Fin 3} (h : f.byteAt 6 = cfg.params.evtSel k) :
    decEvent cfg f = .ok k := by
  have hsel := cfg.selectors_apart
  simp only [List.pairwise_cons, List.mem_cons, forall_eq_or_imp] at hsel
  simp only [decEvent, h]
  fin_cases k <;> simp [Params.evtSel, hsel]

/-- DecEvent of a byte that is no selector (41_payload.md R165). -/
theorem decEvent_of_no_selector {cfg : Config} {f : Frame} (h : ∀ k : Fin 3, f.byteAt 6 ≠ cfg.params.evtSel k) :
    decEvent cfg f = .error ⟨.decodeError, .byte (f.byteAt 6)⟩ := by
  simp [decEvent, h]

/-! ## The classification of a frame by its command byte -/

/-- The commands are distinct, so each picks one branch: a POWER and an EVENT frame are classified as their payload
decodes; a memory reply, a status and an unknown command are not classified (41_payload.md R160 to R167). -/
theorem classifyFrame_by_command (cfg : Config) (f : Frame) :
    (f.command = cfg.params.cmdPower →
      classifyFrame cfg f = mapOk (fun ps => ⟨f, .powerEcho ps⟩) (decPower cfg f)) ∧
    (f.command = cfg.params.cmdRestore → classifyFrame cfg f = .ok ⟨f, .restoreEcho⟩) ∧
    (f.command = cfg.params.cmdProfget →
      classifyFrame cfg f = .ok ⟨f, .profileGetResp (f.byteAt cfg.params.profilePos)⟩) ∧
    (f.command = cfg.params.cmdProfset →
      classifyFrame cfg f = .ok ⟨f, .profileSetEcho (f.byteAt cfg.params.profilePos)⟩) ∧
    (f.command = cfg.params.cmdEvent →
      classifyFrame cfg f = mapOk (fun k => ⟨f, .event k⟩) (decEvent cfg f)) ∧
    (f.command = cfg.params.cmdMemread ∨ f.command = cfg.params.cmdMemwrite ∨
        f.command = cfg.params.cmdStatus ∨ f.command ∉ cfg.params.commands →
      classifyFrame cfg f = .error ⟨.unsupportedDecode, .frame f⟩) := by
  have hcmd := cfg.commands_apart
  simp only [Params.commands, List.pairwise_cons, List.mem_cons, forall_eq_or_imp] at hcmd
  refine ⟨?power, ?restore, ?profget, ?profset, ?event, ?other⟩ <;> intro h
  case power =>
    simp only [classifyFrame, h, ↓reduceIte]
    cases decPower cfg f <;> rfl
  case restore | profget | profset => simp [classifyFrame, h, hcmd]
  case event =>
    simp only [classifyFrame, h, hcmd, ↓reduceIte]
    cases decEvent cfg f <;> rfl
  case other =>
    obtain h | h | h | h := h
    case inr.inr.inr =>
      simp only [Params.commands, List.mem_cons, not_or] at h
      simp [classifyFrame, h]
    all_goals simp [classifyFrame, h, hcmd]

/-! ## CLASSIFY -/

/-- CLASSIFY of a valid frame's bytes answers the frame's classification (41_payload.md R160). -/
theorem exec_classify_of_ok {b : List Byte} {f : Frame} {d : Decoded} {s : State} (hf : Frame.parse b = .ok f)
    (h : classifyFrame s.cfg f = .ok d) : exec (.classify b) s = .next (s.ended .ok (.variant d)) := by
  have hc : classify s.cfg b = .ok d := by simp only [classify, frameDec_of_parse hf, h]
  exact pureOperation_of_ok (congrArg (mapOk _) hc) s

/-- CLASSIFY of a valid frame's bytes raises what its classification raises (41_payload.md R160). -/
theorem exec_classify_of_error {b : List Byte} {f : Frame} {e : Raise} {s : State} (hf : Frame.parse b = .ok f)
    (h : classifyFrame s.cfg f = .error e) : exec (.classify b) s = .next (s.ended e.status e.value) := by
  have hc : classify s.cfg b = .error e := by simp only [classify, frameDec_of_parse hf, h]
  exact pureOperation_of_error (congrArg (mapOk _) hc) s

/-- CLASSIFY of any other string raises FormatError, as FRAME_DEC does (41_payload.md R160, 40_frame_codec.md R133). -/
theorem exec_classify_of_reject {b : List Byte} {why : FrameReject} (h : Frame.parse b = .error why) (s : State) :
    ∃ v, exec (.classify b) s = .next (s.ended .formatError v) := by
  obtain ⟨f, hf, -⟩ | ⟨-, ⟨_, v⟩, -, he, rfl⟩ := frameDec_cases b
  · cases h.symm.trans hf
  · have hc : classify s.cfg b = .error ⟨.formatError, v⟩ := by simp only [classify, he]
    exact ⟨v, pureOperation_of_error (congrArg (mapOk _) hc) s⟩

/-- Settles O22, by the command byte: its classification, and for POWER and EVENT what their payload decodes to. -/
theorem classifyRule : Obligations.ClassifyRule := by
  intro b s
  refine ⟨fun why h => exec_classify_of_reject h s, fun f hf => ?_⟩
  obtain ⟨hpower, hrestore, hprofget, hprofset, hevent, hother⟩ := classifyFrame_by_command s.cfg f
  refine ⟨?power, fun hc => exec_classify_of_ok hf (hrestore hc), fun hc => exec_classify_of_ok hf (hprofget hc),
    fun hc => exec_classify_of_ok hf (hprofset hc), ?event, fun hc => exec_classify_of_error hf (hother hc)⟩
  case power =>
    intro hc
    exact ⟨fun h => exec_classify_of_ok hf ((hpower hc).trans (congrArg _ (decPower_of_le h))),
      fun h => exec_classify_of_error hf ((hpower hc).trans (congrArg _ (decPower_of_two_le h)))⟩
  case event =>
    intro hc
    exact ⟨fun k h => exec_classify_of_ok hf ((hevent hc).trans (congrArg _ (decEvent_of_selector h))),
      fun h => exec_classify_of_error hf ((hevent hc).trans (congrArg _ (decEvent_of_no_selector h)))⟩

end Sys2Proof.Machine

/-! ## The cells of MAP_GET and MAP_WRITE

MAP_WRITE passes its checks exactly on the pairs `PairsPass` describes; then it writes the run of their addresses after one
reply, or no cell at all (42_register_map.md R190, R191). -/

namespace Sys2Proof.Machine

/-- Settles O23: MAP_GET is one read of the cell. -/
theorem mapGetRule : Obligations.MapGetRule := by
  intro a s
  constructor
  · intro v h
    have hread : ((mapGet a.toNat).bind fun b => Op.pure (Value.byte b)) (beginOperation s) =
        .done (.byte v) (beginOperation s) := Op.bind_of_done (mapGet_of_some h)
    exact congrArg _ (runOperation_of_done hread)
  · intro h
    have hread : ((mapGet a.toNat).bind fun b => Op.pure (Value.byte b)) (beginOperation s) =
        .raised ⟨.notPopulated, .nat a.toNat⟩ (beginOperation s) := Op.bind_of_raised (mapGet_of_none h)
    exact congrArg _ (runOperation_of_raised hread)

/-- MAP_WRITE ends with OK where its steps went on (42_register_map.md R191). -/
theorem exec_mapWrite_of_done {pairs : List (Byte × Byte)} {s u : State}
    (h : mapWrite s.cfg pairs (beginOperation s) = .done () u) :
    exec (.mapWrite pairs) s = .next (u.ended .ok .none) :=
  congrArg _ (runOperation_of_done (noValue_of_done h))

/-- MAP_WRITE ends with what its steps raised (42_register_map.md R191). -/
theorem exec_mapWrite_of_raised {pairs : List (Byte × Byte)} {s u : State} {e : Raise}
    (h : mapWrite s.cfg pairs (beginOperation s) = .raised e u) :
    exec (.mapWrite pairs) s = .next (u.ended e.status e.value) :=
  congrArg _ (runOperation_of_raised (noValue_of_raised h))

/-- Settles O24: the checks take the pairs as the run, and the one exchange is answered or fails. -/
theorem mapWriteCompletes : Obligations.MapWriteCompletes := by
  intro s lo vals pairs hs h1 h10 hlo hperm
  have hp : pairsArg pairs = .ok (lo, vals) := pairsArg_of_perm h1 h10 hlo hperm
  refine ⟨fun b more ss rs f hr hf => ?_, fun st q e he => ?_⟩
  · exact exec_mapWrite_of_done (mapWrite_of_reply (s := beginOperation s) hs hp h1 h10 hlo hr hf)
  · obtain ⟨v, hv⟩ := mapWrite_of_fails (s := beginOperation s) (cfg := s.cfg) hs hp h1 h10 hlo he
    exact ⟨v, exec_mapWrite_of_raised hv⟩

/-- The accepted pairs' addresses are exactly the run that is written (42_register_map.md R191). -/
theorem mem_pairAddrs_of_pairsArg {pairs : List (Byte × Byte)} {lo : Nat} {vals : List Byte}
    (h : pairsArg pairs = .ok (lo, vals)) (x : Nat) : x ∈ pairAddrs pairs ↔ lo ≤ x ∧ x < lo + vals.length := by
  obtain ⟨v, hp⟩ | ⟨_, _, hp, -, -, -, -, hmem⟩ := pairsArg_cases pairs
  · cases hp.symm.trans h
  · cases hp.symm.trans h
    exact hmem x

/-- As many addresses as the run is long, and every one of the run: none is repeated. -/
theorem nodup_of_mem_iff_run {l : List Nat} {lo : Nat} (h : ∀ x, x ∈ l ↔ lo ≤ x ∧ x < lo + l.length) : l.Nodup := by
  have hset : l.toFinset = Finset.Ico lo (lo + l.length) := by
    ext x
    simp [h]
  have hcard : l.toFinset.card = l.length := by rw [hset, Nat.card_Ico, Nat.add_sub_cancel_left]
  exact Multiset.coe_nodup.1 (Multiset.toFinset_card_eq_card_iff_nodup.1 hcard)

/-- Pairs that are accepted pass (42_register_map.md R191). -/
theorem pairsPass_of_pairsArg {pairs : List (Byte × Byte)} {lo : Nat} {vals : List Byte}
    (h : pairsArg pairs = .ok (lo, vals)) : PairsPass pairs := by
  obtain ⟨v, hp⟩ | ⟨_, _, hp, hlen, h1, h10, -, -⟩ := pairsArg_cases pairs
  · cases hp.symm.trans h
  cases hp.symm.trans h
  have hmem := mem_pairAddrs_of_pairsArg h
  have hal : vals.length = (pairAddrs pairs).length := by simp [pairAddrs, hlen]
  refine ⟨by omega, by omega, (nodup_pairAddrs pairs).1 (nodup_of_mem_iff_run (hal ▸ hmem)), ?_⟩
  intro p hp q hq x hpx hxq
  have hlow := (hmem _).1 (List.mem_map_of_mem hp)
  have hhigh := (hmem _).1 (List.mem_map_of_mem hq)
  exact List.mem_map.1 ((hmem x).2 (by omega))

/-- Pairs that do not pass are refused with InvalidRange, before the session is looked at (42_register_map.md R191). -/
theorem exec_mapWrite_of_not_pass {pairs : List (Byte × Byte)} (h : ¬ PairsPass pairs) (s : State) :
    ∃ v, exec (.mapWrite pairs) s = .next (s.ended .invalidRange v) := by
  obtain ⟨v, hp⟩ | ⟨_, _, hp, -⟩ := pairsArg_cases pairs
  · refine ⟨v, exec_mapWrite_of_raised (u := beginOperation s) (e := ⟨.invalidRange, v⟩) ?_⟩
    rw [mapWrite, hp, Op.lift_error_bind]
  · exact absurd (pairsPass_of_pairsArg hp) h

/-- Settles O25: such pairs do not pass. -/
theorem mapWriteRejectsBadRange : Obligations.MapWriteRejectsBadRange := by
  intro s pairs hbad
  refine exec_mapWrite_of_not_pass ?_ s
  rintro ⟨h1, h10, hnodup, hgap⟩
  obtain h0 | h11 | hrep | ⟨p, hp, q, hq, x, hpx, hxq, hx⟩ := hbad
  · omega
  · omega
  · exact hrep hnodup
  · obtain ⟨r, hr, hrx⟩ := hgap p hp q hq x hpx hxq
    exact hx r hr hrx

/-- An operation that ended with OK has not failed. -/
theorem State.not_failed_of_ok {s : State} {v : Value} (h : s.result = some ⟨.ok, v⟩) : ¬ s.Failed := by
  rintro ⟨r, hr, hne⟩
  cases h.symm.trans hr
  exact hne rfl

/-- Everything MAP_WRITE can do as a whole: no frame and no cell, with an error; one frame and no cell, with an error; or
one frame and the run of its pairs' addresses, with OK (42_register_map.md R191, 60_exceptions.md R342). -/
theorem exec_mapWrite_cases (pairs : List (Byte × Byte)) (s : State) :
    (∃ st v, exec (.mapWrite pairs) s = .next (s.ended st v)) ∨
      ∃ q env rxq,
        (∃ st v, exec (.mapWrite pairs) s = .next ((s.waited q rxq env).ended st v)) ∨
        ∃ lo vals, pairsArg pairs = .ok (lo, vals) ∧ exec (.mapWrite pairs) s =
          .next ({ s.waited q rxq env with cache := Memory.writeRun s.cache lo vals }.ended .ok .none) := by
  obtain ⟨v, h⟩ | ⟨-, h⟩ | ⟨-, lo, vals, env, rxq, hp, -, -, -, h | ⟨e, -, h⟩⟩ :=
    mapWrite_cases s.cfg pairs (beginOperation s)
  · exact .inl ⟨_, _, (exec_mapWrite_of_raised h :)⟩
  · exact .inl ⟨_, _, (exec_mapWrite_of_raised h :)⟩
  · exact .inr ⟨_, env, rxq, .inr ⟨lo, vals, hp, (exec_mapWrite_of_done h :)⟩⟩
  · exact .inr ⟨_, env, rxq, .inl ⟨_, _, (exec_mapWrite_of_raised h :)⟩⟩

/-- Settles O26: only the success writes cells, and these are the pairs' own. -/
theorem mapWriteFrame : Obligations.MapWriteFrame := by
  intro s t pairs h
  obtain ⟨st, v, hx⟩ | ⟨q, env, rxq, ⟨st, v, hx⟩ | ⟨lo, vals, hp, hx⟩⟩ := exec_mapWrite_cases pairs s <;>
    cases hx.symm.trans h
  · exact ⟨rfl, rfl, rfl, rfl, .inl rfl, fun _ _ => rfl, fun _ => rfl⟩
  · exact ⟨rfl, rfl, rfl, rfl, .inr ⟨q, rfl⟩, fun _ _ => rfl, fun _ => rfl⟩
  · refine ⟨rfl, rfl, rfl, rfl, .inr ⟨q, rfl⟩, fun a ha => ?_, fun hf => absurd hf (State.not_failed_of_ok rfl)⟩
    have hout : ¬ (lo ≤ a ∧ a < lo + vals.length) := fun hr => ha ((mem_pairAddrs_of_pairsArg hp a).2 hr)
    exact Memory.read_writeRun_outside _ _ _ _ (by omega)

end Sys2Proof.Machine

/-! ## The windows of MAP_BULK_READ

The windows run in their order, so each claim about the bulk read is an induction on how many of them ran; the windows of
`List.range 20` are the first n, window n and the rest (42_register_map.md R192, R193). -/

namespace Sys2Proof.Machine

/-- Windows one after another are the first of them, then the others. -/
theorem bulkWindows_append (cfg : Config) (as bs : List Nat) :
    bulkWindows cfg (as ++ bs) = (bulkWindows cfg as).bind fun _ => bulkWindows cfg bs := by
  induction as with
  | nil => rfl
  | cons k as ih =>
    funext s
    simp only [List.cons_append, bulkWindows, ih, Op.bind_assoc]

/-- The twenty windows, cut behind the first n. -/
theorem exists_range_windows {n : Nat} (hn : n < 20) : ∃ rest, List.range 20 = List.range n ++ n :: rest := by
  refine ⟨(List.range (19 - n)).map (n + 1 + ·), ?_⟩
  rw [show 20 = n + ((19 - n) + 1) by omega, List.range_add, List.range_succ_eq_map]
  simp [Function.comp_def, Nat.add_assoc, Nat.add_comm 1]

/-- Once the first n windows went on, window n is next: the counter k is put to n (42_register_map.md R192). -/
theorem bulkWindows_next {cfg : Config} {n : Nat} {rest : List Nat} {s u : State}
    (h : bulkWindows cfg (List.range n) s = .done () u) :
    bulkWindows cfg (List.range n ++ n :: rest) s =
      (bulkWindow cfg).bind (fun _ => bulkWindows cfg rest) { u with seqK := n } := by
  rw [bulkWindows_append, Op.bind_of_done h, bulkWindows, Op.update_bind]

/-- A window that raises ends all that were to follow. -/
theorem bulkWindows_of_raised {cfg : Config} {n : Nat} {rest : List Nat} {s u w : State} {e : Raise}
    (h : bulkWindows cfg (List.range n) s = .done () u) (hw : bulkWindow cfg { u with seqK := n } = .raised e w) :
    bulkWindows cfg (List.range n ++ n :: rest) s = .raised e w := by
  rw [bulkWindows_next h, Op.bind_of_raised hw]

/-- The first n windows and window n are the first n + 1. -/
theorem bulkWindows_succ_of_done {cfg : Config} {n : Nat} {s u w : State}
    (h : bulkWindows cfg (List.range n) s = .done () u) (hw : bulkWindow cfg { u with seqK := n } = .done () w) :
    bulkWindows cfg (List.range (n + 1)) s = .done () w := by
  rw [List.range_succ, bulkWindows_next h, Op.bind_of_done hw]
  rfl

/-- In a session, MAP_BULK_READ ends with OK where its windows went on (42_register_map.md R192). -/
theorem exec_mapBulkRead_of_done {s u : State} (hs : s.sess = .connected)
    (h : bulkWindows s.cfg (List.range 20) (beginOperation s) = .done () u) :
    exec .mapBulkRead s = .next (u.ended .ok .none) :=
  congrArg _ (runOperation_of_done (noValue_of_done ((requireConnected_bind_begin _ hs).trans h)))

/-- In a session, MAP_BULK_READ ends with what a window raised (42_register_map.md R192). -/
theorem exec_mapBulkRead_of_raised {s u : State} {e : Raise} (hs : s.sess = .connected)
    (h : bulkWindows s.cfg (List.range 20) (beginOperation s) = .raised e u) :
    exec .mapBulkRead s = .next (u.ended e.status e.value) :=
  congrArg _ (runOperation_of_raised (noValue_of_raised ((requireConnected_bind_begin _ hs).trans h)))

/-- Without a session MAP_BULK_READ sends nothing (44_session.md R295). -/
theorem exec_mapBulkRead_of_disconnected {s : State} (hs : s.sess = .disconnected) :
    exec .mapBulkRead s = .next (s.ended .notConnected .none) := by
  have h : mapBulkRead s.cfg (beginOperation s) = .raised ⟨.notConnected, .none⟩ (beginOperation s) :=
    Op.bind_of_raised (requireConnected_of_disconnected hs)
  exact congrArg _ (runOperation_of_raised (noValue_of_raised h))

/-- No window answered: every cell reads as before. -/
theorem HoldsWindows.nil (m : Memory) : HoldsWindows m m [] := fun _ => rfl

/-! ### A device that answers -/

/-- The first windows answered one after another went on, and the state is as their requests and cells left it, but for the
counters (42_register_map.md R192). -/
theorem bulkWindows_of_answered {s : State} {fs : List Frame} {q : List (List Byte)} {e : Env}
    (h : WindowsAnswered s.cfg s.rxq s.env fs q e) (hl : fs.length ≤ 20) :
    ∃ m k d, HoldsWindows m s.cache fs ∧ bulkWindows s.cfg (List.range fs.length) s =
      .done () { s.bulkMoved fs.length m q e with seqK := k, seqD := d } := by
  induction h with
  | nil =>
    refine ⟨s.cache, s.seqK, s.seqD, .nil _, ?_⟩
    simp [bulkWindows, State.bulkMoved]
  | @next fs f q q' e e' _ ha hecho ih =>
    rw [List.length_append, List.length_singleton] at hl
    obtain ⟨m, k, d, hm, hrun⟩ := ih (by omega)
    obtain ⟨d', hdone, -⟩ := bulkWindow_of_answers (cfg := s.cfg)
      (s := { s.bulkMoved fs.length m q e with seqK := fs.length, seqD := d }) (by simp only []; omega) ha
    refine ⟨_, fs.length, d', hm.snoc f, ?_⟩
    rw [List.length_append, List.length_singleton, bulkWindows_succ_of_done hrun (hdone hecho)]
    simp [State.bulkMoved, State.waited, bulkRequests_succ]

/-- Settles O27: the windows answered went on, and the next one's reply ends the operation where it does not echo. -/
theorem bulkReadCompletes : Obligations.BulkReadCompletes := by
  intro s fs q e hs hw
  constructor
  · intro h20
    obtain ⟨m, k, d, hm, hrun⟩ := bulkWindows_of_answered (s := beginOperation s) hw (by omega)
    rw [h20] at hrun
    exact ⟨m, hm, (exec_mapBulkRead_of_done hs hrun :)⟩
  · intro f q' e' hlt ha hecho
    obtain ⟨m, k, d, hm, hrun⟩ := bulkWindows_of_answered (s := beginOperation s) hw (by omega)
    obtain ⟨rest, hrest⟩ := exists_range_windows hlt
    obtain ⟨d', -, hraise⟩ := bulkWindow_of_answers (cfg := s.cfg)
      (s := { (beginOperation s).bulkMoved fs.length m q e with seqK := fs.length, seqD := d }) hlt ha
    obtain ⟨v, hv⟩ := hraise hecho
    refine ⟨m, v, hm, (exec_mapBulkRead_of_raised hs (hrest ▸ bulkWindows_of_raised hrun hv)).trans ?_⟩
    simp [State.bulkMoved, State.waited, State.ended, bulkRequests_succ]

/-! ### Any device -/

/-- Each reply was accepted for its window: a valid frame of the memory-read command that echoes it
(42_register_map.md R192). -/
def AcceptedReplies (cfg : Config) (replies : List Frame) : Prop :=
  ∀ k f, replies[k]? = some f → f.checksum = cksum f.body ∧ f.command = cfg.params.cmdMemread ∧ EchoesWindow k f

theorem AcceptedReplies.nil (cfg : Config) : AcceptedReplies cfg [] := nofun

theorem AcceptedReplies.snoc {cfg : Config} {replies : List Frame} (h : AcceptedReplies cfg replies) {f : Frame}
    (hf : f.checksum = cksum f.body ∧ f.command = cfg.params.cmdMemread ∧ EchoesWindow replies.length f) :
    AcceptedReplies cfg (replies ++ [f]) := by
  intro k g hg
  by_cases hk : k < replies.length
  · exact h k g (by rwa [List.getElem?_append_left hk] at hg)
  · rw [List.getElem?_append_right (by omega), List.getElem?_singleton] at hg
    split at hg <;> cases hg
    rwa [show k = replies.length by omega]

/-- From `s` to `u` the first n requests of a bulk read were sent, and the windows of the replies accepted are stored. -/
structure WindowsStored (cfg : Config) (s u : State) (replies : List Frame) (n : Nat) : Prop where
  accepted : AcceptedReplies cfg replies
  holds : HoldsWindows u.cache s.cache replies
  tx : u.tx = s.tx ++ bulkRequests cfg n

/-- Everything window n can do behind n windows stored: one more is stored, or the run ends with an error
(42_register_map.md R192). -/
theorem bulkWindow_after {cfg : Config} {s u : State} {replies : List Frame}
    (h : WindowsStored cfg s u replies replies.length) (hl : replies.length < 20) :
    (∃ f w, bulkWindow cfg { u with seqK := replies.length } = .done () w ∧
        WindowsStored cfg s w (replies ++ [f]) (replies.length + 1)) ∨
      ∃ e w, e.status ≠ .ok ∧ bulkWindow cfg { u with seqK := replies.length } = .raised e w ∧
        WindowsStored cfg s w replies (replies.length + 1) := by
  obtain ⟨env, rxq, d, ⟨f, hc, hk, hecho, hw⟩ | ⟨e, hw, he⟩⟩ :=
    bulkWindow_cases cfg { u with seqK := replies.length } hl
  · refine .inl ⟨f, _, hw, h.accepted.snoc ⟨hk, hc, hecho⟩, h.holds.snoc f, ?_⟩
    simp [h.tx, bulkRequests_succ]
  · refine .inr ⟨e, _, ?_, hw, h.accepted, h.holds, ?_⟩
    · rintro hok
      simp [hok, recvErrors] at he
    · simp [h.tx, bulkRequests_succ]

/-- Everything the first n windows can do: all n are stored, or an error ends them behind fewer (42_register_map.md
R193). -/
theorem bulkWindows_cases (cfg : Config) (s : State) {n : Nat} (hn : n ≤ 20) :
    (∃ replies u, replies.length = n ∧ bulkWindows cfg (List.range n) s = .done () u ∧
        WindowsStored cfg s u replies n) ∨
      ∃ replies e u, replies.length < n ∧ e.status ≠ .ok ∧ bulkWindows cfg (List.range n) s = .raised e u ∧
        WindowsStored cfg s u replies (replies.length + 1) := by
  induction n with
  | zero => exact .inl ⟨[], s, rfl, rfl, .nil cfg, .nil _, by simp⟩
  | succ n ih =>
    obtain ⟨replies, u, rfl, hrun, hu⟩ | ⟨replies, e, u, hl, he, hrun, hu⟩ := ih (by omega)
    · obtain ⟨f, w, hw, hst⟩ | ⟨e, w, he, hw, hend⟩ := bulkWindow_after hu hn
      · exact .inl ⟨replies ++ [f], w, List.length_append, bulkWindows_succ_of_done hrun hw, hst⟩
      · refine .inr ⟨replies, e, w, by omega, he, ?_, hend⟩
        rw [List.range_succ, bulkWindows_of_raised hrun hw]
    · refine .inr ⟨replies, e, u, by omega, he, ?_, hu⟩
      rw [List.range_succ, bulkWindows_append, Op.bind_of_raised hrun]

/-- Everything MAP_BULK_READ can do: OK behind twenty windows stored, an error behind fewer, or NotConnected and no request
(42_register_map.md R193, 60_exceptions.md R342). -/
theorem exec_mapBulkRead_cases (s : State) :
    ∃ t replies, exec .mapBulkRead s = .next t ∧
      ((t.result = some ⟨.ok, .none⟩ ∧ replies.length = 20 ∧ WindowsStored s.cfg s t replies 20) ∨
        (t.Failed ∧ s.sess = .connected ∧ replies.length < 20 ∧ WindowsStored s.cfg s t replies (replies.length + 1)) ∨
        (t.Failed ∧ s.sess = .disconnected ∧ replies = [] ∧ t.cache = s.cache ∧ t.tx = s.tx)) := by
  cases hs : s.sess with
  | disconnected =>
    exact ⟨_, [], exec_mapBulkRead_of_disconnected hs, .inr (.inr ⟨⟨_, rfl, nofun⟩, rfl, rfl, rfl, rfl⟩)⟩
  | connected =>
    obtain ⟨replies, u, hl, hrun, hu⟩ | ⟨replies, e, u, hl, he, hrun, hu⟩ :=
      bulkWindows_cases s.cfg (beginOperation s) (Nat.le_refl 20)
    · exact ⟨_, replies, exec_mapBulkRead_of_done hs hrun, .inl ⟨rfl, hl, hu.accepted, hu.holds, hu.tx⟩⟩
    · exact ⟨_, replies, exec_mapBulkRead_of_raised hs hrun,
        .inr (.inl ⟨⟨_, rfl, he⟩, rfl, hl, hu.accepted, hu.holds, hu.tx⟩)⟩

/-- Twenty windows held: their cells are populated, and those past them read as before (20_memory.md R73). -/
theorem HoldsWindows.twenty {m m0 : Memory} {replies : List Frame} (h : HoldsWindows m m0 replies)
    (hl : replies.length = 20) :
    (∀ a, a < 200 → (Memory.read m a).isSome = true) ∧ ∀ a, 200 ≤ a → Memory.read m a = Memory.read m0 a := by
  constructor
  · intro a ha
    rw [h a, if_pos (by omega), List.getElem?_eq_getElem (by omega)]
    rfl
  · intro a ha
    rw [h a, if_neg (by omega)]

/-- Settles O28: the three ends of a bulk read each say what was sent and stored; with OK it is the first of them. -/
theorem bulkReadWindows : Obligations.BulkReadWindows := by
  intro s t h
  obtain ⟨t', replies, hx, hend⟩ := exec_mapBulkRead_cases s
  cases hx.symm.trans h
  obtain ⟨hok, hl, hst⟩ | ⟨hf, hs, hl, hst⟩ | ⟨hf, hs, rfl, hcache, htx⟩ := hend
  · obtain ⟨hpop, hrest⟩ := hst.holds.twenty hl
    exact ⟨fun _ => ⟨hst.tx, hpop, hrest⟩, replies, hst.accepted, hst.holds, .inl ⟨hok, hl⟩⟩
  · exact ⟨fun hok => absurd hf (State.not_failed_of_ok hok), replies, hst.accepted, hst.holds,
      .inr (.inl ⟨hf, hs, hl, hst.tx⟩)⟩
  · exact ⟨fun hok => absurd hf (State.not_failed_of_ok hok), [], AcceptedReplies.nil s.cfg, hcache ▸ .nil _,
      .inr (.inr ⟨hf, hs, rfl, htx⟩)⟩

end Sys2Proof.Machine

/-! ## The getters

A getter is the generic one of its field, and over populated cells that one is the field's decoder: it answers or refuses
what the cells hold, and changes nothing (42_register_map.md R201). -/

namespace Sys2Proof.Machine

/-- The one-byte getters of the fields with the codec c. -/
def gettersOf (c : Codec) : List (Instr × SettingField) := scalarGetters.filter fun g => codecOf g.2 = c

theorem mem_gettersOf {c : Codec} {g : Instr × SettingField} : g ∈ gettersOf c ↔ g ∈ scalarGetters ∧ codecOf g.2 = c := by
  simp [gettersOf]

/-- A one-byte getter is the generic getter of its field, which has one value cell (42_register_map.md R210 to R221). -/
theorem exec_scalarGetter {g : Instr × SettingField} (h : g ∈ scalarGetters) (s : State) :
    g.2.size = 1 ∧ exec g.1 s = .next (runOperation (getField s.cfg g.2) s) := by
  fin_cases h <;> exact ⟨rfl, rfl⟩

/-- GET_DPI of a mode that exists is the generic getter of the mode's DPI group (42_register_map.md R222). -/
theorem exec_getDpi_of_mode {a : Byte} {m : Fin 4} (h : a.toNat = m.val) (s : State) :
    exec (.getDpi a) s = .next (runOperation (getField s.cfg (.dpi m)) s) := by
  change execGetDpi a s = _
  rw [execGetDpi, modeArg_of_eq h]
  rfl

/-- GET_COLOR of a mode that exists is the generic getter of the mode's colour group (42_register_map.md R223). -/
theorem exec_getColor_of_mode {a : Byte} {m : Fin 4} (h : a.toNat = m.val) (s : State) :
    exec (.getColor a) s = .next (runOperation (getField s.cfg (.color m)) s) := by
  change execGetColor a s = _
  rw [execGetColor, modeArg_of_eq h]
  rfl

/-- GET_DPI of any other mode is refused (42_register_map.md R202). -/
theorem exec_getDpi_of_four_le {a : Byte} (h : 4 ≤ a.toNat) (s : State) :
    exec (.getDpi a) s = .next (s.ended .invalidValue (.nat a.toNat)) := by
  change execGetDpi a s = _
  rw [execGetDpi, modeArg_of_four_le h]
  rfl

/-- GET_COLOR of any other mode is refused (42_register_map.md R202). -/
theorem exec_getColor_of_four_le {a : Byte} (h : 4 ≤ a.toNat) (s : State) :
    exec (.getColor a) s = .next (s.ended .invalidValue (.nat a.toNat)) := by
  change execGetColor a s = _
  rw [execGetColor, modeArg_of_four_le h]
  rfl

/-- Over populated cells the generic getter is its field's decoder (42_register_map.md R201). -/
theorem runOperation_getField_of_holds {s : State} {f : SettingField} {raw : List Byte} (hl : raw.length = f.size)
    (h : HoldsRun s.cache (s.cfg.params.addr f).toNat raw) :
    .next (runOperation (getField s.cfg f) s) = pureOperation (codecDec s.cfg (codecOf f) raw) s := by
  have hget := getField_of_holds (s := beginOperation s) (cfg := s.cfg) hl h
  rw [pureOperation, runOperation, hget, runOperation]

/-- The generic getter raises NotPopulated at the first unpopulated cell (42_register_map.md R201). -/
theorem runOperation_getField_of_hole {s : State} {f : SettingField} {i : Nat} (hi : i < f.size)
    (hp : ∀ j, j < i → Memory.read s.cache ((s.cfg.params.addr f).toNat + j) ≠ none)
    (hn : Memory.read s.cache ((s.cfg.params.addr f).toNat + i) = none) :
    runOperation (getField s.cfg f) s = s.ended .notPopulated (.nat ((s.cfg.params.addr f).toNat + i)) :=
  runOperation_of_raised (u := beginOperation s) (getField_of_hole hi hp hn)

/-- A one-byte getter over a populated cell is its field's decoder. -/
theorem exec_scalarGetter_of_cell {g : Instr × SettingField} {c : Codec} {s : State} {b : Byte} (hg : g ∈ gettersOf c)
    (h : Memory.read s.cache (s.cfg.params.addr g.2).toNat = some b) :
    exec g.1 s = pureOperation (codecDec s.cfg c [b]) s := by
  obtain ⟨hmem, rfl⟩ := mem_gettersOf.1 hg
  obtain ⟨hsize, hx⟩ := exec_scalarGetter hmem s
  rw [hx, runOperation_getField_of_holds (raw := [b]) hsize.symm (holdsRun_one h)]

/-- Settles O29: one byte is decoded as itself, or as a flag. -/
theorem byteAndFlagGetterRules : Obligations.ByteAndFlagGetterRules := by
  intro s b
  constructor
  · intro g hg hcell
    have hbyte : g ∈ gettersOf .byte := hg
    rw [exec_scalarGetter_of_cell hbyte hcell]
    exact pureOperation_of_ok rfl s
  · intro g hg hcell
    have hflag : g ∈ gettersOf .bool := hg
    rw [exec_scalarGetter_of_cell hflag hcell]
    exact ⟨fun h => pureOperation_of_ok (congrArg (mapOk _) (boolOfByte_of_le h)) s,
      fun h => pureOperation_of_error (congrArg (mapOk _) (boolOfByte_of_two_le h)) s⟩

/-! ### Coded bytes -/

/-- POLL_DEC of a byte that is no polling code (43_value_codecs.md R259). -/
theorem pollDec_of_no_code {cfg : Config} {b : Byte} (h : ∀ r, b ≠ cfg.params.pollCode r) :
    pollDec cfg [b] = .error ⟨.invalidEncoding, .byte b⟩ := by
  simp [pollDec, oneByte, h]

/-- EFFECT_DEC of a byte that is no effect code (43_value_codecs.md R257). -/
theorem effectDec_of_no_code {cfg : Config} {b : Byte} (h : ∀ e, b ≠ cfg.params.effectCode e) :
    effectDec cfg [b] = .error ⟨.invalidEncoding, .byte b⟩ := by
  simp [effectDec, oneByte, h]

/-- IDX_DEC of a byte 0..3 (43_value_codecs.md R263). -/
theorem idxDec_of_le {b : Byte} (h : b.toNat ≤ 3) : idxDec [b] = .ok b.toNat := if_neg (Nat.not_lt.2 h)

/-- IDX_DEC of any other byte (43_value_codecs.md R263). -/
theorem idxDec_of_three_lt {b : Byte} (h : 3 < b.toNat) : idxDec [b] = .error ⟨.invalidEncoding, .byte b⟩ := if_pos h

/-- Settles O30, getter by getter: the decoder of the field tells the codes it takes from those it refuses. -/
theorem codedGetterRules : Obligations.CodedGetterRules := by
  intro s b
  refine ⟨?poll, ?idx, ?effect, ?sleep⟩ <;> intro hcell
  case poll =>
    have hx : exec .getPoll s = _ :=
      exec_scalarGetter_of_cell (g := (.getPoll, .poll)) (c := .poll) (List.mem_singleton.2 rfl) hcell
    rw [hx]
    refine ⟨?_, fun h => pureOperation_of_error (congrArg (mapOk _) (pollDec_of_no_code h)) s⟩
    rintro r rfl
    exact pureOperation_of_ok (congrArg (mapOk _) (pollDec_pollCode s.cfg r)) s
  case idx =>
    have hx : exec .getDpiIdx s = _ :=
      exec_scalarGetter_of_cell (g := (.getDpiIdx, .dpiIdx)) (c := .idx) (List.mem_singleton.2 rfl) hcell
    rw [hx]
    exact ⟨fun h => pureOperation_of_ok (congrArg (mapOk _) (idxDec_of_le h)) s,
      fun h => pureOperation_of_error (congrArg (mapOk _) (idxDec_of_three_lt h)) s⟩
  case effect =>
    have hx : exec .getLedEffect s = _ :=
      exec_scalarGetter_of_cell (g := (.getLedEffect, .ledEffect)) (c := .effect) (List.mem_singleton.2 rfl) hcell
    rw [hx]
    refine ⟨?_, fun h => pureOperation_of_error (congrArg (mapOk _) (effectDec_of_no_code h)) s⟩
    rintro e rfl
    exact pureOperation_of_ok (congrArg (mapOk _) (effectDec_effectCode s.cfg e)) s
  case sleep =>
    have hx : exec .getAutosleep s = _ :=
      exec_scalarGetter_of_cell (g := (.getAutosleep, .autosleep)) (c := .sleep) (List.mem_singleton.2 rfl) hcell
    rw [hx]
    exact pureOperation_of_ok rfl s

/-! ### Mode slots -/

/-- GET_DPI of a mode whose group is populated is DPI_DEC of the group (42_register_map.md R222). -/
theorem exec_getDpi_of_group {a : Byte} {m : Fin 4} {s : State} {raw : List Byte} (ha : a.toNat = m.val)
    (hl : raw.length = 3) (h : HoldsRun s.cache (s.cfg.params.addr (.dpi m)).toNat raw) :
    exec (.getDpi a) s = pureOperation (mapOk .nat (dpiDec raw)) s :=
  (exec_getDpi_of_mode ha s).trans (runOperation_getField_of_holds hl h)

/-- GET_COLOR of a mode whose group is populated is COLOR_DEC of the group (42_register_map.md R223). -/
theorem exec_getColor_of_group {a : Byte} {m : Fin 4} {s : State} {raw : List Byte} (ha : a.toNat = m.val)
    (hl : raw.length = 3) (h : HoldsRun s.cache (s.cfg.params.addr (.color m)).toNat raw) :
    exec (.getColor a) s = pureOperation (mapOk .text (colorDec raw)) s :=
  (exec_getColor_of_mode ha s).trans (runOperation_getField_of_holds hl h)

/-- The two nibbles of a byte are below 16, so each is written with its lower-case digit (43_value_codecs.md R253). -/
theorem isLowerHexDigit_nibbles (b : Byte) :
    IsLowerHexDigit (hexDigit (highNibble b)) (b.toNat / 16) ∧ IsLowerHexDigit (hexDigit (lowNibble b)) (b.toNat % 16) :=
  ⟨isLowerHexDigit_hexDigit (n := b.toNat / 16) (by omega), isLowerHexDigit_hexDigit (n := b.toNat % 16) (by omega)⟩

/-- Settles O31: the mode is checked, and then the group's decoder answers. -/
theorem modeGetterRules : Obligations.ModeGetterRules := by
  intro s a
  refine ⟨fun m ha b0 b1 b2 => ⟨fun hh => ?dpi, fun hh => ?color⟩,
    fun ha => ⟨exec_getDpi_of_four_le ha s, exec_getColor_of_four_le ha s⟩⟩
  case dpi =>
    rw [exec_getDpi_of_group ha rfl hh]
    refine ⟨fun h h' h'' => pureOperation_of_ok (congrArg (mapOk _) (dpiDec_of_valid ⟨h, h', h''⟩)) s, fun h => ?_⟩
    obtain ⟨v, hv⟩ := dpiDec_of_invalid (b0 := b0) (b1 := b1) (b2 := b2) (by tauto)
    exact ⟨v, pureOperation_of_error (congrArg (mapOk _) hv) s⟩
  case color =>
    obtain ⟨h0, h0'⟩ := isLowerHexDigit_nibbles b0
    obtain ⟨h1, h1'⟩ := isLowerHexDigit_nibbles b1
    obtain ⟨h2, h2'⟩ := isLowerHexDigit_nibbles b2
    rw [exec_getColor_of_group ha rfl hh]
    exact ⟨_, _, _, _, _, _, h0, h0', h1, h1', h2, h2', pureOperation_of_ok rfl s⟩

/-- Settles O32: a getter is the generic one, which stops at the first unpopulated cell of the group. -/
theorem gettersNeedPopulatedCells : Obligations.GettersNeedPopulatedCells := by
  intro s
  refine ⟨fun g hg hn => ?scalar, fun a m i ha hi => ⟨fun hp hn => ?dpi, fun hp hn => ?color⟩⟩
  case scalar =>
    obtain ⟨hsize, hx⟩ := exec_scalarGetter hg s
    rw [hx, runOperation_getField_of_hole (i := 0) (by omega) nofun hn]
    rfl
  case dpi => rw [exec_getDpi_of_mode ha, runOperation_getField_of_hole hi hp hn]
  case color => rw [exec_getColor_of_mode ha, runOperation_getField_of_hole hi hp hn]

end Sys2Proof.Machine

/-! ## The setters

A setter is the generic one of its field: its encoder refuses the value before anything happens, or the setter is the one
MAP_WRITE of the encoded bytes and their checksum (42_register_map.md R200). -/

namespace Sys2Proof.Machine

/-- The one-byte setters of the fields with the codec c. -/
def settersOf (c : Codec) : List ((Word32 → Instr) × SettingField) := scalarSetters.filter fun g => codecOf g.2 = c

theorem mem_settersOf {c : Codec} {g : (Word32 → Instr) × SettingField} :
    g ∈ settersOf c ↔ g ∈ scalarSetters ∧ codecOf g.2 = c := by
  simp [settersOf]

/-! ### The generic setter -/

/-- Under one valid reply the generic setter has written its encoded value and the checksum (42_register_map.md R200). -/
theorem runOperation_setField_of_reply {s : State} {f : SettingField} {v : Word32} {text : List Ascii}
    {raw b : List Byte} {more : List (List Byte)} {ss : List LinkResult} {rs : List RecvDraw} {r : Frame}
    (hs : s.sess = .connected) (hr : s.RepliedBy b more ss rs) (hf : Frame.parse b = .ok r)
    (he : codecEnc s.cfg (codecOf f) v text = .ok raw) :
    runOperation (noValue (setField s.cfg f v text)) s = s.settingWritten f raw more ss rs :=
  runOperation_of_done (noValue_of_done (setField_of_reply (s := beginOperation s) hs he hr hf))

/-- A value its encoder refuses ends the generic setter before anything happens (42_register_map.md R200). -/
theorem runOperation_setField_of_error {s : State} {f : SettingField} {v : Word32} {text : List Ascii} {e : Raise}
    (he : codecEnc s.cfg (codecOf f) v text = .error e) :
    runOperation (noValue (setField s.cfg f v text)) s = s.ended e.status e.value :=
  runOperation_of_raised (u := beginOperation s) (noValue_of_raised (setField_of_error he))

/-- With a value its encoder takes, the generic setter is MAP_WRITE of the field's pairs (42_register_map.md R200). -/
theorem runOperation_setField_of_ok {s : State} {f : SettingField} {v : Word32} {text : List Ascii} {raw : List Byte}
    (he : codecEnc s.cfg (codecOf f) v text = .ok raw) :
    .next (runOperation (noValue (setField s.cfg f v text)) s) = exec (.mapWrite (settingPairs s.cfg f raw)) s := by
  have hset : setField s.cfg f v text = mapWrite s.cfg (settingPairs s.cfg f raw) := by
    rw [setField, he]
    rfl
  rw [hset]
  rfl

/-- A one-byte setter under one valid reply. -/
theorem exec_scalarSetter_of_reply {g : (Word32 → Instr) × SettingField} {c : Codec} {v : Word32} {s : State}
    {raw b : List Byte} {more : List (List Byte)} {ss : List LinkResult} {rs : List RecvDraw} {r : Frame}
    (hs : s.sess = .connected) (hr : s.RepliedBy b more ss rs) (hf : Frame.parse b = .ok r) (hg : g ∈ settersOf c)
    (he : codecEnc s.cfg c v [] = .ok raw) : exec (g.1 v) s = .next (s.settingWritten g.2 raw more ss rs) := by
  obtain ⟨hmem, rfl⟩ := mem_settersOf.1 hg
  rw [exec_scalarSetter hmem, runOperation_setField_of_reply hs hr hf he]

/-- A one-byte setter with a value its codec refuses. -/
theorem exec_scalarSetter_of_error {g : (Word32 → Instr) × SettingField} {c : Codec} {v : Word32} {s : State}
    {e : Raise} (hg : g ∈ settersOf c) (he : codecEnc s.cfg c v [] = .error e) :
    exec (g.1 v) s = .next (s.ended e.status e.value) := by
  obtain ⟨hmem, rfl⟩ := mem_settersOf.1 hg
  rw [exec_scalarSetter hmem, runOperation_setField_of_error he]

/-- A mode argument below 4 is a mode (42_register_map.md R202). -/
theorem exists_mode {a : Byte} (h : a.toNat < 4) : ∃ m : Fin 4, a.toNat = m.val := ⟨⟨a.toNat, h⟩, rfl⟩

/-- SET_DPI of a mode that does not exist is refused, whatever the value (42_register_map.md R202). -/
theorem exec_setDpi_of_four_le {a : Byte} (h : 4 ≤ a.toNat) (v : Word32) (s : State) :
    exec (.setDpi a v) s = .next (s.ended .invalidValue (.nat a.toNat)) := by
  change execSetDpi a v s = _
  rw [execSetDpi, modeArg_of_four_le h]
  rfl

/-- SET_COLOR of a mode that does not exist is refused, whatever the text (42_register_map.md R202). -/
theorem exec_setColor_of_four_le {a : Byte} (h : 4 ≤ a.toNat) (text : List Ascii) (s : State) :
    exec (.setColor a text) s = .next (s.ended .invalidValue (.nat a.toNat)) := by
  change execSetColor a text s = _
  rw [execSetColor, modeArg_of_four_le h]
  rfl

/-! ### What the encoders take -/

/-- POLL_ENC of a rate's number of Hz (43_value_codecs.md R258). -/
theorem pollEnc_of_rate {cfg : Config} {v : Word32} {r : PollRate} (h : v.toNat = pollHz r) :
    pollEnc cfg v = .ok (cfg.params.pollCode r) := by
  have hr : pollOfHz (pollHz r) = some r := by cases r <;> rfl
  simp only [pollEnc, h, hr]

/-- EFFECT_ENC of an effect's index (43_value_codecs.md R256). -/
theorem effectEnc_of_index {cfg : Config} {v : Word32} {e : Effect} (h : effectOfIndex v.toNat = some e) :
    effectEnc cfg v = .ok (cfg.params.effectCode e) := by
  simp only [effectEnc, h]

/-- Settles O33: each value is encoded as its byte, and the generic setter writes it. -/
theorem numberSettersComplete : Obligations.NumberSettersComplete := by
  intro s v b more ss rs f x hs hr hf
  refine ⟨fun h g hg => ?byte, fun h h3 => ?idx, fun h => ?sleep⟩
  case byte =>
    have hbyte : g ∈ settersOf .byte := hg
    exact exec_scalarSetter_of_reply hs hr hf hbyte (congrArg (mapOk _) (byteEnc_of_byte h))
  case idx =>
    exact exec_scalarSetter_of_reply (g := (.setDpiIdx, .dpiIdx)) (c := .idx) hs hr hf
      (List.mem_singleton.2 rfl)
      (congrArg (mapOk _) (idxEnc_of_le h h3))
  case sleep =>
    exact exec_scalarSetter_of_reply (g := (.setAutosleep, .autosleep)) (c := .sleep) hs hr hf
      (List.mem_singleton.2 rfl)
      (congrArg (mapOk _) (sleepEnc_of_units h))

/-- Settles O34: each value is encoded as its code, and the generic setter writes it. -/
theorem codedSettersComplete : Obligations.CodedSettersComplete := by
  intro s v b more ss rs f hs hr hf
  refine ⟨fun x h h1 g hg => ?flag, fun r h => ?poll, fun e h => ?effect⟩
  case flag =>
    have hflag : g ∈ settersOf .bool := hg
    exact exec_scalarSetter_of_reply hs hr hf hflag (congrArg (mapOk _) (boolEnc_of_le h h1))
  case poll =>
    exact exec_scalarSetter_of_reply (g := (.setPoll, .poll)) (c := .poll) hs hr hf (List.mem_singleton.2 rfl)
      (congrArg (mapOk _) (pollEnc_of_rate h))
  case effect =>
    exact exec_scalarSetter_of_reply (g := (.setLedEffect, .ledEffect)) (c := .effect) hs hr hf
      (List.mem_singleton.2 rfl) (congrArg (mapOk _) (effectEnc_of_index h))

/-- Settles O35: the mode exists, and the value or the text is encoded as the three bytes named. -/
theorem modeSettersComplete : Obligations.ModeSettersComplete := by
  intro s a m b more ss rs f hs hr hf ha
  constructor
  · intro v lo p h50 hmax hmod hlo hp
    have he : codecEnc s.cfg (codecOf (.dpi m)) v [] = _ := dpiEnc_of_valid (by omega) hmod hlo hp
    rw [exec_setDpi_of_mode ha, runOperation_setField_of_reply hs hr hf he]
  · intro text r1 r0 g1 g0 b1 b0 r g x htext hr' hg hx
    have he : codecEnc s.cfg (codecOf (.color m)) 0 text = _ := colorEnc_of_digits htext hr' hg hx
    rw [exec_setColor_of_mode ha, runOperation_setField_of_reply hs hr hf he]

/-! ### What the encoders refuse -/

/-- BYTE_ENC of a value past a byte (43_value_codecs.md R260). -/
theorem byteEnc_of_lt {v : Word32} (h : 255 < v.toNat) : byteEnc v = .error ⟨.invalidValue, .nat v.toNat⟩ := if_pos h

/-- BOOL_ENC of a value past 1 (43_value_codecs.md R254). -/
theorem boolEnc_of_lt {v : Word32} (h : 1 < v.toNat) : boolEnc v = .error ⟨.invalidValue, .nat v.toNat⟩ := if_pos h

/-- IDX_ENC of a value past 3 (43_value_codecs.md R262). -/
theorem idxEnc_of_lt {v : Word32} (h : 3 < v.toNat) : idxEnc v = .error ⟨.invalidValue, .nat v.toNat⟩ := if_pos h

/-- SLEEP_ENC of no multiple of ten, or of too many seconds (43_value_codecs.md R264). -/
theorem sleepEnc_of_not_units {v : Word32} (h : v.toNat % 10 ≠ 0 ∨ 2550 < v.toNat) :
    sleepEnc v = .error ⟨.invalidValue, .nat v.toNat⟩ := if_pos h

/-- POLL_ENC of a number of Hz that is no rate (43_value_codecs.md R258). -/
theorem pollEnc_of_not_rate {cfg : Config} {v : Word32} (h : v.toNat ∉ [125, 250, 500, 1000]) :
    pollEnc cfg v = .error ⟨.invalidValue, .nat v.toNat⟩ := by
  simp only [List.mem_cons, List.not_mem_nil, or_false, not_or] at h
  simp only [pollEnc, pollOfHz, h, ↓reduceIte]

/-- EFFECT_ENC of an index past 2 (43_value_codecs.md R256). -/
theorem effectEnc_of_lt {cfg : Config} {v : Word32} (h : 2 < v.toNat) :
    effectEnc cfg v = .error ⟨.invalidValue, .nat v.toNat⟩ := by
  obtain ⟨n, hn⟩ : ∃ n, v.toNat = n + 3 := ⟨v.toNat - 3, by omega⟩
  have hnone : effectOfIndex v.toNat = none := by
    rw [hn]
    rfl
  simp only [effectEnc, hnone]

/-- The setters of one codec refuse what the codec refuses, each in the same way. -/
theorem exec_of_mem_settersOf_of_error {c : Codec} {v : Word32} {s : State} {e : Raise}
    (he : codecEnc s.cfg c v [] = .error e) {i : Instr} (hi : i ∈ (settersOf c).map fun g => g.1 v) :
    exec i s = .next (s.ended e.status e.value) := by
  obtain ⟨g, hg, rfl⟩ := List.mem_map.1 hi
  exact exec_scalarSetter_of_error hg he

/-- Settles O36: the mode is checked, then the encoder refuses the value, or the setter is the MAP_WRITE of its pairs. -/
theorem settersRejectBeforeSending : Obligations.SettersRejectBeforeSending := by
  intro s v
  refine ⟨fun h i hi => ?byte, fun h i hi => ?flag, fun h => ?poll, fun h => ?idx, fun h => ?effect, fun h => ?sleep,
    fun a text ha => ⟨exec_setDpi_of_four_le ha v s, exec_setColor_of_four_le ha text s⟩,
    fun a ha => ⟨fun h => ?dpiRange, fun h50 hmax h => ?dpiAlign⟩, fun a text ha h => ?color,
    fun g hg raw he => ?scalarWrites, fun a m text raw ha => ⟨fun he => ?dpiWrites, fun he => ?colorWrites⟩⟩
  case byte => exact exec_of_mem_settersOf_of_error (c := .byte) (congrArg (mapOk _) (byteEnc_of_lt h)) hi
  case flag => exact exec_of_mem_settersOf_of_error (c := .bool) (congrArg (mapOk _) (boolEnc_of_lt h)) hi
  case poll =>
    exact exec_of_mem_settersOf_of_error (c := .poll) (congrArg (mapOk _) (pollEnc_of_not_rate h))
      (List.mem_singleton.2 rfl)
  case idx =>
    exact exec_of_mem_settersOf_of_error (c := .idx) (congrArg (mapOk _) (idxEnc_of_lt h)) (List.mem_singleton.2 rfl)
  case effect =>
    exact exec_of_mem_settersOf_of_error (c := .effect) (congrArg (mapOk _) (effectEnc_of_lt h))
      (List.mem_singleton.2 rfl)
  case sleep =>
    exact exec_of_mem_settersOf_of_error (c := .sleep) (congrArg (mapOk _) (sleepEnc_of_not_units h))
      (List.mem_singleton.2 rfl)
  case dpiRange =>
    obtain ⟨m, hm⟩ := exists_mode ha
    have he : codecEnc s.cfg (codecOf (.dpi m)) v [] = _ := dpiEnc_of_range h
    rw [exec_setDpi_of_mode hm, runOperation_setField_of_error he]
  case dpiAlign =>
    obtain ⟨m, hm⟩ := exists_mode ha
    have he : codecEnc s.cfg (codecOf (.dpi m)) v [] = _ := dpiEnc_of_misaligned (by omega) h
    rw [exec_setDpi_of_mode hm, runOperation_setField_of_error he]
  case color =>
    obtain ⟨m, hm⟩ := exists_mode ha
    have he : codecEnc s.cfg (codecOf (.color m)) 0 text = _ := colorEnc_of_not_digits h
    rw [exec_setColor_of_mode hm, runOperation_setField_of_error he]
  case scalarWrites => rw [exec_scalarSetter hg, runOperation_setField_of_ok he]
  case dpiWrites => exact (exec_setDpi_of_mode ha v s).trans (runOperation_setField_of_ok (f := .dpi m) he)
  case colorWrites => exact (exec_setColor_of_mode ha text s).trans (runOperation_setField_of_ok (f := .color m) he)

end Sys2Proof.Machine

/-! ## The value codecs

A codec operation answers what its pure function does: the OK or the error of the encoder or decoder is the result, and
nothing else changes (43_value_codecs.md). -/

namespace Sys2Proof.Machine

/-- A codec that takes its argument answers the value under its constructor. -/
theorem pureOperation_mapOk_of_ok {α : Type} {f : α → Value} {r : Except Raise α} {a : α} (h : r = .ok a) (s : State) :
    pureOperation (mapOk f r) s = .next (s.ended .ok (f a)) :=
  pureOperation_of_ok (congrArg (mapOk f) h) s

/-- A codec that refuses its argument ends with its error. -/
theorem pureOperation_mapOk_of_error {α : Type} {f : α → Value} {r : Except Raise α} {e : Raise} (h : r = .error e)
    (s : State) : pureOperation (mapOk f r) s = .next (s.ended e.status e.value) :=
  pureOperation_of_error (congrArg (mapOk f) h) s

theorem exists_byte_of_lt {n : Nat} (h : n < 256) : ∃ b : Byte, b.toNat = n := ⟨BitVec.ofNatLT n h, rfl⟩

/-- The decoders of one byte refuse any other number of them (43_value_codecs.md, D50). -/
theorem codecDec_of_length {c : Codec} (hdpi : c ≠ .dpi) (hcolor : c ≠ .color) (cfg : Config) {bs : List Byte}
    (h : bs.length ≠ 1) : codecDec cfg c bs = .error ⟨.invalidEncoding, .bytes bs⟩ := by
  have hb := oneByte_of_length h
  cases c with
  | poll => simp only [codecDec, pollDec, hb, mapOk]
  | idx => simp only [codecDec, idxDec, hb, mapOk]
  | byte => simp only [codecDec, byteDec, hb, mapOk]
  | bool => simp only [codecDec, boolDec, hb, mapOk]
  | effect => simp only [codecDec, effectDec, hb, mapOk]
  | sleep => simp only [codecDec, sleepDec, hb, mapOk]
  | dpi => exact absurd rfl hdpi
  | color => exact absurd rfl hcolor

/-- A whole operation that decodes one byte refuses any other number of them. -/
theorem pureOperation_codecDec_of_length {c : Codec} (hdpi : c ≠ .dpi) (hcolor : c ≠ .color) {bs : List Byte}
    (h : bs.length ≠ 1) (s : State) :
    ∃ v, pureOperation (codecDec s.cfg c bs) s = .next (s.ended .invalidEncoding v) :=
  ⟨_, pureOperation_of_error (codecDec_of_length hdpi hcolor s.cfg h) s⟩

/-! ### DPI -/

/-- Settles O7, by the encoder's three outcomes. -/
theorem dpiEncodeRule : Obligations.DpiEncodeRule := by
  intro v s
  refine ⟨fun h => ?range, fun h50 hmax h => ?misaligned, fun h50 hmax h => ?packed⟩
  case range => exact pureOperation_mapOk_of_error (dpiEnc_of_range h) s
  case misaligned => exact pureOperation_mapOk_of_error (dpiEnc_of_misaligned (by omega) h) s
  case packed =>
    obtain ⟨lo, hlo⟩ := exists_byte_of_lt (n := (v.toNat / 50 - 1) % 256) (by omega)
    obtain ⟨p, hp⟩ := exists_byte_of_lt (n := (v.toNat / 50 - 1) / 256 * 68) (by omega)
    exact ⟨lo, p, hlo, hp, pureOperation_mapOk_of_ok (dpiEnc_of_valid (by omega) h hlo hp) s⟩

/-- Settles O8, by the decoder's three checks and its length check. -/
theorem dpiDecodeRule : Obligations.DpiDecodeRule := by
  intro s
  refine ⟨fun b0 b1 b2 => ⟨fun h => ?valid, fun h => ?invalid⟩, fun bs h => ?length⟩
  case valid => exact pureOperation_mapOk_of_ok (dpiDec_of_valid h) s
  case invalid =>
    obtain ⟨v, hv⟩ := dpiDec_of_invalid h
    exact ⟨v, pureOperation_mapOk_of_error hv s⟩
  case length => exact ⟨_, pureOperation_mapOk_of_error (dpiDec_of_length h) s⟩

/-- DPI_ENC that ends with OK answers the encoder's bytes: the encoder raises no OK (43_value_codecs.md R250). -/
theorem dpiEnc_of_exec_ok {v : Word32} {s t : State} {raw : List Byte} (h : exec (.dpiEnc v) s = .next t)
    (hr : t.result = some ⟨.ok, .bytes raw⟩) : dpiEnc v = .ok raw := by
  cases hd : dpiEnc v with
  | ok raw' =>
    cases (pureOperation_mapOk_of_ok (f := .bytes) hd s).symm.trans h
    cases hr
    rfl
  | error e =>
    cases (pureOperation_mapOk_of_error (f := .bytes) hd s).symm.trans h
    have hok : e.status = .ok := congrArg Result.status (Option.some.inj hr)
    obtain ⟨_, he, -⟩ | ⟨e', he, hst⟩ := codecEnc_cases s.cfg (.dpi 0) v []
    · cases hd.symm.trans he
    · cases hd.symm.trans he
      simp [hok] at hst

/-- Settles O9: an OK result holds the encoder's bytes, which the decoder takes back. -/
theorem dpiRoundTrip : Obligations.DpiRoundTrip :=
  fun _ _ t _ h hr => pureOperation_mapOk_of_ok (dpiDec_of_dpiEnc (dpiEnc_of_exec_ok h hr)) t

/-! ### Colour -/

/-- Settles O10: six digits are three bytes, and any other text is refused. -/
theorem colorEncodeRule : Obligations.ColorEncodeRule := by
  intro text s
  refine ⟨fun r1 r0 g1 g0 b1 b0 h => ?digits, fun h => pureOperation_mapOk_of_error (colorEnc_of_not_digits h) s⟩
  case digits =>
    obtain ⟨hr1, hr0, hg1, hg0, hb1, hb0⟩ := h.bounds
    obtain ⟨r, hr⟩ := exists_byte_of_lt (n := 16 * r1 + r0) (by omega)
    obtain ⟨g, hg⟩ := exists_byte_of_lt (n := 16 * g1 + g0) (by omega)
    obtain ⟨b, hb⟩ := exists_byte_of_lt (n := 16 * b1 + b0) (by omega)
    exact ⟨r, g, b, hr, hg, hb, pureOperation_mapOk_of_ok (colorEnc_of_digits h hr hg hb) s⟩

/-- The two digits written for a byte are hexadecimal digits of its nibbles (43_value_codecs.md R253). -/
theorem forall₂_isHexDigit_hex2 (b : Byte) : List.Forall₂ IsHexDigit (hex2 b) [b.toNat / 16, b.toNat % 16] :=
  have ⟨hhigh, hlow⟩ := isLowerHexDigit_nibbles b
  .cons hhigh.isHexDigit (.cons hlow.isHexDigit .nil)

/-- COLOR_ENC takes back what COLOR_DEC writes for three bytes (43_value_codecs.md R267). -/
theorem colorEnc_hex2 (r g b : Byte) : colorEnc (hashSign :: (hex2 r ++ hex2 g ++ hex2 b)) = .ok [r, g, b] := by
  have htext : IsHexText (hashSign :: (hex2 r ++ hex2 g ++ hex2 b))
      [r.toNat / 16, r.toNat % 16, g.toNat / 16, g.toNat % 16, b.toNat / 16, b.toNat % 16] :=
    ⟨_, .inr rfl, List.rel_append (List.rel_append (forall₂_isHexDigit_hex2 r) (forall₂_isHexDigit_hex2 g))
      (forall₂_isHexDigit_hex2 b)⟩
  exact colorEnc_of_digits htext (Nat.div_add_mod ..).symm (Nat.div_add_mod ..).symm (Nat.div_add_mod ..).symm

/-- Settles O11: each byte is written as the digits of its nibbles, which COLOR_ENC reads back. -/
theorem colorDecodeRule : Obligations.ColorDecodeRule := by
  intro s
  refine ⟨fun r g b => ?written, fun bs h => ⟨_, pureOperation_mapOk_of_error (colorDec_of_length h) s⟩⟩
  case written =>
    obtain ⟨hr, hr'⟩ := isLowerHexDigit_nibbles r
    obtain ⟨hg, hg'⟩ := isLowerHexDigit_nibbles g
    obtain ⟨hb, hb'⟩ := isLowerHexDigit_nibbles b
    exact ⟨_, _, _, _, _, _, hr, hr', hg, hg', hb, hb', pureOperation_mapOk_of_ok rfl s,
      pureOperation_mapOk_of_ok (colorEnc_hex2 r g b) s⟩

/-! ### Booleans, effects and polling rates -/

/-- Settles O12: 0 and 1 each way, and nothing else. -/
theorem booleanCodecRules : Obligations.BooleanCodecRules := by
  intro s
  refine ⟨?enc0, ?enc1, fun v h => ?encOther, ?dec0, ?dec1, fun b h => ?decOther, fun bs h => ?length⟩
  case enc0 => exact pureOperation_mapOk_of_ok (boolEnc_of_le (v := 0) (b := 0) rfl (by decide)) s
  case enc1 => exact pureOperation_mapOk_of_ok (boolEnc_of_le (v := 1) (b := 1) rfl (by decide)) s
  case encOther => exact pureOperation_mapOk_of_error (boolEnc_of_lt h) s
  case dec0 => exact pureOperation_mapOk_of_ok (boolOfByte_of_le (b := 0) (by decide)) s
  case dec1 => exact pureOperation_mapOk_of_ok (boolOfByte_of_le (b := 1) (by decide)) s
  case decOther => exact pureOperation_mapOk_of_error (boolOfByte_of_two_le h) s
  case length => exact pureOperation_codecDec_of_length (c := .bool) nofun nofun h s

/-- EFFECT_ENC of an effect's index answers its code (43_value_codecs.md R256). -/
theorem exec_effectEnc_of_index {v : Word32} {e : Effect} (h : effectOfIndex v.toNat = some e) (s : State) :
    exec (.effectEnc v) s = .next (s.ended .ok (.byte (s.cfg.params.effectCode e))) :=
  pureOperation_mapOk_of_ok (effectEnc_of_index h) s

/-- EFFECT_DEC of an effect's code answers the effect (43_value_codecs.md R257). -/
theorem exec_effectDec_of_code (e : Effect) (s : State) :
    exec (.effectDec [s.cfg.params.effectCode e]) s = .next (s.ended .ok (.effect e)) :=
  pureOperation_mapOk_of_ok (effectDec_effectCode s.cfg e) s

theorem effectCode_mem (p : Params) (e : Effect) :
    p.effectCode e ∈ [p.effectOff, p.effectSteady, p.effectBreathe] := by
  cases e <;> simp [Params.effectCode]

/-- Settles O13, code by code in each direction. -/
theorem effectCodecRules : Obligations.EffectCodecRules := by
  intro s
  refine ⟨exec_effectEnc_of_index (e := .off) rfl s, exec_effectEnc_of_index (e := .steady) rfl s,
    exec_effectEnc_of_index (e := .breathe) rfl s, fun v h => ?encOther, exec_effectDec_of_code .off s,
    exec_effectDec_of_code .steady s, exec_effectDec_of_code .breathe s, fun b h => ?decOther, fun bs h => ?length⟩
  case encOther => exact pureOperation_mapOk_of_error (effectEnc_of_lt h) s
  case decOther =>
    have hcode : ∀ e, b ≠ s.cfg.params.effectCode e := fun e hb => h (hb ▸ effectCode_mem _ e)
    exact pureOperation_mapOk_of_error (effectDec_of_no_code hcode) s
  case length => exact pureOperation_codecDec_of_length (c := .effect) nofun nofun h s

/-- POLL_ENC of a rate's number of Hz answers its code (43_value_codecs.md R258). -/
theorem exec_pollEnc_of_rate {v : Word32} {r : PollRate} (h : v.toNat = pollHz r) (s : State) :
    exec (.pollEnc v) s = .next (s.ended .ok (.byte (s.cfg.params.pollCode r))) :=
  pureOperation_mapOk_of_ok (pollEnc_of_rate h) s

/-- POLL_DEC of a rate's code answers its number of Hz (43_value_codecs.md R259). -/
theorem exec_pollDec_of_code (r : PollRate) (s : State) :
    exec (.pollDec [s.cfg.params.pollCode r]) s = .next (s.ended .ok (.nat (pollHz r))) :=
  pureOperation_mapOk_of_ok (pollDec_pollCode s.cfg r) s

theorem pollCode_mem (p : Params) (r : PollRate) :
    p.pollCode r ∈ [p.poll125, p.poll250, p.poll500, p.poll1000] := by
  cases r <;> simp [Params.pollCode]

/-- Settles O14, code by code in each direction. -/
theorem pollCodecRules : Obligations.PollCodecRules := by
  intro s
  refine ⟨exec_pollEnc_of_rate (r := .hz125) rfl s, exec_pollEnc_of_rate (r := .hz250) rfl s,
    exec_pollEnc_of_rate (r := .hz500) rfl s, exec_pollEnc_of_rate (r := .hz1000) rfl s, fun v h => ?encOther,
    exec_pollDec_of_code .hz125 s, exec_pollDec_of_code .hz250 s, exec_pollDec_of_code .hz500 s,
    exec_pollDec_of_code .hz1000 s, fun b h => ?decOther, fun bs h => ?length⟩
  case encOther => exact pureOperation_mapOk_of_error (pollEnc_of_not_rate h) s
  case decOther =>
    have hcode : ∀ r, b ≠ s.cfg.params.pollCode r := fun r hb => h (hb ▸ pollCode_mem _ r)
    exact pureOperation_mapOk_of_error (pollDec_of_no_code hcode) s
  case length => exact pureOperation_codecDec_of_length (c := .poll) nofun nofun h s

/-! ### Bytes, indices and autosleep times -/

/-- Settles O15, codec by codec. -/
theorem scalarCodecRules : Obligations.ScalarCodecRules := by
  intro s
  refine ⟨fun v b h => ?byteEnc, fun v h => ?byteEncOther, fun b => ?byteDec, fun v b h3 h => ?idxEnc,
    fun v h => ?idxEncOther, fun b h => ?idxDec, fun b h => ?idxDecOther, fun v b h => ?sleepEnc,
    fun v h => ?sleepEncOther, fun b => ?sleepDec, fun bs h => ?length⟩
  case byteEnc => exact pureOperation_mapOk_of_ok (byteEnc_of_byte h) s
  case byteEncOther => exact pureOperation_mapOk_of_error (byteEnc_of_lt h) s
  case byteDec => exact pureOperation_mapOk_of_ok rfl s
  case idxEnc => exact pureOperation_mapOk_of_ok (idxEnc_of_le h h3) s
  case idxEncOther => exact pureOperation_mapOk_of_error (idxEnc_of_lt h) s
  case idxDec => exact pureOperation_mapOk_of_ok (idxDec_of_le h) s
  case idxDecOther => exact pureOperation_mapOk_of_error (idxDec_of_three_lt h) s
  case sleepEnc => exact pureOperation_mapOk_of_ok (sleepEnc_of_units h) s
  case sleepEncOther => exact pureOperation_mapOk_of_error (sleepEnc_of_not_units h) s
  case sleepDec => exact pureOperation_mapOk_of_ok rfl s
  case length =>
    exact ⟨pureOperation_codecDec_of_length (c := .byte) nofun nofun h s,
      pureOperation_codecDec_of_length (c := .idx) nofun nofun h s,
      pureOperation_codecDec_of_length (c := .sleep) nofun nofun h s⟩

end Sys2Proof.Machine

/-! ## The session

RESTORE, GET_PROFILE of an unknown profile, SET_PROFILE and POWER_QUERY are one exchange each: a request, the wait for its
command, and what the operation makes of the reply (44_session.md R290 to R299). -/

namespace Sys2Proof.Machine

/-! ### OPEN, CLOSE, FLUSH and SEND_EVTACK -/

/-- Settles O39, by OPEN's three paths. -/
theorem openStartsSession : Obligations.OpenStartsSession := by
  intro s
  refine ⟨fun hs => ?connected, fun os hs h => ?opened, fun os hs h => ⟨.none, ?refused⟩⟩
  case connected =>
    have hopen : openOperation (beginOperation s) = .done () (beginOperation s) := by
      simp [openOperation, hs]
    exact congrArg _ (runOperation_of_done (noValue_of_done hopen))
  case opened =>
    exact congrArg _ (runOperation_of_done (noValue_of_done (openOperation_of_ok (s := beginOperation s) hs h)))
  case refused =>
    exact congrArg _ (runOperation_of_raised (noValue_of_raised (openOperation_of_ioError (s := beginOperation s) hs h)))

/-- Settles O40: CLOSE is one write of the session, FLUSH the session check and one write of the queue. -/
theorem closeAndFlushRules : Obligations.CloseAndFlushRules := by
  intro s
  refine ⟨rfl, fun hs => ?connected, fun hs => ⟨.none, ?disconnected⟩⟩
  case connected =>
    have hflush : flushOperation (beginOperation s) = .done () { beginOperation s with rxq := [] } :=
      requireConnected_bind_begin _ hs
    exact congrArg _ (runOperation_of_done (noValue_of_done hflush))
  case disconnected =>
    have hflush : flushOperation (beginOperation s) = .raised ⟨.notConnected, .none⟩ (beginOperation s) :=
      Op.bind_of_raised (requireConnected_of_disconnected hs)
    exact congrArg _ (runOperation_of_raised (noValue_of_raised hflush))

/-- Any other event kind (44_session.md R303). -/
theorem kindArg_of_two_lt {a : Byte} (h : 2 < a.toNat) : kindArg a = .error ⟨.invalidValue, .nat a.toNat⟩ := by
  simp [kindArg, show ¬ a.toNat < 3 by omega]

/-- SEND_EVTACK of a kind that exists is the acknowledgement's step: the session, then the send (44_session.md R303). -/
theorem exec_sendEvtack_of_kind {a : Byte} {k : Fin 3} (h : a.toNat = k.val) (s : State) :
    exec (.sendEvtack a) s = ackStep (evtackFrame s.cfg k) s := by
  change execSendEvtack a s = _
  rw [execSendEvtack, sendEvtack, kindArg_of_eq h]
  rfl

/-- Without a session no acknowledgement is sent (44_session.md R295). -/
theorem ackStep_of_disconnected {s : State} (f : Frame) (hs : s.sess = .disconnected) :
    ackStep f s = .next (s.ended .notConnected .none) :=
  congrArg _ (runOperation_of_raised (u := beginOperation s) (noValue_of_raised
    (Op.bind_of_raised (requireConnected_of_disconnected hs))))

/-- Settles O47: the kind is checked, and then the operation is the acknowledgement's step. -/
theorem sendEvtackRule : Obligations.SendEvtackRule := by
  intro s a
  refine ⟨fun h => ?badKind, fun h hs => ?disconnected, fun k ss hk hs => ?connected⟩
  case badKind =>
    have hsend : sendEvtack s.cfg a (beginOperation s) = .raised ⟨.invalidValue, .nat a.toNat⟩ (beginOperation s) := by
      rw [sendEvtack, kindArg_of_two_lt h, Op.lift_error_bind]
    exact congrArg _ (runOperation_of_raised (noValue_of_raised hsend))
  case disconnected =>
    obtain ⟨k, hk⟩ : ∃ k : Fin 3, a.toNat = k.val := ⟨⟨a.toNat, by omega⟩, rfl⟩
    rw [exec_sendEvtack_of_kind hk]
    exact ⟨.none, ackStep_of_disconnected _ hs⟩
  case connected =>
    rw [exec_sendEvtack_of_kind hk]
    exact ⟨ackStep_of_ok _ hs, fun h => ⟨.none, ackStep_of_ioError _ hs h⟩⟩

/-! ### One exchange -/

/-- An operation that answers a value of its own kind ends with OK and that value. -/
theorem runOperation_value_of_done {α : Type} {m : Op α} {f : α → Value} {s u : State} {a : α}
    (h : m (beginOperation s) = .done a u) : runOperation (m.bind fun a => Op.pure (f a)) s = u.ended .ok (f a) :=
  runOperation_of_done (Op.bind_of_done h)

/-- Where it raises, it ends with the error. -/
theorem runOperation_value_of_raised {α : Type} {m : Op α} {f : α → Value} {s u : State} {e : Raise}
    (h : m (beginOperation s) = .raised e u) :
    runOperation (m.bind fun a => Op.pure (f a)) s = u.ended e.status e.value :=
  runOperation_of_raised (Op.bind_of_raised h)

/-- In a session, the exchange of a request answered behind at most MAX_DISCARD frames goes on with the reply, from the
state after the wait but for the discard counter (44_session.md R290, R292). -/
theorem exchange_of_answers {α : Type} {s : State} {cfg : Config} {q : Frame} {c : Byte} {f : Frame}
    {rxq : List (List Byte)} {e : Env} (hs : s.sess = .connected) (h : s.env.Answers cfg c f rxq e) :
    ∃ d, ∀ k : Frame → Op α,
      (requireConnected.bind fun _ => (request q).bind fun _ => (awaitCmd cfg c).bind k) s =
        k f { s.waited q rxq e with seqD := d } := by
  obtain ⟨d, hd⟩ := request_awaitCmd (α := α) (q := q) h
  exact ⟨d, fun k => by rw [Op.bind_of_done (requireConnected_of_connected hs), hd]⟩

/-- RESTORE that is answered: the cache is cleared where the reply is the whole echo (44_session.md R296). -/
theorem restoreOperation_of_answers {s : State} {cfg : Config} {f : Frame} {rxq : List (List Byte)} {e : Env}
    (hs : s.sess = .connected) (h : s.env.Answers cfg cfg.params.cmdRestore f rxq e) :
    ∃ d,
      (f = restoreQFrame cfg → restoreOperation cfg s =
        .done () { s.waited (restoreQFrame cfg) rxq e with seqD := d, cache := [] }) ∧
      (f ≠ restoreQFrame cfg → restoreOperation cfg s =
        .raised ⟨.protocolViolation, .frame f⟩ { s.waited (restoreQFrame cfg) rxq e with seqD := d }) := by
  obtain ⟨d, hd⟩ := exchange_of_answers (α := Unit) (q := restoreQFrame cfg) hs h
  refine ⟨d, fun hf => ?_, fun hf => ?_⟩
  · rw [restoreOperation, hd, if_neg (not_not.2 hf)]
    rfl
  · rw [restoreOperation, hd, if_pos hf]
    rfl

/-- RESTORE that ended with OK has emptied the cache (44_session.md R296). -/
theorem cache_of_exec_restore_ok {s t : State} {v : Value} (h : exec .restore s = .next t)
    (hr : t.result = some ⟨.ok, v⟩) : t.cache = [] := by
  obtain ⟨u, st, x, hx, hu⟩ := execRestore_cases s
  cases hx.symm.trans h
  have hok : st = .ok := congrArg Result.status (Option.some.inj hr)
  obtain ⟨hne, -⟩ | ⟨env, rxq, ⟨-, rfl⟩ | ⟨hne, -⟩⟩ := hu
  · exact absurd hok hne
  · rfl
  · exact absurd hok hne

/-- Settles O41: the one exchange compares the reply with the request; of an empty cache no cell is read. -/
theorem restoreRule : Obligations.RestoreRule := by
  intro s
  constructor
  · intro f q e hs ha
    obtain ⟨d, hecho, hother⟩ := restoreOperation_of_answers (s := beginOperation s) hs ha
    exact ⟨fun hf => congrArg _ (runOperation_of_done (noValue_of_done (hecho hf))),
      fun hf => congrArg _ (runOperation_of_raised (noValue_of_raised (hother hf)))⟩
  · intro t a h hr
    refine (mapGetRule a t).2 ?_
    rw [cache_of_exec_restore_ok h hr]
    rfl

/-- GET_PROFILE of a known profile sends nothing (44_session.md R297). -/
theorem getProfile_of_known {s : State} {cfg : Config} {n : Byte} (hs : s.sess = .connected)
    (hp : s.profile = some n) : getProfile cfg s = .done n s := by
  rw [getProfile, Op.bind_of_done (requireConnected_of_connected hs), Op.read_bind, hp]
  rfl

/-- GET_PROFILE of an unknown profile is one exchange (44_session.md R297). -/
theorem getProfile_of_unknown {s : State} {cfg : Config} (hs : s.sess = .connected) (hp : s.profile = none) :
    getProfile cfg s =
      ((request (profgetQFrame cfg)).bind fun _ => (awaitCmd cfg cfg.params.cmdProfget).bind fun f =>
        (Op.update fun s => { s with profile := some (f.byteAt cfg.params.profilePos) }).bind fun _ =>
          Op.pure (f.byteAt cfg.params.profilePos)) s := by
  rw [getProfile, Op.bind_of_done (requireConnected_of_connected hs), Op.read_bind, hp]

/-- GET_PROFILE of an unknown profile that is answered learns it (44_session.md R297). -/
theorem getProfile_of_answers {s : State} {cfg : Config} {f : Frame} {rxq : List (List Byte)} {e : Env}
    (hs : s.sess = .connected) (hp : s.profile = none) (h : s.env.Answers cfg cfg.params.cmdProfget f rxq e) :
    ∃ d, getProfile cfg s = .done (f.byteAt cfg.params.profilePos)
      { s.waited (profgetQFrame cfg) rxq e with seqD := d, profile := some (f.byteAt cfg.params.profilePos) } := by
  obtain ⟨d, hd⟩ := request_awaitCmd (α := Byte) (q := profgetQFrame cfg) h
  exact ⟨d, by rw [getProfile_of_unknown hs hp, hd]; rfl⟩

/-- Settles O42: the known profile, or the reply's. -/
theorem getProfileRule : Obligations.GetProfileRule := by
  intro s hs
  constructor
  · intro n hp
    have hget := getProfile_of_known (s := beginOperation s) (cfg := s.cfg) hs hp
    exact congrArg _ (runOperation_value_of_done hget)
  · intro f q e hp ha
    obtain ⟨d, hget⟩ := getProfile_of_answers (s := beginOperation s) hs hp ha
    exact congrArg _ (runOperation_value_of_done hget)

/-- SET_PROFILE that is answered: the profile is stored where the reply echoes it (44_session.md R298). -/
theorem setProfile_of_answers {s : State} {cfg : Config} {n : Byte} {f : Frame} {rxq : List (List Byte)} {e : Env}
    (hs : s.sess = .connected) (h : s.env.Answers cfg cfg.params.cmdProfset f rxq e) :
    ∃ d,
      (f.byteAt cfg.params.profilePos = n → setProfile cfg n s =
        .done () { s.waited (profsetQFrame cfg n) rxq e with seqD := d, profile := some n }) ∧
      (f.byteAt cfg.params.profilePos ≠ n → setProfile cfg n s =
        .raised ⟨.protocolViolation, .pair n.toNat (f.byteAt cfg.params.profilePos).toNat⟩
          { s.waited (profsetQFrame cfg n) rxq e with seqD := d }) := by
  obtain ⟨d, hd⟩ := exchange_of_answers (α := Unit) (q := profsetQFrame cfg n) hs h
  refine ⟨d, fun hf => ?_, fun hf => ?_⟩
  · rw [setProfile, hd, if_neg (not_not.2 hf)]
    rfl
  · rw [setProfile, hd, if_pos hf]
    rfl

/-- Settles O44: the one exchange compares the reply's profile with the one set. -/
theorem setProfileRule : Obligations.SetProfileRule := by
  intro s n f q e hs ha
  obtain ⟨d, hecho, hother⟩ := setProfile_of_answers (s := beginOperation s) (n := n) hs ha
  exact ⟨fun hf => congrArg _ (runOperation_of_done (noValue_of_done (hecho hf))),
    fun hf => ⟨_, congrArg _ (runOperation_of_raised (noValue_of_raised (hother hf)))⟩⟩

/-- POWER_QUERY that is answered decodes the reply (44_session.md R299). -/
theorem powerQuery_of_answers {s : State} {cfg : Config} {f : Frame} {rxq : List (List Byte)} {e : Env}
    (hs : s.sess = .connected) (h : s.env.Answers cfg cfg.params.cmdPower f rxq e) :
    ∃ d, powerQuery cfg s = Op.lift (decPower cfg f) { s.waited (powerQFrame cfg) rxq e with seqD := d } := by
  obtain ⟨d, hd⟩ := exchange_of_answers (α := PowerStatus) (q := powerQFrame cfg) hs h
  exact ⟨d, hd _⟩

/-- Settles O45: the one exchange answers what DecPower makes of the reply. -/
theorem powerQueryRule : Obligations.PowerQueryRule := by
  intro s f q e hs ha
  obtain ⟨d, hquery⟩ := powerQuery_of_answers (s := beginOperation s) hs ha
  refine ⟨fun hflag => ?_, fun hflag => ⟨.byte (f.byteAt s.cfg.params.powerFlagPos), ?_⟩⟩
  · rw [decPower_of_le hflag, Op.lift_ok_apply] at hquery
    exact congrArg _ (runOperation_value_of_done hquery)
  · rw [decPower_of_two_le hflag, Op.lift_error_apply] at hquery
    exact congrArg _ (runOperation_value_of_raised hquery)

/-! ### RECV -/

/-- A receive that delivers a string answers what FRAME_DEC makes of it (44_session.md R291). -/
theorem awaitAny_of_string {s : State} {arr q : List (List Byte)} {b : List Byte} {rs : List RecvDraw}
    (h : s.env.recvs = ⟨arr, .deliver⟩ :: rs) (hq : s.rxq ++ arr = b :: q) :
    awaitAny s = Op.lift (frameDec b) { s with rxq := q, env := { s.env with recvs := rs } } := by
  rw [awaitAny, Op.bind_of_done (recvStep_of_deliver h hq)]

/-- RECV where a valid frame is delivered answers as the classification of the frame (44_session.md R302). -/
theorem recvOperation_of_frame {s : State} {cfg : Config} {arr q : List (List Byte)} {b : List Byte}
    {rs : List RecvDraw} {f : Frame} (hs : s.sess = .connected) (h : s.env.recvs = ⟨arr, .deliver⟩ :: rs)
    (hq : s.rxq ++ arr = b :: q) (hf : frameDec b = .ok f) :
    recvOperation cfg s = Op.lift (mapOk (fun d => Value.received f d) (classifyFrame cfg f))
      { s with rxq := q, env := { s.env with recvs := rs } } := by
  have hawait := awaitAny_of_string h hq
  rw [hf, Op.lift_ok_apply] at hawait
  rw [recvOperation, Op.bind_of_done (requireConnected_of_connected hs), Op.bind_of_done hawait]

/-- RECV whose receive raises ends with it (44_session.md R302). -/
theorem recvOperation_of_raised {s u : State} {cfg : Config} {e : Raise} (hs : s.sess = .connected)
    (h : awaitAny s = .raised e u) : recvOperation cfg s = .raised e u := by
  rw [recvOperation, Op.bind_of_done (requireConnected_of_connected hs), Op.bind_of_raised h]

/-- In a session, RECV of a string CLASSIFY accepts answers it with its frame (44_session.md R302). -/
theorem exec_recv_of_classify_ok {s : State} {arr q : List (List Byte)} {b : List Byte} {rs : List RecvDraw} {f : Frame}
    {d : Decoded} (hs : s.sess = .connected) (h : s.env.recvs = ⟨arr, .deliver⟩ :: rs) (hq : s.rxq ++ arr = b :: q)
    (hf : Frame.parse b = .ok f) (hd : classify s.cfg b = .ok d) :
    exec .recv s = .next ({ s with rxq := q, env := { s.env with recvs := rs } }.ended .ok (.received f d)) := by
  have hdec := frameDec_of_parse hf
  have hrecv := recvOperation_of_frame (s := beginOperation s) (cfg := s.cfg) hs h hq hdec
  simp only [classify, hdec] at hd
  rw [hd] at hrecv
  exact congrArg _ (runOperation_of_done hrecv)

/-- In a session, RECV of a string CLASSIFY refuses ends with the same error (44_session.md R302). -/
theorem exec_recv_of_classify_error {s : State} {arr q : List (List Byte)} {b : List Byte} {rs : List RecvDraw}
    {e : Raise} (hs : s.sess = .connected) (h : s.env.recvs = ⟨arr, .deliver⟩ :: rs) (hq : s.rxq ++ arr = b :: q)
    (he : classify s.cfg b = .error e) :
    exec .recv s = .next ({ s with rxq := q, env := { s.env with recvs := rs } }.ended e.status e.value) := by
  cases hdec : frameDec b with
  | ok f =>
    have hrecv := recvOperation_of_frame (s := beginOperation s) (cfg := s.cfg) hs h hq hdec
    simp only [classify, hdec] at he
    rw [he] at hrecv
    exact congrArg _ (runOperation_of_raised hrecv)
  | error e' =>
    have hawait := awaitAny_of_string (s := beginOperation s) h hq
    simp only [classify, hdec] at he
    cases he
    rw [hdec] at hawait
    exact congrArg _ (runOperation_of_raised (recvOperation_of_raised hs hawait))

/-- In a session, RECV whose receive fails ends with its status (44_session.md R291, R302). -/
theorem exec_recv_of_fails {s : State} {st : Status} {q : List (List Byte)} {rs : List RecvDraw}
    (hs : s.sess = .connected) (h : RecvFails s.rxq s.env.recvs st q rs) :
    ∃ v, exec .recv s = .next ({ s with rxq := q, env := { s.env with recvs := rs } }.ended st v) := by
  obtain ⟨v, hv⟩ := awaitAny_of_fails (s := beginOperation s) h
  exact ⟨v, congrArg _ (runOperation_of_raised (recvOperation_of_raised hs hv))⟩

/-- Settles O46: a string delivered is classified, and a receive without one fails. -/
theorem recvRule : Obligations.RecvRule := by
  intro s hs
  refine ⟨fun b q arr rs h hq => ⟨fun f d => exec_recv_of_classify_ok hs h hq,
    fun e => exec_recv_of_classify_error hs h hq⟩, fun arr rs => ⟨fun h => ?timeout, fun h => ?ioError, fun h hq => ?empty⟩⟩
  case timeout => exact exec_recv_of_fails hs (h ▸ .timeout)
  case ioError => exact exec_recv_of_fails hs (h ▸ .ioError)
  case empty =>
    obtain ⟨hrxq, rfl⟩ := List.append_eq_nil_iff.1 hq
    have hfails : RecvFails s.rxq s.env.recvs .timeout s.rxq rs := by
      rw [h, hrxq]
      exact .empty
    exact exec_recv_of_fails hs hfails

end Sys2Proof.Machine

/-! ## Waits that fail

Every operation that awaits a command starts with the session check and one exchange, and an exchange that fails ends
whatever was to follow it; so each of them fails in the same way (44_session.md R290 to R293). -/

namespace Sys2Proof.Machine

/-- From `s` the operation sends `q`, waits for the command `c`, and ends with the failure of that wait, the state being as
the wait left it but for the discard counter. -/
def Op.FailsWaiting {α : Type} (op : Op α) (s : State) (q : Frame) (c : Byte) (st : Status) (rxq : List (List Byte))
    (e : Env) : Prop :=
  ∃ v d, op s = .raised ⟨st, v⟩ { s.waited q rxq e with seqD := d } ∧ (st = .noMatch → v = .byte c)

section
variable {α β : Type} {s : State} {q : Frame} {c : Byte} {st : Status} {rxq : List (List Byte)} {e : Env}

/-- A wait that fails ends what was to follow it. -/
theorem Op.FailsWaiting.bind {m : Op α} (h : m.FailsWaiting s q c st rxq e) (f : α → Op β) :
    (m.bind f).FailsWaiting s q c st rxq e := by
  obtain ⟨v, d, hm, hv⟩ := h
  exact ⟨v, d, Op.bind_of_raised hm, hv⟩

/-- In a session, an exchange behind the session check fails where its request is not answered (44_session.md R290 to
R292). -/
theorem exchange_failsWaiting (hs : s.sess = .connected) (h : s.env.AwaitFails s.cfg c st rxq e) (k : Frame → Op α) :
    (requireConnected.bind fun _ => (request q).bind fun _ =>
      (awaitCmd s.cfg c).bind k).FailsWaiting s q c st rxq e := by
  rw [Op.FailsWaiting, Op.bind_of_done (requireConnected_of_connected hs)]
  exact request_awaitCmd_of_fails k h

/-- In a session, GET_PROFILE of an unknown profile fails where its request is not answered (44_session.md R297). -/
theorem getProfile_failsWaiting (hs : s.sess = .connected) (hp : s.profile = none)
    (h : s.env.AwaitFails s.cfg s.cfg.params.cmdProfget st rxq e) :
    (getProfile s.cfg).FailsWaiting s (profgetQFrame s.cfg) s.cfg.params.cmdProfget st rxq e := by
  rw [Op.FailsWaiting, getProfile_of_unknown hs hp]
  exact request_awaitCmd_of_fails _ h

/-- In a session, SNAPSHOT with an unknown profile fails where the query of the profile does (44_session.md R304). -/
theorem snapshotOperation_failsWaiting (hs : s.sess = .connected) (hp : s.profile = none)
    (h : s.env.AwaitFails s.cfg s.cfg.params.cmdProfget st rxq e) :
    (snapshotOperation s.cfg).FailsWaiting s (profgetQFrame s.cfg) s.cfg.params.cmdProfget st rxq e := by
  rw [Op.FailsWaiting, snapshotOperation, Op.bind_of_done (requireConnected_of_connected hs)]
  exact (getProfile_failsWaiting hs hp h).bind _

/-- A whole operation whose wait fails ends with the failure, and nothing but the link changed. -/
theorem Op.FailsWaiting.next {op : Op Value} (h : op.FailsWaiting (beginOperation s) q c st rxq e) :
    ∃ v, Host.Outcome.next (φ := Fault) (ρ := Refusal) (runOperation op s) = .next ((s.waited q rxq e).ended st v) ∧
      (st = .noMatch → v = .byte c) := by
  obtain ⟨v, d, hop, hv⟩ := h
  exact ⟨v, congrArg _ (runOperation_of_raised hop), hv⟩

end

/-- In a session, each operation that awaits a command fails where its request is not answered; GET_PROFILE and SNAPSHOT
where the profile is unknown (44_session.md R290 to R293). -/
theorem exec_of_awaitFails {i : Instr} {s : State} {q : Frame} {c : Byte} {st : Status} {rxq : List (List Byte)}
    {e : Env} (hs : s.sess = .connected) (hq : i.awaits s.cfg = some (q, c)) (ha : i.ArgsPass)
    (hp : i = .getProfile ∨ i = .snapshot → s.profile = none) (h : s.env.AwaitFails s.cfg c st rxq e) :
    ∃ v, exec i s = .next ((s.waited q rxq e).ended st v) ∧ (st = .noMatch → v = .byte c) := by
  cases i
  case restore | setProfile | powerQuery =>
    cases hq
    exact ((exchange_failsWaiting (s := beginOperation s) hs h _).bind _).next
  case getProfile =>
    cases hq
    exact ((getProfile_failsWaiting (s := beginOperation s) hs (hp (.inl rfl)) h).bind _).next
  case snapshot =>
    cases hq
    exact ((snapshotOperation_failsWaiting (s := beginOperation s) hs (hp (.inr rfl)) h).bind _).next
  case powerQ | restoreQ | profgetQ | profsetQ | memreadQ =>
    rw [exec_of_awaits rfl hq ha]
    exact (exchange_failsWaiting (s := beginOperation s) hs h _).next
  all_goals cases hq

/-- In a session, a bulk read whose next window is not answered ends with that failure, the windows before it stored
(42_register_map.md R192, 20_memory.md R71). -/
theorem exec_mapBulkRead_of_awaitFails {s : State} {fs : List Frame} {st : Status} {q q' : List (List Byte)} {e e' : Env}
    (hs : s.sess = .connected) (hw : WindowsAnswered s.cfg s.rxq s.env fs q e) (hl : fs.length < 20)
    (h : e.AwaitFails s.cfg s.cfg.params.cmdMemread st q' e') :
    ∃ m v, HoldsWindows m s.cache fs ∧ (st = .noMatch → v = .byte s.cfg.params.cmdMemread) ∧
      exec .mapBulkRead s = .next ((s.bulkMoved (fs.length + 1) m q' e').ended st v) := by
  obtain ⟨m, k, d, hm, hrun⟩ := bulkWindows_of_answered (s := beginOperation s) hw (by omega)
  obtain ⟨rest, hrest⟩ := exists_range_windows hl
  obtain ⟨v, d', hfail, hv⟩ := bulkWindow_of_fails (cfg := s.cfg)
    (s := { (beginOperation s).bulkMoved fs.length m q e with seqK := fs.length, seqD := d }) hl h
  refine ⟨m, v, hm, hv, (exec_mapBulkRead_of_raised hs (hrest ▸ bulkWindows_of_raised hrun hfail)).trans ?_⟩
  simp [State.bulkMoved, State.waited, State.ended, bulkRequests_succ]

/-- Settles O43: the one exchange of an operation, or the next window of a bulk read, is not answered. -/
theorem filterLoopIsBounded : Obligations.FilterLoopIsBounded := by
  intro s hs
  exact ⟨fun _ _ _ _ _ _ hq ha hp h => exec_of_awaitFails hs hq ha hp h,
    fun _ _ _ _ _ _ hw hl h => exec_mapBulkRead_of_awaitFails hs hw hl h⟩

end Sys2Proof.Machine

/-! ## The snapshot

Each step of SNAPSHOT between its two exchanges reads cells and changes nothing, so over cells that decode the steps are
their values one after another (44_session.md R304, R305). -/

namespace Sys2Proof.Machine

/-- A typed getter over populated cells that decode goes on with the value (42_register_map.md R201). -/
theorem getTyped_of_decodes {α : Type} {s : State} {cfg : Config} {f : SettingField} {raw : List Byte}
    {dec : List Byte → Except Raise α} {x : α} (hl : raw.length = f.size)
    (h : HoldsRun s.cache (cfg.params.addr f).toNat raw) (hd : dec raw = .ok x) : getTyped cfg f dec s = .done x s := by
  rw [getTyped_of_holds dec hl h, hd, Op.lift_ok_apply]

/-- The modes whose groups decode are read in order (44_session.md R304). -/
theorem modeSettings_of_decodes {s : State} {cfg : Config} {modes : Fin 4 → Nat × List Ascii} {ms : List (Fin 4)}
    (h : ∀ m ∈ ms, getTyped cfg (.dpi m) dpiDec s = .done (modes m).1 s ∧
      getTyped cfg (.color m) colorDec s = .done (modes m).2 s) :
    modeSettings cfg ms s = .done (ms.map fun m => ⟨(modes m).1, (modes m).2⟩) s := by
  induction ms with
  | nil => rfl
  | cons m ms ih =>
    obtain ⟨hdpi, hcolor⟩ := h m (by simp)
    have hrest := ih fun m' hm' => h m' (by simp [hm'])
    rw [modeSettings, Op.bind_of_done hdpi, Op.bind_of_done hcolor, Op.bind_of_done hrest]
    rfl

/-- The LED block that a snapshot reads: the effect only where the LED is on, and the brightness or the speed only under its
effect (44_session.md R305). -/
inductive LedReads (cfg : Config) (s : State) : LedBlock → Prop
  | off : getTyped cfg .ledEnabled boolDec s = .done false s → LedReads cfg s ⟨false, none, none, none⟩
  | dark : getTyped cfg .ledEnabled boolDec s = .done true s →
      getTyped cfg .ledEffect (effectDec cfg) s = .done .off s → LedReads cfg s ⟨true, some .off, none, none⟩
  | steady {x : Nat} : getTyped cfg .ledEnabled boolDec s = .done true s →
      getTyped cfg .ledEffect (effectDec cfg) s = .done .steady s → getTyped cfg .ledBright byteDec s = .done x s →
      LedReads cfg s ⟨true, some .steady, some x, none⟩
  | breathe {x : Nat} : getTyped cfg .ledEnabled boolDec s = .done true s →
      getTyped cfg .ledEffect (effectDec cfg) s = .done .breathe s → getTyped cfg .breatheSpeed byteDec s = .done x s →
      LedReads cfg s ⟨true, some .breathe, none, some x⟩

/-- `LedBlock()` answers that block (44_session.md R305). -/
theorem ledBlock_of_reads {cfg : Config} {s : State} {led : LedBlock} (h : LedReads cfg s led) :
    ledBlock cfg s = .done led s := by
  cases h with
  | off hen => rw [ledBlock, Op.bind_of_done hen]; rfl
  | dark hen heff => rw [ledBlock, Op.bind_of_done hen, if_neg (by decide), Op.bind_of_done heff]; rfl
  | steady hen heff hx =>
    rw [ledBlock, Op.bind_of_done hen, if_neg (by decide), Op.bind_of_done heff]
    exact Op.bind_of_done hx
  | breathe hen heff hx =>
    rw [ledBlock, Op.bind_of_done hen, if_neg (by decide), Op.bind_of_done heff]
    exact Op.bind_of_done hx

/-- The settings of a snapshot are what its getters read (44_session.md R304). -/
structure SettingsRead (cfg : Config) (s : State) (r : Snapshot) : Prop where
  dpiIdx : getTyped cfg .dpiIdx idxDec s = .done r.dpiIdx s
  modes : modeSettings cfg [0, 1, 2, 3] s = .done r.modes s
  poll : getTyped cfg .poll (pollDec cfg) s = .done r.poll s
  led : LedReads cfg s r.led
  lodMm : getTyped cfg .lodMm byteDec s = .done r.lodMm s
  lodRipple : getTyped cfg .lodRipple boolDec s = .done r.lodRipple s
  motionSync : getTyped cfg .motionSync boolDec s = .done r.motionSync s
  angleSnap : getTyped cfg .angleSnap boolDec s = .done r.angleSnap s
  autosleep : getTyped cfg .autosleep sleepDec s = .done r.autosleep s
  debounce : getTyped cfg .debounce byteDec s = .done r.debounce s

/-- SNAPSHOT between its two exchanges: the profile, the settings as they are read, the power status (44_session.md
R304). -/
theorem snapshotOperation_of_reads {cfg : Config} {s u w : State} {r : Snapshot} (hs : s.sess = .connected)
    (hprofile : getProfile cfg s = .done r.profile u) (h : SettingsRead cfg u r)
    (hpower : powerQuery cfg u = .done r.power w) : snapshotOperation cfg s = .done r w := by
  rw [snapshotOperation, Op.bind_of_done (requireConnected_of_connected hs), Op.bind_of_done hprofile,
    Op.bind_of_done h.dpiIdx, Op.bind_of_done h.modes, Op.bind_of_done h.poll,
    Op.bind_of_done (ledBlock_of_reads h.led), Op.bind_of_done h.lodMm, Op.bind_of_done h.lodRipple,
    Op.bind_of_done h.motionSync, Op.bind_of_done h.angleSnap, Op.bind_of_done h.autosleep,
    Op.bind_of_done h.debounce, Op.bind_of_done hpower, Op.pure_apply]

/-- Every setting field is listed. -/
theorem mem_settingField_all (f : SettingField) : f ∈ SettingField.all := by
  cases f
  case dpi m | color m => fin_cases m <;> decide
  all_goals decide

/-- In a session, GET_PROFILE at an operation's start answers the profile `n` where it is known or the device answers it,
and leaves the state `s1`, but for the counters (44_session.md R297). -/
theorem getProfile_of_known_or_answers {s s1 : State} {n : Byte} (hs : s.sess = .connected)
    (h : (s.profile = some n ∧ s1 = s) ∨
      (s.profile = none ∧ ∃ (g : Frame) (q1 : List (List Byte)) (e1 : Env),
        s.env.Answers s.cfg s.cfg.params.cmdProfget g q1 e1 ∧ n = g.byteAt s.cfg.params.profilePos ∧
        s1 = { s.waited (profgetQFrame s.cfg) q1 e1 with profile := some n })) :
    s1.sess = .connected ∧ s1.cache = s.cache ∧
      ∃ d, getProfile s.cfg (beginOperation s) = .done n { s1 with seqK := 0, seqD := d } := by
  obtain ⟨hknown, rfl⟩ | ⟨hunknown, g, q1, e1, ha, rfl, rfl⟩ := h
  · exact ⟨hs, rfl, 0, getProfile_of_known (s := beginOperation s1) hs hknown⟩
  · exact ⟨hs, rfl, getProfile_of_answers (s := beginOperation s) hs hunknown ha⟩

/-- Settles O48: the profile is known or learned, the cells decode one field after another, and one exchange answers the
power status. -/
theorem snapshotCompletes : Obligations.SnapshotCompletes := by
  intro s s1 n idx poll mm sleep deb ripple ms as modes led f q e power raw hs hprofile hlen hcells hidx hpoll hmm
    hripple hms has hsleep hdeb hmodes hled hpower hdec
  obtain ⟨hsess, hcache, d, hget⟩ := getProfile_of_known_or_answers hs hprofile
  obtain ⟨d', hquery⟩ := powerQuery_of_answers (s := { s1 with seqK := 0, seqD := d }) hsess hpower
  rw [hdec, Op.lift_ok_apply] at hquery
  have hread : ∀ {α : Type} {g : SettingField} {dec : List Byte → Except Raise α} {x : α},
      HoldsRun s.cache (s.cfg.params.addr g).toNat (raw g) → dec (raw g) = .ok x →
      getTyped s.cfg g dec { s1 with seqK := 0, seqD := d } = .done x { s1 with seqK := 0, seqD := d } :=
    fun hrun => getTyped_of_decodes (hlen _) (hcache ▸ hrun)
  have hcell : ∀ g, g ≠ .ledEffect → g ≠ .ledBright → g ≠ .breatheSpeed →
      HoldsRun s.cache (s.cfg.params.addr g).toNat (raw g) := fun g => hcells g (mem_settingField_all g)
  have hledReads : LedReads s.cfg { s1 with seqK := 0, seqD := d } led := by
    have hon := hcell .ledEnabled nofun nofun nofun
    obtain ⟨hen, rfl⟩ | ⟨hen, heff, ⟨hdark, rfl⟩ | ⟨x, hst, hc, hx, rfl⟩ | ⟨x, hbr, hc, hx, rfl⟩⟩ := hled
    · exact .off (hread hon hen)
    · exact .dark (hread hon hen) (hread heff hdark)
    · exact .steady (hread hon hen) (hread heff hst) (hread hc hx)
    · exact .breathe (hread hon hen) (hread heff hbr) (hread hc hx)
  have hmodesRead := modeSettings_of_decodes (ms := [0, 1, 2, 3]) fun m _ =>
    ⟨hread (hcell (.dpi m) nofun nofun nofun) (hmodes m).1, hread (hcell (.color m) nofun nofun nofun) (hmodes m).2⟩
  have hsettings : SettingsRead s.cfg { s1 with seqK := 0, seqD := d }
      ⟨n, idx, _, poll, led, mm, ripple, ms, as, sleep, deb, power⟩ :=
    { dpiIdx := hread (hcell .dpiIdx nofun nofun nofun) hidx
      modes := hmodesRead
      poll := hread (hcell .poll nofun nofun nofun) hpoll
      led := hledReads
      lodMm := hread (hcell .lodMm nofun nofun nofun) hmm
      lodRipple := hread (hcell .lodRipple nofun nofun nofun) hripple
      motionSync := hread (hcell .motionSync nofun nofun nofun) hms
      angleSnap := hread (hcell .angleSnap nofun nofun nofun) has
      autosleep := hread (hcell .autosleep nofun nofun nofun) hsleep
      debounce := hread (hcell .debounce nofun nofun nofun) hdeb }
  have hsnap := snapshotOperation_of_reads (s := beginOperation s) hs hget hsettings hquery
  exact congrArg _ (runOperation_value_of_done hsnap)

end Sys2Proof.Machine

/-! ## Operations that only answer

The codecs, the encoders, CLASSIFY and the frame codec are computations; MAP_GET and the getters read cells; so each changes
no state before its end (44_session.md R295, 60_exceptions.md R342). -/

namespace Sys2Proof.Machine

/-- An operation whose steps change nothing touches nothing but the result port. -/
theorem Op.Reads.next {op : Op Value} (h : op.Reads) (s : State) :
    ∃ st v, Host.Outcome.next (φ := Fault) (ρ := Refusal) (runOperation op s) = .next (s.ended st v) := by
  have hs := h (beginOperation s)
  obtain ⟨v, u, hop, hrun⟩ | ⟨e, u, hop, hrun⟩ := runOperation_cases op s <;>
  · rw [hop] at hs
    cases hs
    exact ⟨_, _, congrArg _ hrun⟩

/-- Settles O56, by the kinds of these operations: a computation, one cell read, or a getter. -/
theorem pureOperationsOnlyAnswer : Obligations.PureOperationsOnlyAnswer := by
  intro i s hi
  cases i
  case cksum | frameEnc | frameDec | encPowerQ | encRestore | encMemread | encMemwrite | encProfget | encProfset
      | encEvtack0 | encEvtack1 | encEvtack2 | classify | dpiEnc | dpiDec | colorEnc | colorDec | boolEnc | boolDec
      | effectEnc | effectDec | pollEnc | pollDec | byteEnc | byteDec | idxEnc | idxDec | sleepEnc | sleepDec =>
    exact (Op.reads_lift _).next s
  case mapGet => exact (Op.reads_bind (mapGet_reads _) fun _ => Op.reads_pure _).next s
  case getPoll | getDpiIdx | getLodMm | getLodRipple | getDebounce | getMotionSync | getAngleSnap | getLedEffect
      | getLedBright | getLedEnabled | getBreatheSpeed | getAutosleep =>
    exact (getField_reads _ _).next s
  case getDpi | getColor => exact (Op.reads_bind (Op.reads_lift _) fun _ => getField_reads _ _).next s
  all_goals cases hi

end Sys2Proof.Machine

/-! ## Operations without a session

A transport operation checks its arguments, then the session, and only then touches the link; so without a session it ends
at one of the two checks, and which one its arguments decide (44_session.md R295, 60_exceptions.md R345). -/

namespace Sys2Proof.Machine

/-- The statuses an argument check can raise (60_exceptions.md R345). -/
def argumentErrors : List Status := [.invalidValue, .alignmentError, .invalidRange]

/-- Without a session the operation changes nothing: it raises NotConnected where `p` holds, and an argument error where it
does not. -/
def Op.NeedsSession {α : Type} (op : Op α) (p : Prop) : Prop :=
  ∀ s, s.sess = .disconnected →
    (p → ∃ v, op s = .raised ⟨.notConnected, v⟩ s) ∧
    (¬ p → ∃ e, e.status ∈ argumentErrors ∧ op s = .raised e s)

section
variable {α β : Type} {p : Prop}

/-- What follows an operation that needs a session does not run without one. -/
theorem Op.NeedsSession.bind {m : Op α} (h : m.NeedsSession p) (f : α → Op β) : (m.bind f).NeedsSession p := by
  intro s hs
  obtain ⟨hpass, hfail⟩ := h s hs
  exact ⟨fun hp => (hpass hp).imp fun _ => Op.bind_of_raised,
    fun hp => (hfail hp).imp fun _ he => ⟨he.1, Op.bind_of_raised he.2⟩⟩

/-- The session check, and whatever follows it. -/
theorem requireConnected_needsSession (f : Unit → Op α) : (requireConnected.bind f).NeedsSession True := by
  intro s hs
  exact ⟨fun _ => ⟨.none, Op.bind_of_raised (requireConnected_of_disconnected hs)⟩, fun hp => absurd trivial hp⟩

/-- A check of the arguments, before the session is looked at. -/
theorem check_needsSession {r : Except Raise α} {f : α → Op β} (hok : p → ∃ a, r = .ok a)
    (herr : ¬ p → ∃ e, e.status ∈ argumentErrors ∧ r = .error e) (hf : ∀ a, (f a).NeedsSession True) :
    ((Op.lift r).bind f).NeedsSession p := by
  intro s hs
  constructor
  · intro hp
    obtain ⟨a, rfl⟩ := hok hp
    exact (hf a s hs).1 trivial
  · intro hp
    obtain ⟨e, he, rfl⟩ := herr hp
    exact ⟨e, he, rfl⟩

/-- A whole operation that needs a session, without one. -/
theorem Op.NeedsSession.next {op : Op Value} (h : op.NeedsSession p) {s : State} (hs : s.sess = .disconnected) :
    (p → ∃ v, Host.Outcome.next (φ := Fault) (ρ := Refusal) (runOperation op s) = .next (s.ended .notConnected v)) ∧
    (¬ p → ∃ st v, Host.Outcome.next (φ := Fault) (ρ := Refusal) (runOperation op s) = .next (s.ended st v) ∧
      st ∈ argumentErrors) := by
  obtain ⟨hpass, hfail⟩ := h (beginOperation s) hs
  constructor
  · intro hp
    obtain ⟨v, hv⟩ := hpass hp
    exact ⟨v, congrArg _ (runOperation_of_raised (u := beginOperation s) hv)⟩
  · intro hp
    obtain ⟨e, he, hop⟩ := hfail hp
    exact ⟨e.status, e.value, congrArg _ (runOperation_of_raised (u := beginOperation s) hop), he⟩

end

/-! ### The setters -/

/-- The values and texts a codec's encoder takes (43_value_codecs.md R250 to R264). -/
def Codec.Takes (v : Word32) (text : List Ascii) : Codec → Prop
  | .poll => v.toNat ∈ [125, 250, 500, 1000]
  | .idx => v.toNat ≤ 3
  | .byte => v.toNat ≤ 255
  | .bool => v.toNat ≤ 1
  | .effect => v.toNat ≤ 2
  | .sleep => v.toNat % 10 = 0 ∧ v.toNat ≤ 2550
  | .dpi => 50 ≤ v.toNat ∧ v.toNat ≤ 26000 ∧ v.toNat % 50 = 0
  | .color => ∃ digits : List Nat, digits.length = 6 ∧ IsHexText text digits

/-- An encoder answers what it takes (43_value_codecs.md R250 to R264). -/
theorem codecEnc_of_takes (cfg : Config) {c : Codec} {v : Word32} {text : List Ascii} (h : c.Takes v text) :
    ∃ raw, codecEnc cfg c v text = .ok raw := by
  have hbyte : v.toNat ≤ 255 → ∃ b : Byte, v.toNat = b.toNat := fun h =>
    (exists_byte_of_lt (n := v.toNat) (by omega)).imp fun _ => Eq.symm
  cases c with
  | poll =>
    obtain ⟨r, hr⟩ : ∃ r, v.toNat = pollHz r := by
      simp only [Codec.Takes, List.mem_cons, List.not_mem_nil, or_false] at h
      obtain h | h | h | h := h
      exacts [⟨.hz125, h⟩, ⟨.hz250, h⟩, ⟨.hz500, h⟩, ⟨.hz1000, h⟩]
    exact ⟨_, congrArg (mapOk _) (pollEnc_of_rate hr)⟩
  | idx =>
    obtain ⟨b, hb⟩ := hbyte (Nat.le_trans h (by decide))
    exact ⟨_, congrArg (mapOk _) (idxEnc_of_le hb h)⟩
  | byte =>
    obtain ⟨b, hb⟩ := hbyte h
    exact ⟨_, congrArg (mapOk _) (byteEnc_of_byte hb)⟩
  | bool =>
    obtain ⟨b, hb⟩ := hbyte (Nat.le_trans h (by decide))
    exact ⟨_, congrArg (mapOk _) (boolEnc_of_le hb h)⟩
  | effect =>
    obtain ⟨e, he⟩ : ∃ e, effectOfIndex v.toNat = some e := by
      obtain h | h | h : v.toNat = 0 ∨ v.toNat = 1 ∨ v.toNat = 2 := by
        simp only [Codec.Takes] at h
        omega
      all_goals exact ⟨_, congrArg effectOfIndex h⟩
    exact ⟨_, congrArg (mapOk _) (effectEnc_of_index he)⟩
  | sleep =>
    obtain ⟨hmod, hmax⟩ := h
    obtain ⟨b, hb⟩ := exists_byte_of_lt (n := v.toNat / 10) (by omega)
    exact ⟨_, congrArg (mapOk _) (sleepEnc_of_units (b := b) (by omega))⟩
  | dpi =>
    obtain ⟨h50, hmax, hmod⟩ := h
    obtain ⟨lo, hlo⟩ := exists_byte_of_lt (n := (v.toNat / 50 - 1) % 256) (by omega)
    obtain ⟨p, hp⟩ := exists_byte_of_lt (n := (v.toNat / 50 - 1) / 256 * 68) (by omega)
    exact ⟨_, dpiEnc_of_valid (by omega) hmod hlo hp⟩
  | color =>
    obtain ⟨digits, hlen, htext⟩ := h
    match digits, hlen, htext with
    | [r1, r0, g1, g0, b1, b0], _, htext =>
      obtain ⟨hr1, hr0, hg1, hg0, hb1, hb0⟩ := htext.bounds
      obtain ⟨r, hr⟩ := exists_byte_of_lt (n := 16 * r1 + r0) (by omega)
      obtain ⟨g, hg⟩ := exists_byte_of_lt (n := 16 * g1 + g0) (by omega)
      obtain ⟨b, hb⟩ := exists_byte_of_lt (n := 16 * b1 + b0) (by omega)
      exact ⟨_, colorEnc_of_digits htext hr hg hb⟩

/-- An encoder refuses what it does not take, with InvalidValue or AlignmentError (43_value_codecs.md R250 to R264). -/
theorem codecEnc_of_not_takes (cfg : Config) {c : Codec} {v : Word32} {text : List Ascii} (h : ¬ c.Takes v text) :
    ∃ e, e.status ∈ argumentErrors ∧ codecEnc cfg c v text = .error e := by
  cases c with
  | poll => exact ⟨_, by simp [argumentErrors], congrArg (mapOk _) (pollEnc_of_not_rate h)⟩
  | idx => exact ⟨_, by simp [argumentErrors], congrArg (mapOk _) (idxEnc_of_lt (Nat.lt_of_not_le h))⟩
  | byte => exact ⟨_, by simp [argumentErrors], congrArg (mapOk _) (byteEnc_of_lt (Nat.lt_of_not_le h))⟩
  | bool => exact ⟨_, by simp [argumentErrors], congrArg (mapOk _) (boolEnc_of_lt (Nat.lt_of_not_le h))⟩
  | effect => exact ⟨_, by simp [argumentErrors], congrArg (mapOk _) (effectEnc_of_lt (Nat.lt_of_not_le h))⟩
  | sleep =>
    simp only [Codec.Takes] at h
    exact ⟨_, by simp [argumentErrors], congrArg (mapOk _) (sleepEnc_of_not_units (by omega))⟩
  | dpi =>
    simp only [Codec.Takes] at h
    by_cases hrange : v.toNat < 50 ∨ 26000 < v.toNat
    · exact ⟨_, by simp [argumentErrors], dpiEnc_of_range hrange⟩
    · exact ⟨_, by simp [argumentErrors], dpiEnc_of_misaligned hrange (by omega)⟩
  | color =>
    exact ⟨_, by simp [argumentErrors], colorEnc_of_not_digits fun digits hlen htext => h ⟨digits, hlen, htext⟩⟩

/-- MAP_WRITE checks its pairs, then the session (42_register_map.md R191). -/
theorem mapWrite_needsSession (cfg : Config) (pairs : List (Byte × Byte)) :
    (mapWrite cfg pairs).NeedsSession (PairsPass pairs) := by
  refine check_needsSession (fun h => ?_) (fun h => ?_) fun _ => requireConnected_needsSession _
  · obtain ⟨lo, vals, hp⟩ := pairsArg_of_pass h
    exact ⟨_, hp⟩
  · obtain ⟨v, hp⟩ | ⟨_, _, hp, -⟩ := pairsArg_cases pairs
    · exact ⟨_, by simp [argumentErrors], hp⟩
    · exact absurd (pairsPass_of_pairsArg hp) h

/-- The generic setter's encoder checks the value, then MAP_WRITE, whose checks pass, the session (42_register_map.md
R200). -/
theorem setField_needsSession (cfg : Config) (f : SettingField) (v : Word32) (text : List Ascii) :
    (setField cfg f v text).NeedsSession ((codecOf f).Takes v text) := by
  intro s hs
  constructor
  · intro h
    obtain ⟨raw, hraw⟩ := codecEnc_of_takes cfg h
    obtain ⟨e, he, -, -⟩ | ⟨-, hset⟩ | ⟨hc, -⟩ := setField_cases cfg f v text s
    · cases hraw.symm.trans he
    · exact ⟨_, hset⟩
    · cases hs.symm.trans hc
  · intro h
    obtain ⟨e, he, henc⟩ := codecEnc_of_not_takes cfg h
    exact ⟨e, he, setField_of_error henc⟩

/-- The setters of a mode slot check the mode before the value (42_register_map.md R202, R242, R243). -/
theorem modeSetter_needsSession (cfg : Config) (slot : Fin 4 → SettingField) {c : Codec} (hc : ∀ m, codecOf (slot m) = c)
    (a : Byte) (v : Word32) (text : List Ascii) :
    ((Op.lift (modeArg a)).bind fun m => setField cfg (slot m) v text).NeedsSession
      (a.toNat ≤ 3 ∧ c.Takes v text) := by
  intro s hs
  by_cases ha : a.toNat < 4
  · obtain ⟨m, hm⟩ := exists_mode ha
    obtain ⟨hpass, hfail⟩ := setField_needsSession cfg (slot m) v text s hs
    rw [hc] at hpass hfail
    rw [modeArg_of_eq hm, Op.lift_ok_bind]
    exact ⟨fun h => hpass h.2, fun h => hfail fun ht => h ⟨by omega, ht⟩⟩
  · rw [modeArg_of_four_le (by omega), Op.lift_error_bind]
    exact ⟨fun h => absurd h.1 (by omega), fun _ => ⟨_, by simp [argumentErrors], rfl⟩⟩

/-! ### The other operations -/

/-- SEND_EVTACK checks the kind, then the session (44_session.md R303). -/
theorem sendEvtack_needsSession (cfg : Config) (a : Byte) : (sendEvtack cfg a).NeedsSession (a.toNat ≤ 2) := by
  refine check_needsSession (fun h => ?_) (fun h => ?_) fun _ => requireConnected_needsSession _
  · exact ⟨⟨a.toNat, by omega⟩, kindArg_of_eq rfl⟩
  · exact ⟨_, by simp [argumentErrors], kindArg_of_two_lt (by omega)⟩

/-- ENC_MEMREAD takes exactly the ranges inside the map, and refuses the others with an argument error (41_payload.md
R152). -/
theorem encMemread_accepts (cfg : Config) (a n : Byte) :
    (1 ≤ n.toNat ∧ n.toNat ≤ 10 ∧ a.toNat + n.toNat ≤ 256 → ∃ q, encMemread cfg a n = .ok q) ∧
    (¬ (1 ≤ n.toNat ∧ n.toNat ≤ 10 ∧ a.toNat + n.toNat ≤ 256) →
      ∃ e, e.status ∈ argumentErrors ∧ encMemread cfg a n = .error e) :=
  ⟨fun ⟨h1, h10, h⟩ => ⟨_, encMemread_of_range h1 h10 h⟩,
    fun h => ⟨_, by simp [argumentErrors], encMemread_of_not_range (by omega)⟩⟩

/-- So does ENC_MEMWRITE (41_payload.md R153). -/
theorem encMemwrite_accepts (cfg : Config) (a : Byte) (vals : List Byte) :
    (1 ≤ vals.length ∧ vals.length ≤ 10 ∧ a.toNat + vals.length ≤ 256 → ∃ q, encMemwrite cfg a vals = .ok q) ∧
    (¬ (1 ≤ vals.length ∧ vals.length ≤ 10 ∧ a.toNat + vals.length ≤ 256) →
      ∃ e, e.status ∈ argumentErrors ∧ encMemwrite cfg a vals = .error e) :=
  ⟨fun ⟨h1, h10, h⟩ => ⟨_, encMemwrite_of_byte_range h1 h10 h⟩,
    fun h => ⟨_, by simp [argumentErrors], encMemwrite_of_not_range (by omega)⟩⟩

/-- Settles O57, operation by operation: the check of its arguments, if it has one, then the session's. -/
theorem transportNeedsSession : Obligations.TransportNeedsSession := by
  intro i s hi hs
  cases i
  case mapWrite => exact ((mapWrite_needsSession _ _).bind _).next hs
  case sendEvtack => exact ((sendEvtack_needsSession _ _).bind _).next hs
  case setPoll | setDpiIdx | setLodMm | setLodRipple | setDebounce | setMotionSync | setAngleSnap | setLedEffect
      | setLedBright | setLedEnabled | setBreatheSpeed | setAutosleep =>
    refine Op.NeedsSession.next ?_ hs
    exact (setField_needsSession _ _ _ _).bind _
  case setDpi => exact ((modeSetter_needsSession _ .dpi (fun _ => rfl) _ _ _).bind _).next hs
  case setColor => exact ((modeSetter_needsSession _ .color (fun _ => rfl) _ _ _).bind _).next hs
  case memreadQ a n =>
    obtain ⟨hok, herr⟩ := encMemread_accepts s.cfg a n
    exact (check_needsSession hok herr fun _ => requireConnected_needsSession _).next hs
  case memwriteQ a vals =>
    obtain ⟨hok, herr⟩ := encMemwrite_accepts s.cfg a vals
    exact (check_needsSession hok herr fun _ => requireConnected_needsSession _).next hs
  case flush | mapBulkRead | restore | getProfile | setProfile | powerQuery | snapshot | evtack0 | evtack1 | evtack2 =>
    exact ((requireConnected_needsSession _).bind _).next hs
  case recv | powerQ | restoreQ | profgetQ | profsetQ => exact (requireConnected_needsSession _).next hs
  all_goals cases hi

end Sys2Proof.Machine

/-! ## Failed operations

Every operation ends with a result, and with an error only where one of its steps raised (60_exceptions.md R340, R342). The
writes to the cache, the session and the profile stand after the last step that can raise, but for the earlier windows of
MAP_BULK_READ and the profile that SNAPSHOT learned first; so a step that raises has sent its frame and received, no more. -/

namespace Sys2Proof.Machine

/-- Settles O54: the end of the operation put its result at the port. -/
theorem operationsEndWithOneStatus : Obligations.OperationsEndWithOneStatus := by
  intro i s ha
  obtain ⟨u, st, v, hx⟩ := exec_ended ha s
  exact ⟨u.ended st v, ⟨st, v⟩, hx, rfl⟩

/-- An operation that failed raised, and ended in the state its steps left (60_exceptions.md R342). -/
theorem runOperation_failed {op : Op Value} {s : State} (hf : (runOperation op s).Failed) :
    ∃ e u, op (beginOperation s) = .raised e u ∧ runOperation op s = u.ended e.status e.value := by
  obtain ⟨v, u, -, hrun⟩ | hraised := runOperation_cases op s
  · rw [hrun] at hf
    exact absurd hf (State.not_failed_of_ok rfl)
  · exact hraised

/-- Where the step raises, it has written neither cells nor the profile nor the session. -/
def Op.RaisesKept {α : Type} (cfg : Config) (op : Op α) : Prop :=
  ∀ s e u, op s = .raised e u → Kept cfg false false s u

section
variable {cfg : Config} {α β : Type}

/-- A value handed on raises nothing new. -/
theorem Op.RaisesKept.bind_pure {m : Op α} (h : m.RaisesKept cfg) (f : α → β) :
    (m.bind fun a => Op.pure (f a)).RaisesKept cfg := by
  intro s e u hr
  obtain hm | ⟨a, w, -, hpure⟩ := Op.bind_eq_raised hr
  · exact h s e u hm
  · cases hpure

/-- A check in front raises before anything is written. -/
theorem Op.RaisesKept.lift_bind (x : Except Raise α) {f : α → Op β} (h : ∀ a, (f a).RaisesKept cfg) :
    ((Op.lift x).bind f).RaisesKept cfg := by
  intro s e u hr
  cases x with
  | ok a => exact h a s e u hr
  | error e' =>
    cases hr
    exact Kept.refl s

/-- MAP_WRITE stores its cells after the reply, where nothing raises any more (42_register_map.md R191). -/
theorem mapWrite_raisesKept (pairs : List (Byte × Byte)) : (mapWrite cfg pairs).RaisesKept cfg := by
  intro s e u hr
  obtain ⟨_, h⟩ | ⟨-, h⟩ | ⟨-, _, _, _, _, -, -, -, -, h | ⟨_, -, h⟩⟩ := mapWrite_cases cfg pairs s <;>
    cases h.symm.trans hr
  case inl | inr.inl => exact Kept.refl s
  case inr.inr => exact Kept.of_sent s (builtFrame_build _ _ _) _ _ _ _

/-- So do the setters, each one MAP_WRITE behind its encoder's check (42_register_map.md R200). -/
theorem setField_raisesKept (f : SettingField) (v : Word32) (text : List Ascii) :
    (setField cfg f v text).RaisesKept cfg := .lift_bind _ fun _ => mapWrite_raisesKept _

/-- RESTORE clears the cache after the whole echo (44_session.md R296). -/
theorem restoreOperation_raisesKept : (restoreOperation cfg).RaisesKept cfg := by
  intro s e u hr
  obtain ⟨-, h⟩ | ⟨-, _, _, _, h | ⟨_, -, h⟩⟩ := restoreOperation_cases cfg s <;> cases h.symm.trans hr
  case inl => exact Kept.refl s
  case inr => exact Kept.of_sent s (builtFrame_build _ _ _) _ _ _ _

/-- OPEN makes its partial reset after the transport's answer (44_session.md R300). -/
theorem openOperation_raisesKept : openOperation.RaisesKept cfg := by
  intro s e u hr
  obtain ⟨-, h⟩ | ⟨-, _, h | h⟩ := openOperation_cases s <;> cases h.symm.trans hr
  exact Kept.of_receive s _ _ _ _

/-- GET_PROFILE learns the profile from the reply, where nothing raises any more (44_session.md R297). -/
theorem getProfile_raisesKept : (getProfile cfg).RaisesKept cfg := by
  intro s e u hr
  obtain ⟨-, h⟩ | ⟨-, ⟨_, -, h⟩ | ⟨-, _, _, _, ⟨_, h⟩ | ⟨_, -, h⟩⟩⟩ := getProfile_cases cfg s <;> cases h.symm.trans hr
  case inl => exact Kept.refl s
  case inr => exact Kept.of_sent s (builtFrame_build _ _ _) _ _ _ _

/-- SET_PROFILE stores the profile after the echo was compared (44_session.md R298). -/
theorem setProfile_raisesKept (n : Byte) : (setProfile cfg n).RaisesKept cfg := by
  intro s e u hr
  obtain ⟨-, h⟩ | ⟨-, _, _, _, h | ⟨_, -, h⟩⟩ := setProfile_cases cfg n s <;> cases h.symm.trans hr
  case inl => exact Kept.refl s
  case inr => exact Kept.of_sent s (builtFrame_build _ _ _) _ _ _ _

/-- A whole operation that failed kept what its raising step kept. -/
theorem Op.RaisesKept.of_failed {op : Op Value} (h : op.RaisesKept cfg) {s : State} (hf : (runOperation op s).Failed) :
    Kept cfg false false s (runOperation op s) := by
  obtain ⟨e, u, hraised, hrun⟩ := runOperation_failed hf
  have hbegin : Kept cfg false false s (beginOperation s) := Kept.of_receive s _ _ _ _
  rw [hrun]
  exact (hbegin.trans _ _ _ (h _ e u hraised)).ended _ _

end

/-- A failed instruction other than MAP_BULK_READ and SNAPSHOT wrote neither cells nor the profile nor the session: those
that may write one of these raised before they did, and CLOSE does not fail (44_session.md R301). -/
theorem exec_failed_kept {i : Instr} {s t : State} (hbulk : i ≠ .mapBulkRead) (hsnap : i ≠ .snapshot)
    (h : exec i s = .next t) (hf : t.Failed) : Kept s.cfg false false s t := by
  cases i
  case mapBulkRead => exact absurd rfl hbulk
  case snapshot => exact absurd rfl hsnap
  case mapWrite =>
    cases h
    exact ((mapWrite_raisesKept _).bind_pure _).of_failed hf
  case setPoll | setDpiIdx | setLodMm | setLodRipple | setDebounce | setMotionSync | setAngleSnap | setLedEffect
      | setLedBright | setLedEnabled | setBreatheSpeed | setAutosleep =>
    cases h
    exact ((setField_raisesKept _ _ _).bind_pure _).of_failed hf
  case setDpi | setColor =>
    cases h
    exact ((Op.RaisesKept.lift_bind _ fun _ => setField_raisesKept _ _ _).bind_pure _).of_failed hf
  case restore =>
    cases h
    exact (restoreOperation_raisesKept.bind_pure _).of_failed hf
  case openSession =>
    cases h
    exact (openOperation_raisesKept.bind_pure _).of_failed hf
  case closeSession =>
    cases h
    exact absurd hf (State.not_failed_of_ok rfl)
  case getProfile =>
    cases h
    exact (getProfile_raisesKept.bind_pure _).of_failed hf
  case setProfile =>
    cases h
    exact ((setProfile_raisesKept _).bind_pure _).of_failed hf
  all_goals exact exec_next_kept (by nofun) (by nofun) (by nofun) h

/-- Settles O60: MAP_BULK_READ writes no profile and SNAPSHOT no cell, failed or not, and a failed instruction of any other
kind writes neither. -/
theorem failedOperationsKeepState : Obligations.FailedOperationsKeepState := by
  intro i s t h _ hf
  by_cases hbulk : i = .mapBulkRead
  · subst hbulk
    have hk : Kept s.cfg true false s t := exec_next_kept (by nofun) (by nofun) (by nofun) h
    exact ⟨hk.sess, fun hne => absurd rfl hne, fun _ => hk.profile rfl⟩
  by_cases hsnap : i = .snapshot
  · subst hsnap
    have hk : Kept s.cfg false true s t := exec_next_kept (by nofun) (by nofun) (by nofun) h
    exact ⟨hk.sess, fun _ => hk.cache rfl, fun hne => absurd rfl hne⟩
  have hk := exec_failed_kept hbulk hsnap h hf
  exact ⟨hk.sess, fun _ => hk.cache rfl, fun _ => hk.profile rfl⟩

end Sys2Proof.Machine

/-! ## Reset

Power-on starts with no populated cell, nothing received, nothing sent and no operation running (70_reset_and_hazards.md
R380, R383). -/

namespace Sys2Proof.Machine

/-- Over an empty cache no cell is valid (10_state.md R22). -/
theorem State.valid_of_cache_nil {s : State} (h : s.cache = []) (a : Nat) : s.valid a = false := by
  rw [State.valid, h, Memory.read_nil, Option.isSome_none]

/-- A state that has sent nothing and runs no operation needs only a canonical cache. -/
theorem State.Inv.of_tx_nil {s : State} (hcache : Memory.wf s.cache = true) (htx : s.tx = [])
    (hcounters : s.seqK = 0 ∧ s.seqD = 0) : s.Inv where
  cache_wf := hcache
  tx_header := by simp [htx]
  tx_checksum := by simp [htx]
  counters := hcounters

/-- Settles O51: the reset cache is empty, so no cell is valid; the other items are the reset column as it stands. -/
theorem resetState : Obligations.ResetState :=
  ⟨rfl, rfl, State.valid_of_cache_nil rfl, rfl, rfl⟩

/-- Settles O52: at reset the cache is canonical, the history empty and the counters 0. -/
theorem resetMeetsInv : Obligations.ResetMeetsInv :=
  State.Inv.of_tx_nil Memory.reset_wf rfl ⟨rfl, rfl⟩

end Sys2Proof.Machine
